-- ==== Sys2Proof/Word.lean ====
section
/-! DEFINITION. The word types of the ImageCompressor DCT engine (spec/00_scope.md R4, R11; spec/10_state.md R22, R42). -/

namespace Sys2Proof

/-- An 8-bit sample, or one byte of the shared memory (R9, R42). -/
abbrev Byte := BitVec 8

/-- A 16-bit register field: an image dimension, the block size, the threshold, a block index (R30, R31, R32, R36). -/
abbrev Half := BitVec 16

/-- A 32-bit register word or command word (R22, R64). -/
abbrev Word := BitVec 32

/-- An IEEE 754 binary64 value, as its 64-bit pattern (R11). -/
abbrev F64 := BitVec 64

end Sys2Proof
end

