-- ==== Sys2Proof/Syntax.lean ====
section
/-! DEFINITION. The commands of the engine: one constructor per row of spec/opcode_table.json (spec/30_encoding.md R66).
No command carries an operand in its word (R67), so no constructor has a field. -/

namespace Sys2Proof

/-- A command of the engine (R66). -/
inductive Instr
  | nop
  | validate
  | buildBasis
  | run
  | loadBlock
  | storeBlock
  | cursorNext
  | fdctCols
  | fdctRows
  | fdct
  | idctCols
  | idctRows
  | idct
  | mask
  | recon
  | clearErr
  | abort
  | softReset
  deriving DecidableEq, Repr

end Sys2Proof
end

