-- ==== Sys2Proof/WellFormed.lean ====
section
/-! DEFINITION. Well-formed command words (spec/30_encoding.md R64, R65, R66).  The list of assigned opcodes stands here
apart from the decoder's table, so that the law `decode_command_iff_wellFormed` compares two texts. -/

namespace Sys2Proof

/-- The eighteen assigned opcodes, in the order of R66. -/
def assignedOpcodes : List Byte :=
  [0x00#8, 0x01#8, 0x02#8, 0x03#8, 0x10#8, 0x11#8, 0x12#8, 0x20#8, 0x21#8, 0x22#8, 0x28#8, 0x29#8, 0x2A#8,
   0x30#8, 0x31#8, 0xF0#8, 0xFE#8, 0xFF#8]

/-- The first check of R65: the field OPCODE, `w[7:0]`, is assigned. -/
def opcodeAssigned (w : Word) : Bool := assignedOpcodes.contains (w.extractLsb' 0 8)

/-- The second check of R65: the field RSVD, `w[31:8]`, is zero. -/
def reservedZero (w : Word) : Bool := w.extractLsb' 8 24 == 0#24

/-- A word that is a command (R65). -/
def wellFormedWord (w : Word) : Bool := opcodeAssigned w && reservedZero w

/-- An instruction has no operand (R67), so there is no ill-formed one: what can be ill-formed is a command word. -/
def Instr.wellFormed (_ : Instr) : Bool := true

end Sys2Proof
end

