-- ==== Sys2Proof/Decode.lean ====
section
/-! DEFINITION. Decoding a command word and encoding a command (spec/30_encoding.md R64 to R70). -/

namespace Sys2Proof

/-- One row of the opcode map of R66. -/
structure OpcodeRow where
  /-- The field OPCODE. -/
  opcode : Byte
  /-- The command. -/
  instr : Instr
  /-- Whether the command takes effect within the CMD write (instant), or runs as work steps while BUSY = 1. -/
  instant : Bool
  deriving DecidableEq, Repr

/-- The opcode map (R66), row by row. -/
def opcodeTable : List OpcodeRow :=
  [⟨0x00#8, .nop, true⟩,
   ⟨0x01#8, .validate, false⟩,
   ⟨0x02#8, .buildBasis, false⟩,
   ⟨0x03#8, .run, false⟩,
   ⟨0x10#8, .loadBlock, false⟩,
   ⟨0x11#8, .storeBlock, false⟩,
   ⟨0x12#8, .cursorNext, false⟩,
   ⟨0x20#8, .fdctCols, false⟩,
   ⟨0x21#8, .fdctRows, false⟩,
   ⟨0x22#8, .fdct, false⟩,
   ⟨0x28#8, .idctCols, false⟩,
   ⟨0x29#8, .idctRows, false⟩,
   ⟨0x2A#8, .idct, false⟩,
   ⟨0x30#8, .mask, false⟩,
   ⟨0x31#8, .recon, false⟩,
   ⟨0xF0#8, .clearErr, true⟩,
   ⟨0xFE#8, .abort, true⟩,
   ⟨0xFF#8, .softReset, true⟩]

/-- The command an opcode is assigned to, if any (R66, R68). -/
def instrOfOpcode (op : Byte) : Option Instr := (opcodeTable.find? fun r => r.opcode == op).map (·.instr)

/-- The row of a command in the opcode map. -/
def rowOf (i : Instr) : OpcodeRow := (opcodeTable.find? fun r => r.instr == i).getD ⟨0x00#8, .nop, true⟩

/-- The opcode of a command (R66). -/
def opcodeOf (i : Instr) : Byte := (rowOf i).opcode

/-- The class of a command (R66): instant or not. -/
def isInstant (i : Instr) : Bool := (rowOf i).instant

/-- Why a word is illegal (R65). -/
inductive IllegalWord
  /-- DETAIL 1: `w[7:0]` is not an assigned opcode. -/
  | unassignedOpcode
  /-- DETAIL 2: the opcode is assigned and `w[31:8]` is not zero. -/
  | reservedNonzero
  deriving DecidableEq, Repr

/-- What a command word decodes to (R65). -/
inductive Decoded
  | command (i : Instr)
  | illegal (why : IllegalWord)
  deriving DecidableEq, Repr

/-- The field OPCODE of a command word (R64). -/
def opcodeField (w : Word) : Byte := w.extractLsb' 0 8

/-- The field RSVD of a command word (R64). -/
def reservedField (w : Word) : BitVec 24 := w.extractLsb' 8 24

/-- Decode of a command word (R65): the opcode is looked at first, then the reserved bits. -/
def decode (w : Word) : Decoded :=
  match instrOfOpcode (opcodeField w) with
  | none => .illegal .unassignedOpcode
  | some i => if reservedField w = 0#24 then .command i else .illegal .reservedNonzero

/-- The word of a command: `zext_32(opcode)` (R70). -/
def encode (i : Instr) : Word := (opcodeOf i).zeroExtend 32

/-- The word whose byte lanes 0 to 3 are the four bytes given: register words are little-endian on the host bus
(spec/20_memory.md R49). -/
def wordOfLanes (b0 b1 b2 b3 : Byte) : Word := b3 ++ b2 ++ b1 ++ b0

/-- Decoding of the bytes of one host access to CMD: four byte lanes are one word, and any other number of bytes is no
command word (spec/20_memory.md R50, spec/30_encoding.md R69). -/
def decodeLanes : List Byte → Option Decoded
  | [b0, b1, b2, b3] => some (decode (wordOfLanes b0 b1 b2 b3))
  | _ => none

/-- The command the decoder reads from the word whose `nbits` low bits are those of `w` and whose other bits are zero,
numbered as spec/opcode_table.json numbers them. -/
def decodeTableWord (nbits w : Nat) : Option Instr :=
  match decode (BitVec.ofNat 32 (w % 2 ^ nbits)) with
  | .command i => some i
  | .illegal _ => none

end Sys2Proof
end

