-- ==== Sys2Proof/Config.lean ====
section
/-! DEFINITION. What an implementation fixes (spec/00_scope.md R3) and the free values of what the spec leaves open. -/

namespace Sys2Proof.Config

/-- `N_MAX`, the largest block size and the side of the working buffers (R3): the spec's default, 32.
DESIGN CHOICE: notes/assumptions/1.md. -/
def nMax : Nat := 32

/-- `ADDR_W`, the width of a DMA address in bits (R3). -/
def addrW : Nat := 32

/-- `ENGINE_BASE`, where the platform places the register window in the host's address space (R3, R55): left open.
notes/assumptions/6.md. -/
opaque engineBase : Nat

/-- `HOST_COHERENT`, whether host caches are coherent with DMA (R3, spec/20_memory.md R63): left open.  It is the host's duty that
depends on it, and no rule of the engine does.  notes/assumptions/6.md. -/
opaque hostCoherent : Bool

/-- FREE VALUE. What element [i][j] of the pixel buffer P holds after the reset numbered `draw` (spec/10_state.md R42,
spec/93_implementation_defined.md I3: any value).  Arguments: draw, i, j.  notes/assumptions/2.md. -/
opaque unspecifiedP : Nat → Nat → Nat → Byte

/-- FREE VALUE. What element [i][j] of the working matrix W holds after the reset numbered `draw` (R42, I3).
Arguments: draw, i, j.  notes/assumptions/2.md. -/
opaque unspecifiedW : Nat → Nat → Nat → F64

/-- FREE VALUE. What element [i][j] of the basis buffer D holds after the reset numbered `draw` (R42, I3).
Arguments: draw, i, j.  notes/assumptions/2.md. -/
opaque unspecifiedD : Nat → Nat → Nat → F64

/-- FREE VALUE. Whether a host read of a byte that the command in flight writes gives the value the command writes (true) or the
value before the command (false): spec/20_memory.md R59 and spec/92_eei_decisions.md D28 allow either.  Argument: the draw.
notes/assumptions/7.md. -/
opaque racedReadIsNew : Nat → Bool

end Sys2Proof.Config
end

