-- ==== Sys2Proof/Machine/State.lean ====
section
/-! DEFINITION. The state of the engine, its interfaces and its environment as plain data (spec/10_state.md), and the state
after reset (spec/70_reset_and_hazards.md R140, R142). -/

namespace Sys2Proof.Machine

/-- An `N_MAX` by `N_MAX` working buffer, a vector of rows (R42). -/
abbrev Mat (α : Type) := Vector (Vector α Config.nMax) Config.nMax

/-- The shared byte memory `Mem` (R9, R47) in canonical form: cells with rising addresses, none of them holding the byte an
unlisted address reads as (`Memory.wf` in Machine/Ops.lean). -/
abbrev Memory := List Host.Cell

/-- The direction of an access, on the DMA port (R9) or on the register port (R2). -/
inductive AccessKind
  | read
  | write
  deriving DecidableEq, Repr

/-- The hidden phase of RUN (R44). -/
inductive Phase
  /-- The next work step of RUN is step 0. -/
  | validate
  /-- The next work step of RUN processes the block at CURSOR. -/
  | blocks
  deriving DecidableEq, Repr

/-- The engine control state (R44): STATUS[0], STATUS[15:8], STATUS[4] and the hidden PHASE. -/
structure Ctl where
  busy : Bool
  curCmd : Byte
  abortPending : Bool
  phase : Phase
  deriving DecidableEq, Repr

/-- The configuration registers (R30 to R34): the fields they store, reserved bits left out. -/
structure Cfg where
  imgRows : Half
  imgCols : Half
  blockSize : Half
  thresh : Half
  srcBase : Word
  srcStride : Word
  dstBase : Word
  dstStride : Word
  deriving DecidableEq, Repr

/-- The CURSOR register (R36): ROW in [15:0], COL in [31:16]. -/
structure Cursor where
  row : Half
  col : Half
  deriving DecidableEq, Repr

/-- BUF_INDEX.SEL (R40): 0 is W, 1 is P, 2 is D, 3 is reserved. -/
inductive BufSel
  | w
  | p
  | d
  | reserved
  deriving DecidableEq, Repr

/-- The BUF_INDEX register (R40): COL in [7:0], ROW in [15:8], SEL in [17:16], AUTOINC in [31]. -/
structure BufIndex where
  col : Byte
  row : Byte
  sel : BufSel
  autoinc : Bool
  deriving DecidableEq, Repr

/-- The two bits of IRQ_STATUS (DONE, ERR) and of IRQ_ENABLE (DONE_IE, ERR_IE) (R38, R39). -/
structure IrqBits where
  done : Bool
  err : Bool
  deriving DecidableEq, Repr

/-- The error causes: the rows of the table of spec/60_exceptions.md R118, each a KIND with a DETAIL
(`causeKind` and `causeDetail` in Machine/Flags.lean). -/
inductive Cause
  /-- KIND 1, DETAIL 1: F ≤ 0. -/
  | blockSizeNotPositive
  /-- KIND 1, DETAIL 2: F > R. -/
  | blockSizeAboveRows
  /-- KIND 1, DETAIL 3: F > C. -/
  | blockSizeAboveCols
  /-- KIND 1, DETAIL 4: F > N_MAX. -/
  | blockSizeAboveMax
  /-- KIND 2, DETAIL 1: d < 0. -/
  | thresholdNegative
  /-- KIND 2, DETAIL 2: d > 2F − 2. -/
  | thresholdTooLarge
  /-- KIND 3, DETAIL 1: SRC_STRIDE < C. -/
  | srcStrideSmall
  /-- KIND 3, DETAIL 2: DST_STRIDE < C_t. -/
  | dstStrideSmall
  /-- KIND 4, DETAIL 1: SRC_END is past the last address. -/
  | srcRange
  /-- KIND 4, DETAIL 2: DST_END is past the last address. -/
  | dstRange
  /-- KIND 5, DETAIL 0: the regions meet and are not in place. -/
  | overlap
  /-- KIND 6, DETAIL 1: a DMA read got an error response. -/
  | busRead
  /-- KIND 6, DETAIL 2: a DMA write got an error response. -/
  | busWrite
  /-- KIND 7, DETAIL 1: the opcode of the command word is not assigned. -/
  | illegalOpcode
  /-- KIND 7, DETAIL 2: the reserved bits of the command word are not zero. -/
  | illegalReserved
  /-- KIND 8, DETAIL 0: a non-instant command was written while BUSY = 1. -/
  | commandWhileBusy
  /-- KIND 9, DETAIL 0: a transform with BASIS_VALID = 0. -/
  | basisNotValid
  /-- KIND 10, DETAIL 1: CURSOR.ROW ≥ BR. -/
  | cursorRow
  /-- KIND 10, DETAIL 2: CURSOR.COL ≥ BC. -/
  | cursorCol
  /-- KIND 11, DETAIL 0: an ABORT took effect. -/
  | aborted
  deriving DecidableEq, Repr

/-- What ERR_CODE holds when an error is recorded (R28): KIND and DETAIL as a cause, and OPCODE. -/
structure ErrRecord where
  cause : Cause
  opcode : Byte
  deriving DecidableEq, Repr

/-- A range of byte addresses whose DMA accesses of one kind get an error response. -/
structure BusErrorRange where
  kind : AccessKind
  first : Nat
  last : Nat
  deriving DecidableEq, Repr

/-- One access of a host to the register window (R50): its width in bits, the byte offset in the 0x100-byte window, and the
data of a write. -/
structure HostAccess where
  kind : AccessKind
  width : Nat
  offset : BitVec 8
  data : Word
  deriving DecidableEq, Repr

/-- What the outside world does to the machine, and when the engine gets a turn (R2, R19). -/
inductive Input
  /-- The engine agent takes its turn (R19): the interleaving of host and engine is the order of the inputs. -/
  | engine
  /-- A host access to the register window. -/
  | access (a : HostAccess)
  /-- The reset input `rst` is asserted and released (R141). -/
  | rst
  /-- A host writes one byte of `Mem` (R57, R59). -/
  | memWrite (a : Word) (v : Byte)
  /-- A host reads one byte of `Mem` (R58, R59). -/
  | memRead (a : Word)
  deriving DecidableEq, Repr

/-- What the host got back for its last access. -/
inductive HostResp
  /-- The value of a register read (R109, R115). -/
  | data (v : Word)
  /-- A write was taken (R107, R110). -/
  | written
  /-- A bus-error response (R50). -/
  | busError
  /-- The value of a read of one byte of `Mem`. -/
  | memByte (v : Byte)
  deriving DecidableEq, Repr

/-- The state of the machine. -/
structure State where
  /-- IMG_ROWS, IMG_COLS, BLOCK_SIZE, THRESH, SRC_BASE, SRC_STRIDE, DST_BASE, DST_STRIDE (R30 to R34). -/
  cfg : Cfg
  /-- CURSOR (R36). -/
  cursor : Cursor
  /-- BLOCKS_DONE (R37). -/
  blocksDone : Word
  /-- BUF_INDEX (R40). -/
  bufIndex : BufIndex
  /-- IRQ_ENABLE (R38). -/
  irqEnable : IrqBits
  /-- IRQ_STATUS (R39). -/
  irqStatus : IrqBits
  /-- ERR_CODE (R28): `none` when KIND = 0, no error recorded. -/
  errCode : Option ErrRecord
  /-- ERR_ADDR (R29). -/
  errAddr : Word
  /-- STATUS.ERR_MULTI (R27). -/
  errMulti : Bool
  /-- STATUS.BASIS_VALID (R27). -/
  basisValid : Bool
  /-- STATUS.LOCKED_WRITE (R27). -/
  lockedWrite : Bool
  /-- STATUS.BUSY, STATUS.CUR_CMD, STATUS.ABORT_PENDING and PHASE (R44). -/
  ctl : Ctl
  /-- WHOLD, the low word of a pending buffer write (R43). -/
  whold : Word
  /-- RHOLD, the high word latched by a read of BUF_DATA_LO (R43). -/
  rhold : Word
  /-- The buffer P: the pixel block (R42). -/
  p : Mat Byte
  /-- The buffer W: the working real matrix (R42). -/
  w : Mat F64
  /-- The buffer D: the transform basis (R42). -/
  d : Mat F64
  /-- The shared byte memory `Mem` (R3, R47). -/
  mem : Memory
  /-- THE MODEL'S OWN: `Mem` as it was when the command in flight was accepted, which a raced host read may still see (R59;
  notes/assumptions/7.md). -/
  memBefore : Memory
  /-- The platform's parameter `busError` (R3) as the list of the address ranges whose accesses fail
  (notes/assumptions/10.md). -/
  busErrors : List BusErrorRange
  /-- THE MODEL'S OWN: what the outside world does next, oldest first; the engine runs alone once it is empty
  (notes/assumptions/9.md). -/
  inputs : List Input
  /-- THE MODEL'S OWN: what the host got back for its last access (notes/assumptions/16.md). -/
  resp : Option HostResp
  /-- THE MODEL'S OWN: the number of the next draw of free values (notes/assumptions/2.md). -/
  draw : Nat
  deriving DecidableEq, Repr

/-- Why the machine stops.  None of these is an error of the spec: those are recorded in ERR_CODE and the machine goes on. -/
inductive Fault
  /-- Raised by the engine's turn when BUSY = 1 and CUR_CMD is the opcode of no non-instant command.  Safe: no run from reset
  reaches such a state, and the spec gives it no step. -/
  | noCommandInFlight
  /-- Raised by a transform or by a block step of RUN when F > N_MAX, so that the block does not fit the buffers.  Safe:
  BASIS_VALID = 1 and PHASE = BLOCKS rule it out in every run (R72, R126). -/
  | blockExceedsBuffers
  /-- Raised by a DMA access past the last address 2^ADDR_W − 1, which does not exist (R9).  Safe: the range checks rule it
  out in every run (R55, R125). -/
  | dmaAddressOutsideMem
  /-- Raised by a host write to a byte of a region that the command in flight reads or writes (R59, I9: a model may forbid
  such host steps).  Safe. -/
  | hostMemoryRace
  deriving DecidableEq, Repr

/-- Why a command has no meaning. -/
inductive Refusal
  /-- The command of this mnemonic has no meaning in this model yet.  Safe. -/
  | notModelled (mnemonic : String)
  deriving DecidableEq, Repr

/-- The engine control state of an idle engine (R44). -/
def Ctl.idle : Ctl := ⟨false, 0x00#8, false, .validate⟩

/-- A buffer whose element [i][j] is `g i j`. -/
def Mat.tab {α : Type} (g : Nat → Nat → α) : Mat α := Vector.ofFn fun i => Vector.ofFn fun j => g i j

/-- The machine right after reset (R140, R142): every register at its reset value and the buffers unspecified (the free
values numbered 0).  Memory lists nothing, no DMA access fails and no input waits. -/
def State.reset : State where
  cfg := ⟨0#16, 0#16, 0#16, 0#16, 0#32, 0#32, 0#32, 0#32⟩
  cursor := ⟨0#16, 0#16⟩
  blocksDone := 0#32
  bufIndex := ⟨0#8, 0#8, .w, false⟩
  irqEnable := ⟨false, false⟩
  irqStatus := ⟨false, false⟩
  errCode := none
  errAddr := 0#32
  errMulti := false
  basisValid := false
  lockedWrite := false
  ctl := Ctl.idle
  whold := 0#32
  rhold := 0#32
  p := Mat.tab (Config.unspecifiedP 0)
  w := Mat.tab (Config.unspecifiedW 0)
  d := Mat.tab (Config.unspecifiedD 0)
  mem := []
  memBefore := []
  busErrors := []
  inputs := []
  resp := none
  draw := 1

end Sys2Proof.Machine
end

