-- ==== Sys2Proof/Machine/Operands.lean ====
section
/-! DEFINITION. The operands every command reads from the registers and what is computed from them: the parameters, the block
grid, the image regions and the pixel addresses (spec/00_scope.md R6 to R8), in unbounded integers (R5). -/

namespace Sys2Proof.Machine

/-- R, the image height (R6). -/
def State.imgR (s : State) : Nat := s.cfg.imgRows.toNat

/-- C, the image width (R6). -/
def State.imgC (s : State) : Nat := s.cfg.imgCols.toNat

/-- F, the signed block size (R6). -/
def State.fInt (s : State) : Int := s.cfg.blockSize.toInt

/-- F as a count of rows and columns: 0 when F ≤ 0. -/
def State.f (s : State) : Nat := s.fInt.toNat

/-- d, the signed frequency threshold (R6). -/
def State.dInt (s : State) : Int := s.cfg.thresh.toInt

/-- BR, the number of block rows (R7, spec/90_conflicts.md C3). -/
def State.br (s : State) : Nat := s.imgR / s.f

/-- BC, the number of block columns (R7). -/
def State.bc (s : State) : Nat := s.imgC / s.f

/-- R_t, the rows of the truncated image (R7). -/
def State.rt (s : State) : Nat := s.br * s.f

/-- C_t, the columns of the truncated image (R7). -/
def State.ct (s : State) : Nat := s.bc * s.f

/-- NB, the number of blocks (R7). -/
def State.nb (s : State) : Nat := s.br * s.bc

/-- SRC_END, the address of the last byte of the source region (R8), for F ≥ 1, BR ≥ 1 and BC ≥ 1. -/
def State.srcEnd (s : State) : Nat := s.cfg.srcBase.toNat + (s.rt - 1) * s.cfg.srcStride.toNat + s.ct - 1

/-- DST_END, the address of the last byte of the destination region (R8), for F ≥ 1, BR ≥ 1 and BC ≥ 1. -/
def State.dstEnd (s : State) : Nat := s.cfg.dstBase.toNat + (s.rt - 1) * s.cfg.dstStride.toNat + s.ct - 1

/-- Whether the image regions are defined (R8). -/
def State.regionsDefined (s : State) : Bool := decide (1 ≤ s.f ∧ 1 ≤ s.br ∧ 1 ≤ s.bc)

/-- The address of source pixel (r, c) (R8). -/
def State.srcPixel (s : State) (r c : Nat) : Nat := s.cfg.srcBase.toNat + r * s.cfg.srcStride.toNat + c

/-- The address of output pixel (r, c) (R8). -/
def State.dstPixel (s : State) (r c : Nat) : Nat := s.cfg.dstBase.toNat + r * s.cfg.dstStride.toNat + c

/-- The source address of element (i, j) of the block at CURSOR (spec/43_block_io.md R89). -/
def State.srcElem (s : State) (i j : Nat) : Nat :=
  s.srcPixel (s.cursor.row.toNat * s.f + i) (s.cursor.col.toNat * s.f + j)

/-- The output address of element (i, j) of the block at CURSOR (spec/43_block_io.md R90). -/
def State.dstElem (s : State) (i j : Nat) : Nat :=
  s.dstPixel (s.cursor.row.toNat * s.f + i) (s.cursor.col.toNat * s.f + j)

/-- The index pairs (i, j) with i, j < n in row-major order (spec/20_memory.md R54). -/
def blockPairs (n : Nat) : List (Nat × Nat) :=
  (List.range n).flatMap fun i => (List.range n).map fun j => (i, j)

/-- The cursor advance function (spec/43_block_io.md R88): the next block in row-major block order. -/
def nextBlock (br bc r c : Nat) : Nat × Nat :=
  if c + 1 < bc then (r, c + 1) else if r + 1 < br then (r + 1, 0) else (0, 0)

/-- CURSOR after one advance (R88, R91): {COL, ROW}. -/
def State.nextCursor (s : State) : Cursor :=
  let n := nextBlock s.br s.bc s.cursor.row.toNat s.cursor.col.toNat
  ⟨BitVec.ofNat 16 n.1, BitVec.ofNat 16 n.2⟩

end Sys2Proof.Machine
end

