-- ==== Sys2Proof/Machine/Flags.lean ====
section
/-! DEFINITION. The status flags and the codes software reads (spec/10_state.md R27, R28, R38, R39, R45, R46;
spec/60_exceptions.md R118). -/

namespace Sys2Proof.Machine

/-- The 4-bit KIND of a cause (R118). -/
def causeKind : Cause → BitVec 4
  | .blockSizeNotPositive => 1#4
  | .blockSizeAboveRows => 1#4
  | .blockSizeAboveCols => 1#4
  | .blockSizeAboveMax => 1#4
  | .thresholdNegative => 2#4
  | .thresholdTooLarge => 2#4
  | .srcStrideSmall => 3#4
  | .dstStrideSmall => 3#4
  | .srcRange => 4#4
  | .dstRange => 4#4
  | .overlap => 5#4
  | .busRead => 6#4
  | .busWrite => 6#4
  | .illegalOpcode => 7#4
  | .illegalReserved => 7#4
  | .commandWhileBusy => 8#4
  | .basisNotValid => 9#4
  | .cursorRow => 10#4
  | .cursorCol => 10#4
  | .aborted => 11#4

/-- The 4-bit DETAIL of a cause (R118). -/
def causeDetail : Cause → BitVec 4
  | .blockSizeNotPositive => 1#4
  | .blockSizeAboveRows => 2#4
  | .blockSizeAboveCols => 3#4
  | .blockSizeAboveMax => 4#4
  | .thresholdNegative => 1#4
  | .thresholdTooLarge => 2#4
  | .srcStrideSmall => 1#4
  | .dstStrideSmall => 2#4
  | .srcRange => 1#4
  | .dstRange => 2#4
  | .overlap => 0#4
  | .busRead => 1#4
  | .busWrite => 2#4
  | .illegalOpcode => 1#4
  | .illegalReserved => 2#4
  | .commandWhileBusy => 0#4
  | .basisNotValid => 0#4
  | .cursorRow => 1#4
  | .cursorCol => 2#4
  | .aborted => 0#4

/-- Whether a cause is a BUS_ERROR, the one kind that carries an address (R29, R120). -/
def isBusError (c : Cause) : Bool := causeKind c == 6#4

/-- The cause of an illegal command word (spec/30_encoding.md R65). -/
def illegalCause : IllegalWord → Cause
  | .unassignedOpcode => .illegalOpcode
  | .reservedNonzero => .illegalReserved

/-- One flag as a word. -/
def bit (b : Bool) : Word := if b then 1#32 else 0#32

/-- The ERR_CODE register as read (R28): [3:0] KIND, [7:4] DETAIL, [15:8] OPCODE. -/
def State.errCodeWord (s : State) : Word :=
  match s.errCode with
  | none => 0#32
  | some r =>
    (causeKind r.cause).zeroExtend 32 ||| ((causeDetail r.cause).zeroExtend 32 <<< 4) ||| (r.opcode.zeroExtend 32 <<< 8)

/-- STATUS.ERR (R27): ERR_CODE.KIND is not 0.  Not a storage bit. -/
def State.errFlag (s : State) : Bool := s.errCodeWord.extractLsb' 0 4 != 0#4

/-- The STATUS register as read (R27). -/
def State.statusWord (s : State) : Word :=
  bit s.ctl.busy ||| (bit s.errFlag <<< 1) ||| (bit s.errMulti <<< 2) ||| (bit s.basisValid <<< 3) |||
    (bit s.ctl.abortPending <<< 4) ||| (bit s.lockedWrite <<< 5) ||| (s.ctl.curCmd.zeroExtend 32 <<< 8)

/-- The two event or enable bits as a word (R38, R39). -/
def irqWord (b : IrqBits) : Word := bit b.done ||| (bit b.err <<< 1)

/-- The interrupt output `irq` (R45, R129): level-sensitive, a function of the state. -/
def State.irq (s : State) : Bool := (s.irqStatus.done && s.irqEnable.done) || (s.irqStatus.err && s.irqEnable.err)

/-- The bits of IRQ_STATUS after a write of `v` (R39, R110): write 1 to clear. -/
def clearEvents (b : IrqBits) (v : Word) : IrqBits := ⟨b.done && !v.getLsbD 0, b.err && !v.getLsbD 1⟩

/-- The BLK_GRID register as read (R35): {BC, BR} when 1 ≤ F ≤ N_MAX, and 0 otherwise. -/
def State.blkGridWord (s : State) : Word :=
  if 1 ≤ s.fInt ∧ s.fInt ≤ Config.nMax then BitVec.ofNat 32 (s.bc * 2 ^ 16 + s.br) else 0#32

/-- The SEL field of a value written to BUF_INDEX (R40). -/
def selOfBits (v : BitVec 2) : BufSel :=
  if v = 0#2 then .w else if v = 1#2 then .p else if v = 2#2 then .d else .reserved

/-- The SEL field as read (R40). -/
def selBits : BufSel → BitVec 2
  | .w => 0#2
  | .p => 1#2
  | .d => 2#2
  | .reserved => 3#2

/-- The BUF_INDEX register as read (R40): [7:0] COL, [15:8] ROW, [17:16] SEL, [31] AUTOINC. -/
def bufIndexWord (b : BufIndex) : Word :=
  b.col.zeroExtend 32 ||| (b.row.zeroExtend 32 <<< 8) ||| ((selBits b.sel).zeroExtend 32 <<< 16) ||| (bit b.autoinc <<< 31)

/-- BUF_INDEX after a write of `v` (R110): bits [30:18] are dropped. -/
def bufIndexOfWord (v : Word) : BufIndex :=
  ⟨v.extractLsb' 0 8, v.extractLsb' 8 8, selOfBits (v.extractLsb' 16 2), v.getLsbD 31⟩

/-- The CURSOR register as read (R36): [15:0] ROW, [31:16] COL. -/
def cursorWord (c : Cursor) : Word := c.col ++ c.row

/-- CURSOR after a write of `v` (R110). -/
def cursorOfWord (v : Word) : Cursor := ⟨v.extractLsb' 0 16, v.extractLsb' 16 16⟩

/-- The CAPS register (R25): [7:0] NMAX, [8] ROUND = 0, [9] ARITH = 0. -/
def capsWord : Word := BitVec.ofNat 32 Config.nMax

/-- The ID register (R24). -/
def idWord : Word := 0x44435401#32

end Sys2Proof.Machine
end

