-- ==== Sys2Proof/Machine/Float64.lean ====
section
/-! DEFINITION. binary64 arithmetic (spec/00_scope.md R11 to R13) and the reconstructor's rounding (R16): every operation
works on exact integers and rounds once at the end. -/

namespace Sys2Proof.Machine

/-- What a binary64 pattern stands for: a NaN, an infinity, or the number ± m · 2^(e − 1074). -/
inductive Num
  | nan
  | inf (neg : Bool)
  | fin (neg : Bool) (m e : Nat)
  deriving DecidableEq, Repr

/-- The canonical quiet NaN, which every operation with a NaN result gives (R11). -/
def canonicalNaN : F64 := 0x7FF8000000000000#64

/-- The pattern of +0.0. -/
def plusZero : F64 := 0x0000000000000000#64

/-- The magnitude bits of an infinity. -/
def infinityBits : Nat := 0x7FF0000000000000

/-- The pattern with the given sign and magnitude bits. -/
def withSign (neg : Bool) (magnitude : Nat) : F64 := BitVec.ofNat 64 (if neg then 2 ^ 63 + magnitude else magnitude)

/-- The sign bit. -/
def signOf (x : F64) : Bool := decide (2 ^ 63 ≤ x.toNat)

/-- The biased exponent field, bits [62:52]. -/
def exponentField (x : F64) : Nat := x.toNat / 2 ^ 52 % 2 ^ 11

/-- The fraction field, bits [51:0]. -/
def fractionField (x : F64) : Nat := x.toNat % 2 ^ 52

/-- What a pattern stands for: subnormals are kept, and a normal number has the hidden bit (R11). -/
def unpack (x : F64) : Num :=
  if exponentField x = 2047 then
    if fractionField x = 0 then .inf (signOf x) else .nan
  else if exponentField x = 0 then .fin (signOf x) (fractionField x) 0
  else .fin (signOf x) (fractionField x + 2 ^ 52) (exponentField x - 1)

/-- The integer nearest to m / 2^k, ties to the even integer (R11, R16). -/
def nearestEven (m k : Nat) : Nat :=
  if 2 * (m % 2 ^ k) < 2 ^ k then m / 2 ^ k
  else if 2 ^ k < 2 * (m % 2 ^ k) then m / 2 ^ k + 1
  else m / 2 ^ k + m / 2 ^ k % 2

/-- The exponent q of the last place, in the scale 2^(q − 2148), of the binary64 number nearest to m · 2^(e − 2148): 53
significant bits, or the subnormal last place 2^(−1074) where that is higher. -/
def lastPlace (m e : Nat) : Nat := max 1074 (e + (m.log2 + 1) - 53)

/-- The significand of m · 2^(e − 2148) rounded to the last place q. -/
def roundedSignificand (m e q : Nat) : Nat := if q ≤ e then m * 2 ^ (e - q) else nearestEven m (q - e)

/-- The binary64 value nearest to ± m · 2^(e − 2148), ties to even (R11): gradual underflow at the bottom, an infinity at
the top.  A significand rounded up to the next power of two carries into the exponent field by itself. -/
def roundNearest (neg : Bool) (m e : Nat) : F64 :=
  if m = 0 then withSign neg 0
  else withSign neg (min ((lastPlace m e - 1074) * 2 ^ 52 + roundedSignificand m e (lastPlace m e)) infinityBits)

/-- ± m as an integer. -/
def signedInt (neg : Bool) (m : Nat) : Int := if neg then -(m : Int) else m

/-- IEEE 754 addition, roundTiesToEven (R11).  An exact zero sum is +0.0 unless both operands are −0.0. -/
def add64 (a b : F64) : F64 :=
  match unpack a, unpack b with
  | .nan, _ => canonicalNaN
  | _, .nan => canonicalNaN
  | .inf s, .inf t => if s = t then withSign s infinityBits else canonicalNaN
  | .inf s, .fin _ _ _ => withSign s infinityBits
  | .fin _ _ _, .inf t => withSign t infinityBits
  | .fin s m e, .fin t n f =>
    let g := min e f
    let z := signedInt s (m * 2 ^ (e - g)) + signedInt t (n * 2 ^ (f - g))
    if z = 0 then withSign (s && t) 0 else roundNearest (decide (z < 0)) z.natAbs (g + 1074)

/-- IEEE 754 multiplication, roundTiesToEven (R11). -/
def mul64 (a b : F64) : F64 :=
  match unpack a, unpack b with
  | .nan, _ => canonicalNaN
  | _, .nan => canonicalNaN
  | .inf s, .inf t => withSign (s != t) infinityBits
  | .inf s, .fin t n _ => if n = 0 then canonicalNaN else withSign (s != t) infinityBits
  | .fin s m _, .inf t => if m = 0 then canonicalNaN else withSign (s != t) infinityBits
  | .fin s m e, .fin t n f => roundNearest (s != t) (m * n) (e + f)

/-- The dot product of n terms, accumulated from index 0 upward starting from +0.0 (R12). -/
def dot (n : Nat) (a b : Nat → F64) : F64 :=
  (List.range n).foldl (fun acc t => add64 acc (mul64 (a t) (b t))) plusZero

/-- The binary64 value equal to an 8-bit sample (R13). -/
def toF64 (v : Byte) : F64 := roundNearest false v.toNat 2148

/-- The integer nearest to ± m · 2^(e − 1074), ties to the even integer (R16). -/
def nearestInt (neg : Bool) (m e : Nat) : Int :=
  signedInt neg (if 1074 ≤ e then m * 2 ^ (e - 1074) else nearestEven m (1074 - e))

/-- The reconstructor on one element (R16): round to the nearest integer with ties to even, clamp to [0, 255], narrow. -/
def recon8 (x : F64) : Byte :=
  match unpack x with
  | .nan => 0#8
  | .inf neg => if neg then 0#8 else 255#8
  | .fin neg m e => BitVec.ofNat 8 (min 255 (max 0 (nearestInt neg m e))).toNat

end Sys2Proof.Machine
end

