-- ==== Sys2Proof/Machine/Ops.lean ====
section
/-! DEFINITION. The shared operations: memory, working buffers, the DMA port, recording an error and ending a command, the
work step around every non-instant command, reset. -/

namespace Sys2Proof.Machine

/-! ### The shared byte memory (spec/00_scope.md R9) -/

/-- What a byte of memory that no cell lists reads as.  DESIGN CHOICE: notes/assumptions/4.md. -/
def Memory.unlisted : Byte := 0#8

/-- The byte at an address. -/
def Memory.read : Memory → Nat → Byte
  | [], _ => Memory.unlisted
  | (k, v) :: m, a => if a = k then v else Memory.read m a

/-- The cell of a byte in front of cells with higher addresses: no cell when the byte is what an unlisted address reads as. -/
def Memory.cons (a : Nat) (v : Byte) (m : Memory) : Memory := if v = Memory.unlisted then m else (a, v) :: m

/-- The memory with the byte at an address replaced; the canonical form is kept. -/
def Memory.write : Memory → Nat → Byte → Memory
  | [], a, v => Memory.cons a v []
  | (k, u) :: m, a, v =>
    if a < k then Memory.cons a v ((k, u) :: m)
    else if a = k then Memory.cons a v m
    else (k, u) :: Memory.write m a v

/-- The canonical form from a lower bound on: addresses strictly rising, no cell that holds what an unlisted address reads as. -/
def Memory.wfFrom : Nat → Memory → Bool
  | _, [] => true
  | n, (k, v) :: m => decide (n ≤ k) && decide (v ≠ Memory.unlisted) && Memory.wfFrom (k + 1) m

/-- The canonical form of memory. -/
def Memory.wf (m : Memory) : Bool := Memory.wfFrom 0 m

/-! ### The working buffers (spec/10_state.md R42; spec/00_scope.md R18) -/

/-- Element [i][j] of a buffer.  Every rule reads only elements with both indices below N_MAX; outside it the value is 0. -/
def Mat.elem {n : Nat} (m : Mat (BitVec n)) (i j : Nat) : BitVec n :=
  if h : i < Config.nMax ∧ j < Config.nMax then (m[i]'h.1)[j]'h.2 else 0#n

/-- The buffer with the elements of the F × F block given by `g`, and every other element as it was (R18). -/
def Mat.setBlock {n : Nat} (f : Nat) (g : Nat → Nat → BitVec n) (m : Mat (BitVec n)) : Mat (BitVec n) :=
  Mat.tab fun i j => if i < f ∧ j < f then g i j else m.elem i j

/-- The buffer with element [i][j] replaced. -/
def Mat.setElem {n : Nat} (m : Mat (BitVec n)) (i j : Nat) (v : BitVec n) : Mat (BitVec n) :=
  Mat.tab fun a b => if a = i ∧ b = j then v else m.elem a b

/-- The buffer whose F × F block has its first elements, in row-major order, replaced by the values of a list: the loop of
spec/43_block_io.md R89 up to the point where the values end. -/
def Mat.fillBlock {n : Nat} (f : Nat) (vs : List (BitVec n)) (m : Mat (BitVec n)) : Mat (BitVec n) :=
  Mat.tab fun i j => if i < f ∧ j < f then (vs[i * f + j]?).getD (m.elem i j) else m.elem i j

/-! ### The DMA port (spec/00_scope.md R9; spec/20_memory.md R54) -/

/-- `busError(a, kind)` (R3): whether a DMA access gets an error response. -/
def State.busError (s : State) (kind : AccessKind) (a : Nat) : Bool :=
  s.busErrors.any fun r => r.kind == kind && decide (r.first ≤ a) && decide (a ≤ r.last)

/-- Why a run of DMA accesses ends before its last. -/
inductive DmaStop
  /-- The access at this address got an error response. -/
  | busError (a : Nat)
  /-- The address does not exist. -/
  | outside
  deriving DecidableEq, Repr

/-- Whether one DMA access fails: the address must exist, and the platform must not answer with an error. -/
def State.dmaStop (s : State) (kind : AccessKind) (a : Nat) : Option DmaStop :=
  if 2 ^ Config.addrW ≤ a then some .outside
  else if s.busError kind a then some (.busError a)
  else none

/-- DMA byte reads at the addresses of a list, in order, up to the first that fails: the bytes read, and the failure. -/
def State.readBytes (s : State) : List Nat → List Byte × Option DmaStop
  | [] => ([], none)
  | a :: as =>
    match s.dmaStop .read a with
    | some e => ([], some e)
    | none => (s.mem.read a :: (s.readBytes as).1, (s.readBytes as).2)

/-- DMA byte writes of a list of (address, byte), in order, up to the first that fails: the memory left, and the failure. -/
def State.writeBytes (s : State) : List (Nat × Byte) → Memory → Memory × Option DmaStop
  | [], m => (m, none)
  | (a, v) :: as, m =>
    match s.dmaStop .write a with
    | some e => (m, some e)
    | none => s.writeBytes as (m.write a v)

/-! ### Errors: recording, the error end, and clearing (spec/60_exceptions.md R120, R121, R131) -/

/-- An error a command raises (R10): the cause, and for BUS_ERROR the failing address (0 for every other kind). -/
structure Raised where
  cause : Cause
  addr : Nat
  deriving DecidableEq, Repr

/-- An error that carries no address. -/
def Raised.of (c : Cause) : Raised := ⟨c, 0⟩

/-- `record` (R120): the first error is kept, a later one sets ERR_MULTI, and the ERR event is set in both cases. -/
def record (c : Cause) (opcode : Byte) (addr : Nat) (s : State) : State :=
  match s.errCode with
  | none =>
    { s with
      errCode := some ⟨c, opcode⟩
      errAddr := BitVec.ofNat 32 addr
      irqStatus := { s.irqStatus with err := true } }
  | some _ =>
    { s with
      errMulti := true
      irqStatus := { s.irqStatus with err := true } }

/-- The error end of a command in flight (R120): OPCODE is CUR_CMD, the address is kept only for BUS_ERROR, and the engine is
idle afterwards.  This is the engine's only analogue of taking an exception (R130). -/
def errorEnd (e : Raised) (s : State) : State :=
  { record e.cause s.ctl.curCmd (if isBusError e.cause then e.addr else 0) s with ctl := Ctl.idle }

/-- `signal_error` (R121): an error of the command-issue path, which leaves the engine control state as it is. -/
def signalError (c : Cause) (opcode : Byte) (s : State) : State := record c opcode 0 s

/-- The acknowledgement of the recorded error (R104, R131), the engine's only analogue of a return from an exception.
LOCKED_WRITE is cleared whether an error is recorded or not, as the pseudocode of R104 says.  DEDUCED: notes/assumptions/21.md. -/
def clearError (s : State) : State :=
  { s with
    errCode := none
    errAddr := 0#32
    errMulti := false
    lockedWrite := false }

/-! ### Accepting, completing and running a command (spec/46_host_access.md R108; spec/60_exceptions.md R122) -/

/-- `accept` (R108): BUSY, CUR_CMD and PHASE are set and nothing else of the engine changes; the model notes what `Mem` holds
before the command (notes/assumptions/7.md). -/
def accept (i : Instr) (s : State) : State :=
  { s with
    ctl := { s.ctl with busy := true, curCmd := opcodeOf i, phase := .validate }
    memBefore := s.mem }

/-- `complete` (R122). -/
def complete (s : State) : State :=
  { s with
    ctl := Ctl.idle
    irqStatus := { s.irqStatus with done := true } }

/-- How the body of a work step ends. -/
inductive Work
  /-- The command is finished: `complete()` follows. -/
  | done (s : State)
  /-- The command goes on with another work step (RUN). -/
  | more (s : State)
  /-- The command raises an error; `s` is the state it has reached (R10). -/
  | raised (e : Raised) (s : State)
  /-- The machine stops. -/
  | stopped (f : Fault)

/-- One engine work step (spec/10_state.md R44; spec/60_exceptions.md R119, R126, R128): the abort test, then the checks, then
the body. -/
def workStep (checks : State → Option Cause) (body : State → Work) (s : State) : Host.Outcome State Fault Refusal :=
  if s.ctl.abortPending then
    .next (errorEnd (Raised.of .aborted) { s with ctl := { s.ctl with abortPending := false } })
  else
    match checks s with
    | some c => .next (errorEnd (Raised.of c) s)
    | none =>
      match body s with
      | .done t => .next (complete t)
      | .more t => .next t
      | .raised e t => .next (errorEnd e t)
      | .stopped f => .fault f

/-- The body that needs F to fit the buffers.  After the checks of the command it always does (R72, R126); a state no run
reaches stops. -/
def withBlock (body : State → Work) (s : State) : Work :=
  if Config.nMax < s.f then .stopped .blockExceedsBuffers else body s

/-! ### Reset (spec/70_reset_and_hazards.md R140) -/

/-- `reset_engine` (R140): every register and hidden field takes its reset value, the buffers become unspecified (fresh free
values), a command in flight is discarded, and `Mem` is not touched.  The platform and what the host does next are no part of
the engine. -/
def resetEngine (s : State) : State :=
  { s with
    ctl := Ctl.idle
    errMulti := false
    basisValid := false
    lockedWrite := false
    errCode := none
    errAddr := 0#32
    cfg := ⟨0#16, 0#16, 0#16, 0#16, 0#32, 0#32, 0#32, 0#32⟩
    cursor := ⟨0#16, 0#16⟩
    bufIndex := ⟨0#8, 0#8, .w, false⟩
    blocksDone := 0#32
    irqEnable := ⟨false, false⟩
    irqStatus := ⟨false, false⟩
    whold := 0#32
    rhold := 0#32
    p := Mat.tab (Config.unspecifiedP s.draw)
    w := Mat.tab (Config.unspecifiedW s.draw)
    d := Mat.tab (Config.unspecifiedD s.draw)
    draw := s.draw + 1 }

end Sys2Proof.Machine
end

