-- ==== Sys2Proof/Machine/Control.lean ====
section
/-! DEFINITION. The instant commands (spec/45_control.md): each takes effect within the host step that writes its word, in
either BUSY state, and sets no completion event. -/

namespace Sys2Proof.Machine

/-- NOP (R103) does nothing. -/
def execNop (s : State) : Host.Outcome State Fault Refusal := .next s

/-- CLEAR_ERR (R104) clears ERR_CODE, ERR_ADDR, ERR_MULTI and LOCKED_WRITE; IRQ_STATUS stays.  Without a recorded error it
still clears LOCKED_WRITE (notes/assumptions/21.md). -/
def execClearErr (s : State) : Host.Outcome State Fault Refusal := .next (clearError s)

/-- ABORT (R105) asks the command in flight to end at its next work step; without one it does nothing. -/
def execAbort (s : State) : Host.Outcome State Fault Refusal :=
  .next (if s.ctl.busy then { s with ctl := { s.ctl with abortPending := true } } else s)

/-- SOFT_RESET (R106) is `reset_engine()` in full. -/
def execSoftReset (s : State) : Host.Outcome State Fault Refusal := .next (resetEngine s)

end Sys2Proof.Machine
end

