-- ==== Sys2Proof/Machine/Checks.lean ====
section
/-! DEFINITION. The check functions (spec/60_exceptions.md R125) and the checks each command runs, in order (R126). -/

namespace Sys2Proof.Machine

/-- The checks of a list, in order: the first that fails is the one raised. -/
def allOf (checks : List (State → Option Cause)) (s : State) : Option Cause := checks.findSome? fun c => c s

/-- `check_f_size` (R125). -/
def checkFSize (s : State) : Option Cause :=
  if s.fInt ≤ 0 then some .blockSizeNotPositive
  else if (Config.nMax : Int) < s.fInt then some .blockSizeAboveMax
  else none

/-- `check_f_full` (R125). -/
def checkFFull (s : State) : Option Cause :=
  if s.fInt ≤ 0 then some .blockSizeNotPositive
  else if (s.imgR : Int) < s.fInt then some .blockSizeAboveRows
  else if (s.imgC : Int) < s.fInt then some .blockSizeAboveCols
  else if (Config.nMax : Int) < s.fInt then some .blockSizeAboveMax
  else none

/-- `check_threshold` (R125). -/
def checkThreshold (s : State) : Option Cause :=
  if s.dInt < 0 then some .thresholdNegative
  else if 2 * s.fInt - 2 < s.dInt then some .thresholdTooLarge
  else none

/-- `check_src_stride` (R125). -/
def checkSrcStride (s : State) : Option Cause :=
  if s.cfg.srcStride.toNat < s.imgC then some .srcStrideSmall else none

/-- `check_dst_stride` (R125): the stride need only cover the truncated width. -/
def checkDstStride (s : State) : Option Cause :=
  if s.cfg.dstStride.toNat < s.ct then some .dstStrideSmall else none

/-- `check_src_range` (R125). -/
def checkSrcRange (s : State) : Option Cause :=
  if 2 ^ Config.addrW - 1 < s.srcEnd then some .srcRange else none

/-- `check_dst_range` (R125). -/
def checkDstRange (s : State) : Option Cause :=
  if 2 ^ Config.addrW - 1 < s.dstEnd then some .dstRange else none

/-- The in-place form (R125, spec/44_pipeline.md R102). -/
def State.inPlace (s : State) : Bool := s.cfg.dstBase == s.cfg.srcBase && s.cfg.dstStride == s.cfg.srcStride

/-- `check_overlap` (R125). -/
def checkOverlap (s : State) : Option Cause :=
  if s.inPlace = false ∧ s.cfg.srcBase.toNat ≤ s.dstEnd ∧ s.cfg.dstBase.toNat ≤ s.srcEnd then some .overlap else none

/-- `check_cursor` (R125). -/
def checkCursor (s : State) : Option Cause :=
  if s.br ≤ s.cursor.row.toNat then some .cursorRow
  else if s.bc ≤ s.cursor.col.toNat then some .cursorCol
  else none

/-- `check_basis` (R125). -/
def checkBasis (s : State) : Option Cause := if s.basisValid then none else some .basisNotValid

/-- `validate_all` (spec/44_pipeline.md R94): the checks of VALIDATE and of RUN step 0. -/
def validateAll : State → Option Cause :=
  allOf [checkFFull, checkThreshold, checkSrcStride, checkDstStride, checkSrcRange, checkDstRange, checkOverlap]

/-- The checks of LOAD_BLOCK (R126). -/
def loadChecks : State → Option Cause := allOf [checkFFull, checkSrcStride, checkSrcRange, checkCursor]

/-- The checks of STORE_BLOCK (R126). -/
def storeChecks : State → Option Cause := allOf [checkFFull, checkDstStride, checkDstRange, checkCursor]

/-- The checks of CURSOR_NEXT (R126). -/
def cursorChecks : State → Option Cause := allOf [checkFFull, checkCursor]

/-- The checks of MASK (R126). -/
def maskChecks : State → Option Cause := allOf [checkFSize, checkThreshold]

/-- A work step that runs no check (R97). -/
def noChecks : State → Option Cause := fun _ => none

end Sys2Proof.Machine
end

