-- ==== Sys2Proof/Machine/BlockIO.lean ====
section
/-! DEFINITION. Block decompose and reassemble (spec/43_block_io.md). -/

namespace Sys2Proof.Machine

/-- The source addresses of the block at CURSOR, in the order they are read (R89, spec/20_memory.md R54). -/
def State.srcAddrs (s : State) : List Nat := (blockPairs s.f).map fun e => s.srcElem e.1 e.2

/-- The output addresses of the block at CURSOR, each with its sample of P, in the order they are written (R90). -/
def State.dstCells (s : State) : List (Nat × Byte) :=
  (blockPairs s.f).map fun e => (s.dstElem e.1 e.2, s.p.elem e.1 e.2)

/-- The loop of LOAD_BLOCK (R89): P and W take the bytes read, up to the first read that fails. -/
def loadBlockOn (s : State) : Work :=
  let r := s.readBytes s.srcAddrs
  let t := { s with
    p := s.p.fillBlock s.f r.1
    w := s.w.fillBlock s.f (r.1.map toF64) }
  match r.2 with
  | none => .done t
  | some (.busError a) => .raised ⟨.busRead, a⟩ t
  | some .outside => .stopped .dmaAddressOutsideMem

/-- The loop of STORE_BLOCK (R90): the samples of P are written up to the first write that fails. -/
def storeBlockOn (s : State) : Work :=
  let r := s.writeBytes s.dstCells s.mem
  let t := { s with mem := r.1 }
  match r.2 with
  | none => .done t
  | some (.busError a) => .raised ⟨.busWrite, a⟩ t
  | some .outside => .stopped .dmaAddressOutsideMem

/-- LOAD_BLOCK (R89). -/
def execLoadBlock (s : State) : Host.Outcome State Fault Refusal := workStep loadChecks loadBlockOn s

/-- STORE_BLOCK (R90). -/
def execStoreBlock (s : State) : Host.Outcome State Fault Refusal := workStep storeChecks storeBlockOn s

/-- CURSOR_NEXT (R91). -/
def execCursorNext (s : State) : Host.Outcome State Fault Refusal :=
  workStep cursorChecks (fun t => .done { t with cursor := t.nextCursor }) s

end Sys2Proof.Machine
end

