-- ==== Sys2Proof/Machine/Basis.lean ====
section
/-! DEFINITION. The transform basis (spec/00_scope.md R15), computed in exact integer arithmetic: each element is the
correctly rounded value of the real formula.  notes/assumptions/3.md says why the rounding is right. -/

namespace Sys2Proof.Machine

/-- Newton's iteration for the integer square root, from a start that is not below it. -/
def isqrtLoop : Nat → Nat → Nat → Nat
  | 0, _, g => g
  | fuel + 1, n, g => if (g + n / g) / 2 < g then isqrtLoop fuel n ((g + n / g) / 2) else g

/-- The integer square root, the largest r with r · r ≤ n. -/
def isqrt (n : Nat) : Nat := if n = 0 then 0 else isqrtLoop (n.log2 + 2) n (2 ^ (n.log2 / 2 + 1))

/-- RN64(√(a / b)) for b > 0: 120 fraction bits of the root, and one more bit that says whether the root goes on below them. -/
def sqrtNearest (a b : Nat) : F64 :=
  let r := isqrt (a * 2 ^ 240 / b)
  roundNearest false (2 * r + if r * r * b = a * 2 ^ 240 then 0 else 1) (2148 - 121)

/-- π · 10^50, rounded down: the 51 leading decimal digits of π. -/
def piScaled : Nat := 314159265358979323846264338327950288419716939937510

/-- k steps of Horner's rule for the series of cos(√(a / b)), as a fraction (numerator, denominator): each step replaces r by
1 − (a / b) · r / ((2k − 1)(2k)). -/
def cosHorner (a b : Nat) : Nat → Nat × Nat → Nat × Nat
  | 0, r => r
  | k + 1, r =>
    let den := (2 * k + 1) * (2 * k + 2) * b * r.2
    cosHorner a b k (den - a * r.1, den)

/-- cos(π·m / (2n)) for m < n, as a fraction: 20 terms of the series after the constant term. -/
def cosFraction (n m : Nat) : Nat × Nat := cosHorner ((m * piScaled) ^ 2) ((2 * n * 10 ^ 50) ^ 2) 20 (1, 1)

/-- RN64(√(2/n) · cos(π·m / (2n))) for m ≤ n: an exact zero is +0.0. -/
def basisMagnitude (n m : Nat) : F64 :=
  if m = n then plusZero
  else
    let c := cosFraction n m
    sqrtNearest (2 * c.1 ^ 2) (n * c.2 ^ 2)

/-- The angle l·(2j + 1) in units of π / (2n), brought into the half circle 0 .. 2n by the period and the symmetry of the cosine. -/
def halfAngle (n l j : Nat) : Nat :=
  let m := l * (2 * j + 1) % (4 * n)
  if 2 * n < m then 4 * n - m else m

/-- `basis(n)[l][j]` (R15): RN64(α_l · cos(l·π·(2j + 1) / (2n))), α_0 = 1/√n and α_l = √(2/n) for l ≥ 1. -/
def basis (n l j : Nat) : F64 :=
  if l = 0 then sqrtNearest 1 n
  else if n < halfAngle n l j then
    withSign true (basisMagnitude n (2 * n - halfAngle n l j)).toNat
  else basisMagnitude n (halfAngle n l j)

end Sys2Proof.Machine
end

