-- ==== Sys2Proof/Machine/BasisForward.lean ====
section
/-! DEFINITION. Basis construction and the forward transform (spec/40_basis_forward.md). -/

namespace Sys2Proof.Machine

/-- W ← A·W on the F × F block (R74): every new element is computed from the old contents (R72). -/
def colPass (f : Nat) (a : Nat → Nat → F64) (w : Mat F64) : Mat F64 :=
  w.setBlock f fun i j => dot f (fun t => a i t) (fun t => w.elem t j)

/-- W ← W·A on the F × F block (R75): every new element is computed from the old contents (R72). -/
def rowPass (f : Nat) (a : Nat → Nat → F64) (w : Mat F64) : Mat F64 :=
  w.setBlock f fun i j => dot f (fun t => w.elem i t) (fun t => a t j)

/-- The body of BUILD_BASIS (R73), and of RUN step 0 (spec/44_pipeline.md R96): D ← basis(F), BASIS_VALID ← 1. -/
def buildBasisOn (s : State) : State :=
  { s with
    d := s.d.setBlock s.f (basis s.f)
    basisValid := true }

/-- The body of FDCT_COLS (R74): W ← D·W. -/
def fdctColsOn (s : State) : State := { s with w := colPass s.f (fun k i => s.d.elem k i) s.w }

/-- The body of FDCT_ROWS (R75): W ← W·Dᵗ. -/
def fdctRowsOn (s : State) : State := { s with w := rowPass s.f (fun j l => s.d.elem l j) s.w }

/-- The body of FDCT (R76): the column pass, rounded to W, and then the row pass. -/
def fdctOn (s : State) : State := fdctRowsOn (fdctColsOn s)

/-- BUILD_BASIS (R73). -/
def execBuildBasis (s : State) : Host.Outcome State Fault Refusal :=
  workStep checkFSize (fun t => .done (buildBasisOn t)) s

/-- FDCT_COLS (R74). -/
def execFdctCols (s : State) : Host.Outcome State Fault Refusal :=
  workStep checkBasis (withBlock fun t => .done (fdctColsOn t)) s

/-- FDCT_ROWS (R75). -/
def execFdctRows (s : State) : Host.Outcome State Fault Refusal :=
  workStep checkBasis (withBlock fun t => .done (fdctRowsOn t)) s

/-- FDCT (R76). -/
def execFdct (s : State) : Host.Outcome State Fault Refusal :=
  workStep checkBasis (withBlock fun t => .done (fdctOn t)) s

end Sys2Proof.Machine
end

