-- ==== Sys2Proof/Machine/InverseRecon.lean ====
section
/-! DEFINITION. The inverse transform and the reconstructor (spec/42_inverse_recon.md). -/

namespace Sys2Proof.Machine

/-- The body of IDCT_COLS (R81): W ← Dᵗ·W. -/
def idctColsOn (s : State) : State := { s with w := colPass s.f (fun i k => s.d.elem k i) s.w }

/-- The body of IDCT_ROWS (R82): W ← W·D. -/
def idctRowsOn (s : State) : State := { s with w := rowPass s.f (fun k j => s.d.elem k j) s.w }

/-- The body of IDCT (R83): the column pass, rounded to W, and then the row pass. -/
def idctOn (s : State) : State := idctRowsOn (idctColsOn s)

/-- The body of RECON (R85): P ← recon8 of W, element by element. -/
def reconOn (s : State) : State := { s with p := s.p.setBlock s.f fun i j => recon8 (s.w.elem i j) }

/-- IDCT_COLS (R81). -/
def execIdctCols (s : State) : Host.Outcome State Fault Refusal :=
  workStep checkBasis (withBlock fun t => .done (idctColsOn t)) s

/-- IDCT_ROWS (R82). -/
def execIdctRows (s : State) : Host.Outcome State Fault Refusal :=
  workStep checkBasis (withBlock fun t => .done (idctRowsOn t)) s

/-- IDCT (R83). -/
def execIdct (s : State) : Host.Outcome State Fault Refusal :=
  workStep checkBasis (withBlock fun t => .done (idctOn t)) s

/-- RECON (R85). -/
def execRecon (s : State) : Host.Outcome State Fault Refusal :=
  workStep checkFSize (fun t => .done (reconOn t)) s

end Sys2Proof.Machine
end

