-- ==== Sys2Proof/Machine/Mask.lean ====
section
/-! DEFINITION. The frequency mask (spec/41_mask.md). -/

namespace Sys2Proof.Machine

/-- The body of MASK (R79): a coefficient with k + l ≥ d becomes +0.0, and every other keeps its bits. -/
def maskOn (s : State) : State :=
  { s with
    w := s.w.setBlock s.f fun k l => if s.dInt ≤ (k : Int) + (l : Int) then plusZero else s.w.elem k l }

/-- MASK (R79). -/
def execMask (s : State) : Host.Outcome State Fault Refusal :=
  workStep maskChecks (fun t => .done (maskOn t)) s

end Sys2Proof.Machine
end

