-- ==== Sys2Proof/Machine/Pipeline.lean ====
section
/-! DEFINITION. Validation and the compression pipeline (spec/44_pipeline.md). -/

namespace Sys2Proof.Machine

/-- One piece of a work step after another: an error or a stop of the first ends both. -/
def Work.andThen (first : Work) (rest : State → Work) : Work :=
  match first with
  | .done s => rest s
  | .more s => .more s
  | .raised e s => .raised e s
  | .stopped f => .stopped f

/-- RUN step 0 after its checks (R96). -/
def runStartOn (s : State) : State :=
  { buildBasisOn s with
    cursor := ⟨0#16, 0#16⟩
    blocksDone := 0#32
    ctl := { s.ctl with phase := .blocks } }

/-- The arithmetic of a RUN block step between its reads and its writes (R97): FDCT, MASK, IDCT, RECON. -/
def pipelineOn (s : State) : State := reconOn (idctOn (maskOn (fdctOn s)))

/-- The end of a RUN block step (R97): the block is counted, CURSOR advances, and the command is finished after the last block. -/
def runCountOn (s : State) : Work :=
  let t := { s with
    blocksDone := s.blocksDone + 1#32
    cursor := s.nextCursor }
  if t.blocksDone.toNat = t.nb then .done t else .more t

/-- A RUN block step (R97), for the block at CURSOR. -/
def runBlockOn (s : State) : Work :=
  (loadBlockOn s).andThen fun t => (storeBlockOn (pipelineOn t)).andThen runCountOn

/-- VALIDATE (R94). -/
def execValidate (s : State) : Host.Outcome State Fault Refusal := workStep validateAll (fun t => .done t) s

/-- RUN (R95): the work step that PHASE names. -/
def execRun (s : State) : Host.Outcome State Fault Refusal :=
  match s.ctl.phase with
  | .validate => workStep validateAll (fun t => .more (runStartOn t)) s
  | .blocks => workStep noChecks (withBlock runBlockOn) s

end Sys2Proof.Machine
end

