-- ==== Sys2Proof/Machine/Dispatch.lean ====
section
/-! DEFINITION. The meaning of every command: an instant command's effect (spec/45_control.md), and one work step of a
non-instant command (spec/10_state.md R44). -/

namespace Sys2Proof.Machine

/-- What a command does: an instant command at once, a non-instant command in one work step of the engine (R44, R66). -/
def exec (i : Instr) (s : State) : Host.Outcome State Fault Refusal :=
  match i with
  | .nop => Sys2Proof.Machine.execNop s
  | .validate => Sys2Proof.Machine.execValidate s
  | .buildBasis => Sys2Proof.Machine.execBuildBasis s
  | .run => Sys2Proof.Machine.execRun s
  | .loadBlock => Sys2Proof.Machine.execLoadBlock s
  | .storeBlock => Sys2Proof.Machine.execStoreBlock s
  | .cursorNext => Sys2Proof.Machine.execCursorNext s
  | .fdctCols => Sys2Proof.Machine.execFdctCols s
  | .fdctRows => Sys2Proof.Machine.execFdctRows s
  | .fdct => Sys2Proof.Machine.execFdct s
  | .idctCols => Sys2Proof.Machine.execIdctCols s
  | .idctRows => Sys2Proof.Machine.execIdctRows s
  | .idct => Sys2Proof.Machine.execIdct s
  | .mask => Sys2Proof.Machine.execMask s
  | .recon => Sys2Proof.Machine.execRecon s
  | .clearErr => Sys2Proof.Machine.execClearErr s
  | .abort => Sys2Proof.Machine.execAbort s
  | .softReset => Sys2Proof.Machine.execSoftReset s

end Sys2Proof.Machine
end

