-- ==== Sys2Proof/Machine/HostAccess.lean ====
section
/-! DEFINITION. What the host does to the engine (spec/46_host_access.md; spec/20_memory.md R50 to R59): register accesses,
command issue, the buffer window, and the host's own accesses to `Mem`.  Offsets are relative to ENGINE_BASE
(notes/assumptions/6.md). -/

namespace Sys2Proof.Machine

/-- The registers of the window (spec/10_state.md R22). -/
inductive Reg
  | id
  | caps
  | cmd
  | status
  | errCode
  | errAddr
  | imgRows
  | imgCols
  | blockSize
  | thresh
  | srcBase
  | srcStride
  | dstBase
  | dstStride
  | blkGrid
  | cursor
  | blocksDone
  | irqEnable
  | irqStatus
  | bufIndex
  | bufDataLo
  | bufDataHi
  /-- The reserved offsets 0x58 to 0xFC (R23). -/
  | reserved
  deriving DecidableEq, Repr

/-- The register map (R22). -/
def regMap : List (BitVec 8 × Reg) :=
  [(0x00#8, .id), (0x04#8, .caps), (0x08#8, .cmd), (0x0C#8, .status), (0x10#8, .errCode), (0x14#8, .errAddr),
   (0x18#8, .imgRows), (0x1C#8, .imgCols), (0x20#8, .blockSize), (0x24#8, .thresh), (0x28#8, .srcBase),
   (0x2C#8, .srcStride), (0x30#8, .dstBase), (0x34#8, .dstStride), (0x38#8, .blkGrid), (0x3C#8, .cursor),
   (0x40#8, .blocksDone), (0x44#8, .irqEnable), (0x48#8, .irqStatus), (0x4C#8, .bufIndex), (0x50#8, .bufDataLo),
   (0x54#8, .bufDataHi)]

/-- The register at a word offset (R22, R23). -/
def regAt (offset : BitVec 8) : Reg := ((regMap.find? fun r => r.1 == offset).map (·.2)).getD .reserved

/-- The offset of a register (R22); the first reserved one for the reserved slots. -/
def offsetOf (r : Reg) : BitVec 8 := ((regMap.find? fun e => e.2 == r).map (·.1)).getD 0x58#8

/-- The registers that are locked while BUSY = 1 (R112). -/
def isLocked : Reg → Bool
  | .imgRows => true
  | .imgCols => true
  | .blockSize => true
  | .thresh => true
  | .srcBase => true
  | .srcStride => true
  | .dstBase => true
  | .dstStride => true
  | .cursor => true
  | .bufIndex => true
  | .bufDataLo => true
  | .bufDataHi => true
  | .id => false
  | .caps => false
  | .cmd => false
  | .status => false
  | .errCode => false
  | .errAddr => false
  | .blkGrid => false
  | .blocksDone => false
  | .irqEnable => false
  | .irqStatus => false
  | .reserved => false

/-! ### The buffer window (R113 to R117) -/

/-- Whether BUF_INDEX selects an element of the buffers (R113). -/
def State.windowValid (s : State) : Bool :=
  decide (s.bufIndex.row.toNat < Config.nMax ∧ s.bufIndex.col.toNat < Config.nMax)

/-- `Fe` (R113): F when it fits the buffers, and N_MAX otherwise. -/
def State.windowSide (s : State) : Nat :=
  if 1 ≤ s.fInt ∧ s.fInt ≤ Config.nMax then s.f else Config.nMax

/-- The index after one auto-increment, (ROW, COL) (R113). -/
def nextIndex (side i j : Nat) : Nat × Nat :=
  let i' := if side ≤ j + 1 then i + 1 else i
  let j' := if side ≤ j + 1 then 0 else j + 1
  (if side ≤ i' then 0 else i', j')

/-- `autoinc()` (R113). -/
def autoinc (s : State) : State :=
  if s.bufIndex.autoinc then
    let n := nextIndex s.windowSide s.bufIndex.row.toNat s.bufIndex.col.toNat
    { s with bufIndex := { s.bufIndex with row := BitVec.ofNat 8 n.1, col := BitVec.ofNat 8 n.2 } }
  else s

/-- A write of BUF_DATA_LO with BUSY = 0 (R114). -/
def writeBufLo (v : Word) (s : State) : State :=
  match s.bufIndex.sel with
  | .p =>
    autoinc (if s.windowValid then
      { s with p := s.p.setElem s.bufIndex.row.toNat s.bufIndex.col.toNat (v.extractLsb' 0 8) } else s)
  | .w => { s with whold := v }
  | .d => { s with whold := v }
  | .reserved => { s with whold := v }

/-- A write of BUF_DATA_HI with BUSY = 0 (R114, R117): only a W element is committed. -/
def writeBufHi (v : Word) (s : State) : State :=
  match s.bufIndex.sel with
  | .w =>
    autoinc (if s.windowValid then
      { s with w := s.w.setElem s.bufIndex.row.toNat s.bufIndex.col.toNat (v ++ s.whold) } else s)
  | .p => s
  | .d => s
  | .reserved => s

/-- The 64-bit element that BUF_INDEX selects in W or D, 0 outside the buffers (R115). -/
def windowElem (m : Mat F64) (s : State) : F64 :=
  if s.windowValid then m.elem s.bufIndex.row.toNat s.bufIndex.col.toNat else 0#64

/-- A read of BUF_DATA_LO (R115): the value, and the state after. -/
def readBufLo (s : State) : Word × State :=
  if s.ctl.busy then (0#32, s)
  else
    match s.bufIndex.sel with
    | .w => ((windowElem s.w s).extractLsb' 0 32, { s with rhold := (windowElem s.w s).extractLsb' 32 32 })
    | .d => ((windowElem s.d s).extractLsb' 0 32, { s with rhold := (windowElem s.d s).extractLsb' 32 32 })
    | .p =>
      (if s.windowValid then (s.p.elem s.bufIndex.row.toNat s.bufIndex.col.toNat).zeroExtend 32 else 0#32, autoinc s)
    | .reserved => (0#32, s)

/-- A read of BUF_DATA_HI (R115): the value, and the state after. -/
def readBufHi (s : State) : Word × State :=
  if s.ctl.busy then (0#32, s)
  else
    match s.bufIndex.sel with
    | .w => (s.rhold, autoinc s)
    | .d => (s.rhold, autoinc s)
    | .p => (0#32, s)
    | .reserved => (0#32, s)

/-! ### Register reads and writes (R109 to R112) -/

/-- A host read of a register (R109): the value, and the state after, which differs only for the buffer window. -/
def readReg (r : Reg) (s : State) : Word × State :=
  match r with
  | .id => (idWord, s)
  | .caps => (capsWord, s)
  | .cmd => (0#32, s)
  | .status => (s.statusWord, s)
  | .errCode => (s.errCodeWord, s)
  | .errAddr => (s.errAddr, s)
  | .imgRows => (s.cfg.imgRows.zeroExtend 32, s)
  | .imgCols => (s.cfg.imgCols.zeroExtend 32, s)
  | .blockSize => (s.cfg.blockSize.zeroExtend 32, s)
  | .thresh => (s.cfg.thresh.zeroExtend 32, s)
  | .srcBase => (s.cfg.srcBase, s)
  | .srcStride => (s.cfg.srcStride, s)
  | .dstBase => (s.cfg.dstBase, s)
  | .dstStride => (s.cfg.dstStride, s)
  | .blkGrid => (s.blkGridWord, s)
  | .cursor => (cursorWord s.cursor, s)
  | .blocksDone => (s.blocksDone, s)
  | .irqEnable => (irqWord s.irqEnable, s)
  | .irqStatus => (irqWord s.irqStatus, s)
  | .bufIndex => (bufIndexWord s.bufIndex, s)
  | .bufDataLo => readBufLo s
  | .bufDataHi => readBufHi s
  | .reserved => (0#32, s)

/-- A host write of a register other than CMD that is not ignored (R110, R111). -/
def storeReg (r : Reg) (v : Word) (s : State) : State :=
  match r with
  | .id => s
  | .caps => s
  | .cmd => s
  | .status => s
  | .errCode => s
  | .errAddr => s
  | .imgRows => { s with cfg := { s.cfg with imgRows := v.extractLsb' 0 16 } }
  | .imgCols => { s with cfg := { s.cfg with imgCols := v.extractLsb' 0 16 } }
  | .blockSize => { s with cfg := { s.cfg with blockSize := v.extractLsb' 0 16 }, basisValid := false }
  | .thresh => { s with cfg := { s.cfg with thresh := v.extractLsb' 0 16 } }
  | .srcBase => { s with cfg := { s.cfg with srcBase := v } }
  | .srcStride => { s with cfg := { s.cfg with srcStride := v } }
  | .dstBase => { s with cfg := { s.cfg with dstBase := v } }
  | .dstStride => { s with cfg := { s.cfg with dstStride := v } }
  | .blkGrid => s
  | .cursor => { s with cursor := cursorOfWord v }
  | .blocksDone => s
  | .irqEnable => { s with irqEnable := ⟨v.getLsbD 0, v.getLsbD 1⟩ }
  | .irqStatus => { s with irqStatus := clearEvents s.irqStatus v }
  | .bufIndex => { s with bufIndex := bufIndexOfWord v }
  | .bufDataLo => writeBufLo v s
  | .bufDataHi => writeBufHi v s
  | .reserved => s

/-- A host write of a command word to CMD (R107). -/
def issue (w : Word) (s : State) : Host.Outcome State Fault Refusal :=
  match decode w with
  | .illegal why => .next (signalError (illegalCause why) (opcodeField w) s)
  | .command i =>
    if isInstant i then exec i s
    else if s.ctl.busy then .next (signalError .commandWhileBusy (opcodeField w) s)
    else .next (accept i s)

/-- A host write of a register (R107, R110, R112): a write of a locked register while BUSY = 1 is ignored and leaves a mark. -/
def writeReg (r : Reg) (v : Word) (s : State) : Host.Outcome State Fault Refusal :=
  if r = .cmd then issue v s
  else if isLocked r && s.ctl.busy then .next { s with lockedWrite := true }
  else .next (storeReg r v s)

/-- A host access to the window (R50): 32 bits at a multiple of 4, or a bus-error response and no effect on the engine. -/
def hostAccess (a : HostAccess) (s : State) : Host.Outcome State Fault Refusal :=
  if a.width = 32 ∧ a.offset.toNat % 4 = 0 then
    match a.kind with
    | .read =>
      let r := readReg (regAt a.offset) s
      .next { r.2 with resp := some (.data r.1) }
    | .write => writeReg (regAt a.offset) a.data { s with resp := some .written }
  else .next { s with resp := some .busError }

/-! ### The host's own accesses to `Mem` (spec/20_memory.md R57 to R59) -/

/-- Whether the command in flight reads the source region (R59). -/
def readsSource (s : State) : Bool :=
  s.ctl.busy && (s.ctl.curCmd == opcodeOf .run || s.ctl.curCmd == opcodeOf .loadBlock)

/-- Whether the command in flight writes the destination region (R59). -/
def writesDest (s : State) : Bool :=
  s.ctl.busy && (s.ctl.curCmd == opcodeOf .run || s.ctl.curCmd == opcodeOf .storeBlock)

/-- Whether an address is in the source region (R8). -/
def State.inSource (s : State) (a : Nat) : Bool :=
  s.regionsDefined && decide (s.cfg.srcBase.toNat ≤ a) && decide (a ≤ s.srcEnd)

/-- Whether an address is in the destination region (R8). -/
def State.inDest (s : State) (a : Nat) : Bool :=
  s.regionsDefined && decide (s.cfg.dstBase.toNat ≤ a) && decide (a ≤ s.dstEnd)

/-- Whether a host write of this byte now is one the host must not make (R59). -/
def State.hostWriteRaces (s : State) (a : Nat) : Bool := (readsSource s && s.inSource a) || (writesDest s && s.inDest a)

/-- A host write of one byte of `Mem` (R57, R59). -/
def hostMemWrite (a : Word) (v : Byte) (s : State) : Host.Outcome State Fault Refusal :=
  if s.hostWriteRaces a.toNat then .fault .hostMemoryRace
  else .next { s with mem := s.mem.write a.toNat v, resp := some .written }

/-! ### Turns -/

/-- The engine's turn (spec/10_state.md R19, R44): one work step of the command in flight; an idle engine takes no step (R138). -/
def engineTurn (s : State) : Host.Outcome State Fault Refusal :=
  if s.ctl.busy then
    match instrOfOpcode s.ctl.curCmd with
    | some i => if isInstant i then .fault .noCommandInFlight else exec i s
    | none => .fault .noCommandInFlight
  else .next s

/-- One input of the outside world, with `read` for what a host read of `Mem` gives. -/
def takeInputWith (read : Word → State → Host.Outcome State Fault Refusal) (e : Input) (s : State) :
    Host.Outcome State Fault Refusal :=
  match e with
  | .engine => engineTurn s
  | .access a => hostAccess a s
  | .rst => .next (resetEngine s)
  | .memWrite a v => hostMemWrite a v s
  | .memRead a => read a s

/-- `Mem` after at most `k` work steps of the engine alone: what the command in flight leaves there when no input waits. -/
def memoryAlone : Nat → State → Memory
  | 0, s => s.mem
  | k + 1, s =>
    if s.ctl.busy then
      match engineTurn s with
      | .next t => memoryAlone k t
      | .fault _ => s.mem
      | .refused _ => s.mem
    else s.mem

/-- `Mem` at the end of the command in flight, under the inputs that wait: the command goes on until it completes, ends with an
error (an ABORT among the inputs is one), or is discarded by a reset.  Host reads of `Mem` change nothing that matters here. -/
def memoryAtEnd : List Input → State → Memory
  | [], s => memoryAlone (s.nb + 1) s
  | e :: rest, s =>
    if s.ctl.busy then
      match takeInputWith (fun _ t => .next t) e s with
      | .next t => memoryAtEnd rest t
      | .fault _ => s.mem
      | .refused _ => s.mem
    else s.mem

/-- Whether the command in flight is one that writes this byte (R48, R97, R90): for RUN every output pixel of the truncated
image, for STORE_BLOCK those of the block at CURSOR, and none when a check of the command fails. -/
def State.commandWrites (s : State) (a : Nat) : Bool :=
  s.ctl.busy &&
    ((s.ctl.curCmd == opcodeOf .run && (validateAll s).isNone && s.inDest a &&
        decide ((a - s.cfg.dstBase.toNat) % s.cfg.dstStride.toNat < s.ct)) ||
      (s.ctl.curCmd == opcodeOf .storeBlock && (storeChecks s).isNone &&
        (blockPairs s.f).any fun e => s.dstElem e.1 e.2 == a))

/-- The byte a raced host read gives (R59): the one the command writes, or the one before the command.  A byte that the command
comes to its end without writing has the one before the command in both cases. -/
def State.racedByte (s : State) (a : Nat) : Byte :=
  if Config.racedReadIsNew s.draw then (memoryAtEnd s.inputs s).read a else s.memBefore.read a

/-- A host read of one byte of `Mem` (R58, R59): one of two values where the command in flight writes the byte, and the byte in
`Mem` everywhere else. -/
def hostMemRead (a : Word) (s : State) : Host.Outcome State Fault Refusal :=
  if s.commandWrites a.toNat then .next { s with resp := some (.memByte (s.racedByte a.toNat)), draw := s.draw + 1 }
  else .next { s with resp := some (.memByte (s.mem.read a.toNat)) }

/-- One input of the outside world. -/
def takeInput (e : Input) (s : State) : Host.Outcome State Fault Refusal := takeInputWith hostMemRead e s

/-- One step of the machine: the oldest input, or the engine's turn when none waits (R19; fairness: R154). -/
def turn (s : State) : Host.Outcome State Fault Refusal :=
  match s.inputs with
  | [] => engineTurn s
  | e :: rest => takeInput e { s with inputs := rest }

/-- The machine about to run the command word whose `nbits` low bits are those of `w`: a non-instant command stands accepted
(R108) with the engine's turn next, and any other word is a CMD write that the host makes next (R107). -/
def loadCommand (s : State) (nbits w : Nat) : State :=
  let word := BitVec.ofNat 32 (w % 2 ^ nbits)
  match decode word with
  | .command i =>
    if isInstant i then { s with inputs := .access ⟨.write, 32, 0x08#8, word⟩ :: s.inputs }
    else { accept i s with inputs := .engine :: s.inputs }
  | .illegal _ => { s with inputs := .access ⟨.write, 32, 0x08#8, word⟩ :: s.inputs }

/-! ### The notation of host programs (spec/30_encoding.md R71) -/

/-- The bus address of a register: ENGINE_BASE + offset(REG).  An access carries the offset alone, so the engine is the same
wherever its window lies. -/
def regAddress (r : Reg) : Nat := Config.engineBase + (offsetOf r).toNat

/-- `WR <REG>, <v>`. -/
def hostWr (r : Reg) (v : Word) : Input := .access ⟨.write, 32, offsetOf r, v⟩

/-- `RD <REG>`. -/
def hostRd (r : Reg) : Input := .access ⟨.read, 32, offsetOf r, 0#32⟩

/-- `CMD <MNEMONIC>`. -/
def hostCmd (i : Instr) : Input := hostWr .cmd (encode i)

/-- `BUFW64 <sel>, <i>, <j>, <x>`. -/
def hostBufW64 (sel : BitVec 2) (i j : Byte) (x : F64) : List Input :=
  [hostWr .bufIndex ((0#14 ++ sel ++ i ++ j)), hostWr .bufDataLo (x.extractLsb' 0 32), hostWr .bufDataHi (x.extractLsb' 32 32)]

/-- `BUFR64 <sel>, <i>, <j>`. -/
def hostBufR64 (sel : BitVec 2) (i j : Byte) : List Input :=
  [hostWr .bufIndex ((0#14 ++ sel ++ i ++ j)), hostRd .bufDataLo, hostRd .bufDataHi]

end Sys2Proof.Machine
end

