-- ==== Sys2Proof/Machine/Step.lean ====
section
/-! DEFINITION. One step of the machine. -/

namespace Sys2Proof.Machine

/-- One atomic step: of the host, of the reset input or of the engine (spec/10_state.md R19). -/
def step (s : State) : Host.Outcome State Fault Refusal := turn s

/-- The state in which the next step runs the command word `w` (notes/assumptions/5.md). -/
def State.withFetchWord (s : State) (nbits w : Nat) : State := loadCommand s nbits w

end Sys2Proof.Machine
end

