-- ==== Sys2Proof/Safety.lean ====
section
/-! DEFINITION. The terms claims use: what a work step leaves alone, the machine's invariant, the values of binary64 patterns,
and a run of the engine alone. -/

namespace Sys2Proof.Machine

/-! ### Frames -/

/-- The registers software reads and writes are the same, but for IRQ_STATUS: configuration, CURSOR, BLOCKS_DONE, BUF_INDEX,
IRQ_ENABLE, and the hidden WHOLD and RHOLD. -/
def SameRegisters (s t : State) : Prop :=
  t.cfg = s.cfg ∧ t.cursor = s.cursor ∧ t.blocksDone = s.blocksDone ∧ t.bufIndex = s.bufIndex ∧
    t.irqEnable = s.irqEnable ∧ t.whold = s.whold ∧ t.rhold = s.rhold

/-- The error record and the error flags are the same: ERR_CODE, ERR_ADDR, ERR_MULTI, LOCKED_WRITE. -/
def SameErrors (s t : State) : Prop :=
  t.errCode = s.errCode ∧ t.errAddr = s.errAddr ∧ t.errMulti = s.errMulti ∧ t.lockedWrite = s.lockedWrite

/-- The working buffers are the same, element by element. -/
def SameBuffers (s t : State) : Prop :=
  (∀ i j, t.p.elem i j = s.p.elem i j) ∧ (∀ i j, t.w.elem i j = s.w.elem i j) ∧ (∀ i j, t.d.elem i j = s.d.elem i j)

/-- Every byte of memory reads as before. -/
def SameMemory (s t : State) : Prop := ∀ a, t.mem.read a = s.mem.read a

/-- The world outside the engine, as the model holds it, is the same: the platform's bus errors (notes/assumptions/10.md), and the
model's own fields, the inputs that wait, the last host response, the draws of free values and the note of `Mem` before the
command (entries 9, 16, 2 and 7). -/
def SameWorld (s t : State) : Prop :=
  t.busErrors = s.busErrors ∧ t.inputs = s.inputs ∧ t.resp = s.resp ∧ t.draw = s.draw ∧ t.memBefore = s.memBefore

/-- A command has ended normally (R122): the engine is idle, DONE is set and the ERR event is as before. -/
def Completed (s t : State) : Prop := t.ctl = Ctl.idle ∧ t.irqStatus = ⟨true, s.irqStatus.err⟩

/-- The state after an error with this cause, opcode and address was recorded in `s` (R120): the first error is kept. -/
def Recorded (c : Cause) (opcode : Byte) (addr : Word) (s t : State) : Prop :=
  t.irqStatus = ⟨s.irqStatus.done, true⟩ ∧ t.lockedWrite = s.lockedWrite ∧
    (s.errCode = none → t.errCode = some ⟨c, opcode⟩ ∧ t.errAddr = addr ∧ t.errMulti = s.errMulti) ∧
    (s.errCode ≠ none → t.errCode = s.errCode ∧ t.errAddr = s.errAddr ∧ t.errMulti = true)

/-- A command has ended with an error that carries no address, and nothing else has changed (R120, R123). -/
def EndedWith (c : Cause) (s t : State) : Prop :=
  Recorded c s.ctl.curCmd 0#32 s t ∧ t.ctl = Ctl.idle ∧ SameRegisters s t ∧ SameBuffers s t ∧ t.basisValid = s.basisValid ∧
    SameMemory s t ∧ SameWorld s t

/-- What a transform leaves alone (R72): every element outside the F × F block of W, and everything but W and the completion. -/
def TransformFrame (s t : State) : Prop :=
  Completed s t ∧ (∀ i j, ¬(i < s.f ∧ j < s.f) → t.w.elem i j = s.w.elem i j) ∧
    (∀ i j, t.p.elem i j = s.p.elem i j) ∧ (∀ i j, t.d.elem i j = s.d.elem i j) ∧ t.basisValid = s.basisValid ∧
    SameErrors s t ∧ SameRegisters s t ∧ SameMemory s t ∧ SameWorld s t

/-! ### The checks of each command (spec/60_exceptions.md R126) -/

/-- The checks a work step of a command runs, in order (R126). -/
def checksOf (i : Instr) (p : Phase) : List (State → Option Cause) :=
  match i with
  | .validate =>
    [checkFFull, checkThreshold, checkSrcStride, checkDstStride, checkSrcRange, checkDstRange, checkOverlap]
  | .run =>
    match p with
    | .validate =>
      [checkFFull, checkThreshold, checkSrcStride, checkDstStride, checkSrcRange, checkDstRange, checkOverlap]
    | .blocks => []
  | .buildBasis => [checkFSize]
  | .loadBlock => [checkFFull, checkSrcStride, checkSrcRange, checkCursor]
  | .storeBlock => [checkFFull, checkDstStride, checkDstRange, checkCursor]
  | .cursorNext => [checkFFull, checkCursor]
  | .fdctCols => [checkBasis]
  | .fdctRows => [checkBasis]
  | .fdct => [checkBasis]
  | .idctCols => [checkBasis]
  | .idctRows => [checkBasis]
  | .idct => [checkBasis]
  | .mask => [checkFSize, checkThreshold]
  | .recon => [checkFSize]
  | .nop => []
  | .clearErr => []
  | .abort => []
  | .softReset => []

/-- The parameters and buffer layouts that VALIDATE and RUN admit (R94, R125): the block size fits the image and the buffers, the
threshold its range, the strides their rows, the two regions the address space, and the regions are apart or in place. -/
def LegalParameters (s : State) : Prop :=
  1 ≤ s.fInt ∧ s.fInt ≤ s.imgR ∧ s.fInt ≤ s.imgC ∧ s.fInt ≤ Config.nMax ∧ 0 ≤ s.dInt ∧ s.dInt ≤ 2 * s.fInt - 2 ∧
    s.imgC ≤ s.cfg.srcStride.toNat ∧ s.ct ≤ s.cfg.dstStride.toNat ∧ s.srcEnd ≤ 2 ^ 32 - 1 ∧ s.dstEnd ≤ 2 ^ 32 - 1 ∧
    ((s.cfg.dstBase = s.cfg.srcBase ∧ s.cfg.dstStride = s.cfg.srcStride) ∨ s.dstEnd < s.cfg.srcBase.toNat ∨
      s.srcEnd < s.cfg.dstBase.toNat)

/-- The commands that read the block at CURSOR by DMA in the work step at hand, their checks passed: LOAD_BLOCK, and RUN in its
block phase (R89, R97). -/
def ReadsBlock (c : Instr) (s : State) : Prop :=
  (c = .loadBlock ∧ loadChecks s = none) ∨
    (c = .run ∧ s.ctl.phase = .blocks ∧ validateAll s = none ∧ s.cursor.row.toNat < s.br ∧ s.cursor.col.toNat < s.bc)

/-- The commands that come to write the block at CURSOR by DMA in the work step at hand: STORE_BLOCK, its checks passed, and
RUN in its block phase when no read of the block fails (R90, R97). -/
def WritesBlock (c : Instr) (s : State) : Prop :=
  (c = .storeBlock ∧ storeChecks s = none) ∨
    (c = .run ∧ s.ctl.phase = .blocks ∧ validateAll s = none ∧ s.cursor.row.toNat < s.br ∧ s.cursor.col.toNat < s.bc ∧
      ∀ i j, i < s.f → j < s.f → s.busError .read (s.srcElem i j) = false)

/-- Every DMA access to a pixel of the truncated images is answered without an error; other addresses may fail. -/
def PixelsAnswer (s : State) : Prop :=
  ∀ r c, r < s.rt → c < s.ct →
    s.busError .read (s.srcPixel r c) = false ∧ s.busError .write (s.dstPixel r c) = false

/-- Every DMA access to a pixel of the block at CURSOR is answered without an error; other addresses may fail. -/
def BlockAnswers (s : State) : Prop :=
  ∀ i j, i < s.f → j < s.f → s.busError .read (s.srcElem i j) = false ∧ s.busError .write (s.dstElem i j) = false

/-! ### The invariant of the machine -/

/-- What holds of every state a run reaches. -/
structure Inv (s : State) : Prop where
  /-- Memory is in canonical form. -/
  memory_canonical : s.mem.wf = true
  /-- So is the note of memory before the command in flight. -/
  before_canonical : s.memBefore.wf = true
  /-- An idle engine has its idle control state (R44, R122). -/
  idle_control : s.ctl.busy = false → s.ctl = Ctl.idle
  /-- A busy engine has a non-instant command in flight (R44, R108). -/
  busy_command : s.ctl.busy = true → ∃ i, instrOfOpcode s.ctl.curCmd = some i ∧ isInstant i = false
  /-- BASIS_VALID = 1 means that D holds the basis of the current block size, which fits the buffers (R72). -/
  basis_built : s.basisValid = true →
    1 ≤ s.fInt ∧ s.fInt ≤ Config.nMax ∧ ∀ l j, l < s.f → j < s.f → s.d.elem l j = basis s.f l j
  /-- In the block phase RUN is in flight, its parameters are valid, and CURSOR and BLOCKS_DONE name the same block (R97). -/
  run_blocks : s.ctl.phase = .blocks →
    s.ctl.busy = true ∧ s.ctl.curCmd = opcodeOf .run ∧ validateAll s = none ∧ s.basisValid = true ∧
      s.cursor.row.toNat < s.br ∧ s.cursor.col.toNat < s.bc ∧
      s.blocksDone.toNat = s.cursor.row.toNat * s.bc + s.cursor.col.toNat
  /-- Without a recorded error there is no error address and no second error (R27, R29). -/
  no_error : s.errCode = none → s.errAddr = 0#32 ∧ s.errMulti = false
  /-- An error address belongs to a bus error (R29). -/
  error_address : ∀ r, s.errCode = some r → isBusError r.cause = false → s.errAddr = 0#32

/-- Whether the oldest input is a host write to a byte that the command in flight reads or writes: the one thing the host must
not do (R59). -/
def hostKeepsOff (s : State) : Prop := ∀ a v rest, s.inputs = .memWrite a v :: rest → s.hostWriteRaces a.toNat = false

/-! ### The values of binary64 patterns (spec/00_scope.md R11) -/

/-- A NaN: the exponent field is all ones and the fraction field is not 0. -/
def IsNaN (x : F64) : Prop := x.extractLsb' 52 11 = 0x7FF#11 ∧ x.extractLsb' 0 52 ≠ 0#52

/-- The rational number a finite binary64 pattern stands for. -/
def finiteValue (x : F64) : Option ℚ :=
  match unpack x with
  | .nan => none
  | .inf _ => none
  | .fin neg m e => some ((signedInt neg m : ℚ) * 2 ^ e / 2 ^ 1074)

/-- `z` is `x` rounded to binary64 with roundTiesToEven (R11): the nearest finite value, the even significand when two are
equally near, and an infinity from the midpoint past the largest finite value on. -/
def RoundsTo (x : ℚ) (z : F64) : Prop :=
  (|x| < 2 ^ 1024 - 2 ^ 970 →
    ∃ v, finiteValue z = some v ∧
      ∀ c u, finiteValue c = some u → |v - x| ≤ |u - x| ∧ (u ≠ v → |v - x| = |u - x| → z.getLsbD 0 = false)) ∧
  (2 ^ 1024 - 2 ^ 970 ≤ x → unpack z = .inf false) ∧
  (x ≤ -(2 ^ 1024 - 2 ^ 970) → unpack z = .inf true)

/-! ### Runs -/

/-- `k` work steps of the engine alone, with no host step between them: a fault or a refusal ends the run. -/
def engineRun : Nat → State → Host.Outcome State Fault Refusal
  | 0, s => .next s
  | k + 1, s =>
    match engineTurn s with
    | .next t => engineRun k t
    | .fault f => .fault f
    | .refused r => .refused r

/-- The commands of a list, each accepted by the idle engine and then run by it in one work step (R108, R44): what the host
program `CMD A; WAIT; CMD B; WAIT; …` does for commands of one step. -/
def issueAll : List Instr → State → Host.Outcome State Fault Refusal
  | [], s => .next s
  | i :: is, s =>
    match exec i (accept i s) with
    | .next t => issueAll is t
    | .fault f => .fault f
    | .refused r => .refused r

end Sys2Proof.Machine
end

