-- ==== Sys2Proof/Certificates/Slice0/Obligations.lean ====
section
/-! DEFINITION. The statements about the engine, from the numbered rules of spec/. -/

open Sys2Proof Sys2Proof.Machine

/-! ### Command words -/

/-- The word of each of the eighteen rows of the opcode map, written out from spec/30_encoding.md R64 and R66, decodes to that row's command. -/
def Obligations.OpcodeMapWordsDecode : Prop :=
  decode 0x00000000#32 = .command .nop ∧ decode 0x00000001#32 = .command .validate ∧
  decode 0x00000002#32 = .command .buildBasis ∧ decode 0x00000003#32 = .command .run ∧
  decode 0x00000010#32 = .command .loadBlock ∧ decode 0x00000011#32 = .command .storeBlock ∧
  decode 0x00000012#32 = .command .cursorNext ∧ decode 0x00000020#32 = .command .fdctCols ∧
  decode 0x00000021#32 = .command .fdctRows ∧ decode 0x00000022#32 = .command .fdct ∧
  decode 0x00000028#32 = .command .idctCols ∧ decode 0x00000029#32 = .command .idctRows ∧
  decode 0x0000002A#32 = .command .idct ∧ decode 0x00000030#32 = .command .mask ∧
  decode 0x00000031#32 = .command .recon ∧ decode 0x000000F0#32 = .command .clearErr ∧
  decode 0x000000FE#32 = .command .abort ∧ decode 0x000000FF#32 = .command .softReset

/-- R65, R70: the words that decode to a command are exactly the words the encoder gives, so no other word is a command. -/
def Obligations.DecodeAcceptsExactlyEncodedWords : Prop :=
  ∀ (w : Word) (i : Instr), decode w = .command i ↔ w = encode i

/-- R65: a word whose OPCODE is unassigned is illegal with DETAIL 1, one with an assigned OPCODE and w[31:8] ≠ 0 is illegal with
DETAIL 2, and every other word is the command its OPCODE names.  Writing an illegal word to CMD records ILLEGAL_COMMAND with
OPCODE = w[7:0], busy or idle, and has no other effect. -/
def Obligations.IllegalWordOnlyRecordsItsError : Prop :=
  ∀ (w : Word) (s : State),
    (w.extractLsb' 0 8 ∉ assignedOpcodes → ∃ t, writeReg .cmd w s = .next t ∧
      Recorded .illegalOpcode (w.extractLsb' 0 8) 0#32 s t ∧ causeKind .illegalOpcode = 7#4 ∧
      causeDetail .illegalOpcode = 1#4 ∧ t.ctl = s.ctl ∧ SameRegisters s t ∧ SameBuffers s t ∧
      t.basisValid = s.basisValid ∧ SameMemory s t ∧ SameWorld s t) ∧
    (w.extractLsb' 0 8 ∈ assignedOpcodes → w.extractLsb' 8 24 ≠ 0#24 → ∃ t, writeReg .cmd w s = .next t ∧
      Recorded .illegalReserved (w.extractLsb' 0 8) 0#32 s t ∧ causeKind .illegalReserved = 7#4 ∧
      causeDetail .illegalReserved = 2#4 ∧ t.ctl = s.ctl ∧ SameRegisters s t ∧ SameBuffers s t ∧
      t.basisValid = s.basisValid ∧ SameMemory s t ∧ SameWorld s t) ∧
    (w.extractLsb' 0 8 ∈ assignedOpcodes → w.extractLsb' 8 24 = 0#24 →
      ∃ i, decode w = .command i ∧ opcodeOf i = w.extractLsb' 0 8)

/-! ### Issuing and running commands -/

/-- A step runs the decoded command.  A CMD write of an instant command's word runs it in that host step (R107); the engine's
turn runs one work step of the command in flight (R19, R44).  The model's own choices: the order of turns is a list of inputs,
and with none waiting the turn is the engine's (notes/assumptions/9.md); the response to the CMD write stands in resp
(notes/assumptions/16.md); and a loaded command word is run by the next step (notes/assumptions/5.md). -/
def Obligations.StepRunsTheDecodedCommand : Prop :=
  (∀ (s : State) (w : Word) (i : Instr) (rest : List Input), s.inputs = hostWr .cmd w :: rest → decode w = .command i →
    isInstant i = true → step s = exec i { s with inputs := rest, resp := some .written }) ∧
  (∀ (s : State) (i : Instr) (rest : List Input), s.inputs = .engine :: rest → s.ctl.busy = true →
    s.ctl.curCmd = opcodeOf i → isInstant i = false → step s = exec i { s with inputs := rest }) ∧
  (∀ (s : State) (i : Instr), s.inputs = [] → s.ctl.busy = true → s.ctl.curCmd = opcodeOf i → isInstant i = false →
    step s = exec i s) ∧
  (∀ (s : State) (i : Instr), isInstant i = true →
    step (s.withFetchWord 32 (encode i).toNat) = exec i { s with resp := some .written }) ∧
  (∀ (s : State) (i : Instr), isInstant i = false → step (s.withFetchWord 32 (encode i).toNat) = exec i (accept i s))

/-- R108: an idle engine accepts a non-instant command.  BUSY, CUR_CMD and PHASE are set, and nothing else changes. -/
def Obligations.IdleEngineAcceptsACommand : Prop :=
  ∀ (w : Word) (i : Instr) (s : State), decode w = .command i → isInstant i = false → s.ctl.busy = false →
    ∃ t, writeReg .cmd w s = .next t ∧ t.ctl = ⟨true, opcodeOf i, s.ctl.abortPending, .validate⟩ ∧
      t.irqStatus = s.irqStatus ∧ SameErrors s t ∧ SameRegisters s t ∧ SameBuffers s t ∧ t.basisValid = s.basisValid ∧
      SameMemory s t ∧ t.busErrors = s.busErrors ∧ t.inputs = s.inputs ∧ t.resp = s.resp ∧ t.draw = s.draw

/-- R107, R121: a busy engine refuses a non-instant command with COMMAND_WHILE_BUSY, and the command in flight is not affected. -/
def Obligations.BusyEngineRefusesACommand : Prop :=
  ∀ (w : Word) (i : Instr) (s : State), decode w = .command i → isInstant i = false → s.ctl.busy = true →
    ∃ t, writeReg .cmd w s = .next t ∧ Recorded .commandWhileBusy (opcodeOf i) 0#32 s t ∧ t.ctl = s.ctl ∧
      SameRegisters s t ∧ SameBuffers s t ∧ t.basisValid = s.basisValid ∧ SameMemory s t ∧ SameWorld s t

/-! ### Errors -/

/-- R126, R120, R123: the first check of a command that fails ends it with that check's error and with no other change. -/
def Obligations.FailedCheckEndsTheCommand : Prop :=
  ∀ (i : Instr) (s : State) (c : Cause), isInstant i = false → s.ctl.abortPending = false →
    (checksOf i s.ctl.phase).findSome? (fun check => check s) = some c → ∃ t, exec i s = .next t ∧ EndedWith c s t

/-- R119: a pending ABORT ends the command in flight with ABORTED before the step does any work, and nothing else raises it. -/
def Obligations.AbortTestComesBeforeAnyWork : Prop :=
  (∀ (i : Instr) (s : State), isInstant i = false → s.ctl.abortPending = true →
    ∃ t, exec i s = .next t ∧ EndedWith .aborted s t) ∧
  (∀ (i : Instr) (s t : State) (o : Byte), isInstant i = false → s.errCode = none → exec i s = .next t →
    t.errCode = some ⟨.aborted, o⟩ → s.ctl.abortPending = true)

/-- R28, R118: the ERR_CODE word is KIND in [3:0], DETAIL in [7:4], OPCODE in [15:8] and 0 above, and 0 without an error; KIND and
DETAIL are those of the table of R118. -/
def Obligations.ErrorWordFollowsTheTable : Prop :=
  (∀ s : State, s.errCode = none → (readReg .errCode s).1 = 0#32) ∧
  (∀ (s : State) (c : Cause) (o : Byte), s.errCode = some ⟨c, o⟩ →
    (readReg .errCode s).1 = 0#16 ++ o ++ causeDetail c ++ causeKind c) ∧
  [Cause.blockSizeNotPositive, .blockSizeAboveRows, .blockSizeAboveCols, .blockSizeAboveMax, .thresholdNegative,
    .thresholdTooLarge, .srcStrideSmall, .dstStrideSmall, .srcRange, .dstRange, .overlap, .busRead, .busWrite,
    .illegalOpcode, .illegalReserved, .commandWhileBusy, .basisNotValid, .cursorRow, .cursorCol, .aborted].map
      (fun c => ((causeKind c).toNat, (causeDetail c).toNat)) =
    [(1, 1), (1, 2), (1, 3), (1, 4), (2, 1), (2, 2), (3, 1), (3, 2), (4, 1), (4, 2), (5, 0), (6, 1), (6, 2), (7, 1), (7, 2),
      (8, 0), (9, 0), (10, 1), (10, 2), (11, 0)]

/-- R27: the layout of STATUS, with ERR read from ERR_CODE.KIND and the reserved bits 0. -/
def Obligations.StatusWordLayout : Prop :=
  ∀ s : State,
    (readReg .status s).1.getLsbD 0 = s.ctl.busy ∧
    (readReg .status s).1.getLsbD 1 = ((readReg .errCode s).1.extractLsb' 0 4 != 0#4) ∧
    (readReg .status s).1.getLsbD 2 = s.errMulti ∧ (readReg .status s).1.getLsbD 3 = s.basisValid ∧
    (readReg .status s).1.getLsbD 4 = s.ctl.abortPending ∧ (readReg .status s).1.getLsbD 5 = s.lockedWrite ∧
    (readReg .status s).1.extractLsb' 6 2 = 0#2 ∧ (readReg .status s).1.extractLsb' 8 8 = s.ctl.curCmd ∧
    (readReg .status s).1.extractLsb' 16 16 = 0#16

/-- R127: the validation-boundary cases.  For an F the image and the buffers admit, d = −1 and d = 2F − 1 give
INVALID_FREQUENCY_THRESHOLD (details 1 and 2) from VALIDATE, RUN and MASK; F = 0, F > R, and F > C with F ≤ R give
INVALID_BLOCK_SIZE (details 1, 2, 3) from VALIDATE and RUN; memory is untouched. -/
def Obligations.ValidationBoundaryErrors : Prop :=
  ∀ s : State, s.ctl.abortPending = false → s.ctl.phase = .validate →
    (1 ≤ s.fInt → s.fInt ≤ s.imgR → s.fInt ≤ s.imgC → s.fInt ≤ Config.nMax → ∀ i ∈ [Instr.validate, .run, .mask],
      (s.dInt = -1 → ∃ t, exec i s = .next t ∧ EndedWith .thresholdNegative s t) ∧
      (s.dInt = 2 * s.fInt - 1 → ∃ t, exec i s = .next t ∧ EndedWith .thresholdTooLarge s t)) ∧
    (∀ i ∈ [Instr.validate, .run],
      (s.fInt = 0 → ∃ t, exec i s = .next t ∧ EndedWith .blockSizeNotPositive s t) ∧
      (1 ≤ s.fInt → (s.imgR : Int) < s.fInt → ∃ t, exec i s = .next t ∧ EndedWith .blockSizeAboveRows s t) ∧
      (1 ≤ s.fInt → s.fInt ≤ s.imgR → (s.imgC : Int) < s.fInt →
        ∃ t, exec i s = .next t ∧ EndedWith .blockSizeAboveCols s t))

/-- R120, R131: a recorded error stays in ERR_CODE until CLEAR_ERR or a reset. -/
def Obligations.RecordedErrorStaysUntilCleared : Prop :=
  ∀ (s t : State) (r : ErrRecord), s.errCode = some r → step s = .next t → t.errCode ≠ some r →
    ∃ rest, s.inputs = .rst :: rest ∨ s.inputs = hostCmd .clearErr :: rest ∨ s.inputs = hostCmd .softReset :: rest

/-- R39, R122: only the end of a command sets DONE, and then the engine is idle and no error is recorded in that step. -/
def Obligations.DoneIsSetOnlyByCompletion : Prop :=
  ∀ s t : State, step s = .next t → s.irqStatus.done = false → t.irqStatus.done = true →
    s.ctl.busy = true ∧ s.ctl.abortPending = false ∧ t.ctl = Ctl.idle ∧ t.errCode = s.errCode ∧ t.errMulti = s.errMulti ∧
      t.irqStatus.err = s.irqStatus.err

/-! ### The control commands -/

/-- R103: NOP does nothing, and 0x0000_0100 is not a NOP. -/
def Obligations.NopChangesNothing : Prop :=
  (∀ s : State, exec .nop s = .next s) ∧ decode 0x00000000#32 = .command .nop ∧
    decode 0x00000100#32 = .illegal .reservedNonzero

/-- R104: CLEAR_ERR clears ERR_CODE, ERR_ADDR, ERR_MULTI and LOCKED_WRITE, busy or idle, and changes nothing else, not even
IRQ_STATUS; STATUS.ERR then reads 0.  That LOCKED_WRITE is cleared with no error recorded too is the model's reading of R104's
pseudocode against its corner case (notes/assumptions/21.md). -/
def Obligations.ClearErrClearsTheErrorRecord : Prop :=
  decode 0x000000F0#32 = .command .clearErr ∧ ∀ s : State, ∃ t, exec .clearErr s = .next t ∧ t.errCode = none ∧ t.errAddr = 0#32 ∧ t.errMulti = false ∧
    t.lockedWrite = false ∧ (readReg .errCode t).1 = 0#32 ∧ (readReg .status t).1.getLsbD 1 = false ∧
    t.irqStatus = s.irqStatus ∧ t.ctl = s.ctl ∧ SameRegisters s t ∧ SameBuffers s t ∧ t.basisValid = s.basisValid ∧
    SameMemory s t ∧ SameWorld s t

/-- R105: ABORT while busy sets ABORT_PENDING and nothing else, and the next work step of the command in flight then ends it with
ABORTED; ABORT while idle does nothing. -/
def Obligations.AbortAsksTheCommandToEnd : Prop :=
  decode 0x000000FE#32 = .command .abort ∧
  (∀ s : State, s.ctl.busy = false → exec .abort s = .next s) ∧
  (∀ s : State, s.ctl.busy = true → ∃ t, exec .abort s = .next t ∧
    t.ctl = ⟨true, s.ctl.curCmd, true, s.ctl.phase⟩ ∧ t.irqStatus = s.irqStatus ∧ SameErrors s t ∧ SameRegisters s t ∧
    SameBuffers s t ∧ t.basisValid = s.basisValid ∧ SameMemory s t ∧ SameWorld s t ∧
    ∀ i, isInstant i = false → ∃ u, exec i t = .next u ∧ EndedWith .aborted t u)

/-- R106, R140: SOFT_RESET and the reset input give every register and hidden field its reset value, whatever the engine was doing,
and touch no byte of memory.  Nothing is said of P, W and D: they are unspecified.  That the reset input is one step, with the
same result (R141 allows it), and that the bus errors, the waiting inputs and the last response stay, which are no state of the
engine, is the model's choice (notes/assumptions/11.md). -/
def Obligations.ResetGivesEveryRegisterItsValue : Prop :=
  decode 0x000000FF#32 = .command .softReset ∧ decode 0x000001FF#32 = .illegal .reservedNonzero ∧
  ∀ s : State, ∃ t, exec .softReset s = .next t ∧ takeInput .rst s = .next t ∧
    t.ctl = ⟨false, 0x00#8, false, .validate⟩ ∧ t.errMulti = false ∧ t.basisValid = false ∧ t.lockedWrite = false ∧
    t.errCode = none ∧ t.errAddr = 0#32 ∧
    t.cfg = ⟨0#16, 0#16, 0#16, 0#16, 0#32, 0#32, 0#32, 0#32⟩ ∧ t.cursor = ⟨0#16, 0#16⟩ ∧
    t.bufIndex = ⟨0#8, 0#8, .w, false⟩ ∧ t.blocksDone = 0#32 ∧ t.irqEnable = ⟨false, false⟩ ∧
    t.irqStatus = ⟨false, false⟩ ∧ t.whold = 0#32 ∧ t.rhold = 0#32 ∧ SameMemory s t ∧
    (readReg .blkGrid t).1 = 0#32 ∧ (readReg .status t).1 = 0#32 ∧ t.irq = false ∧
    t.busErrors = s.busErrors ∧ t.inputs = s.inputs ∧ t.resp = s.resp ∧ t.memBefore = s.memBefore

/-- R142: what a host reads at each offset after reset.  The two BUF_DATA offsets are left out: they read unspecified values.
N_MAX = 32 is the model's choice (notes/assumptions/1.md). -/
def Obligations.ResetValuesAreReadBack : Prop :=
  ∀ off : BitVec 8, off.toNat % 4 = 0 → off ≠ 0x50#8 → off ≠ 0x54#8 →
    ∃ t, hostAccess ⟨.read, 32, off, 0#32⟩ State.reset = .next t ∧
      t.resp = some (.data (if off = 0x00#8 then 0x44435401#32
        else if off = 0x04#8 then BitVec.ofNat 32 Config.nMax else 0#32)) ∧ Config.nMax = 32

/-! ### Validation and the basis -/

/-- R94, R125: VALIDATE completes with DONE, changing nothing else, for the legal parameters and layouts, and for every other one
ends with an error and no other change. -/
def Obligations.ValidatePassesExactlyLegalParameters : Prop :=
  ∀ s : State, s.ctl.abortPending = false →
    (LegalParameters s → ∃ t, exec .validate s = .next t ∧ Completed s t ∧ SameErrors s t ∧ SameRegisters s t ∧
      SameBuffers s t ∧ t.basisValid = s.basisValid ∧ SameMemory s t ∧ SameWorld s t) ∧
    (¬ LegalParameters s → ∃ c t, exec .validate s = .next t ∧ EndedWith c s t)

/-- R73: BUILD_BASIS writes basis(F) into the F × F block of D and sets BASIS_VALID, for 1 ≤ F ≤ N_MAX; otherwise it ends with its
error and D and BASIS_VALID are unchanged.  The values for F = 1, the exact zero for F = 6 and the example for F = 2 are as given. -/
def Obligations.BuildBasisWritesTheBasis : Prop :=
  decode 0x00000002#32 = .command .buildBasis ∧
  (∀ s : State, s.ctl.abortPending = false →
    (1 ≤ s.fInt → s.fInt ≤ Config.nMax → ∃ t, exec .buildBasis s = .next t ∧ Completed s t ∧ t.basisValid = true ∧
      (∀ l j, l < s.f → j < s.f → t.d.elem l j = basis s.f l j) ∧
      (∀ l j, ¬(l < s.f ∧ j < s.f) → t.d.elem l j = s.d.elem l j) ∧
      (∀ i j, t.p.elem i j = s.p.elem i j) ∧ (∀ i j, t.w.elem i j = s.w.elem i j) ∧ SameErrors s t ∧
      SameRegisters s t ∧ SameMemory s t ∧ SameWorld s t) ∧
    (s.fInt ≤ 0 → ∃ t, exec .buildBasis s = .next t ∧ EndedWith .blockSizeNotPositive s t) ∧
    ((Config.nMax : Int) < s.fInt → ∃ t, exec .buildBasis s = .next t ∧ EndedWith .blockSizeAboveMax s t)) ∧
  basis 1 0 0 = 0x3FF0000000000000#64 ∧ basis 6 2 1 = 0x0000000000000000#64 ∧
  basis 2 0 0 = 0x3FE6A09E667F3BCD#64 ∧ basis 2 0 1 = 0x3FE6A09E667F3BCD#64 ∧
  basis 2 1 0 = 0x3FE6A09E667F3BCD#64 ∧ basis 2 1 1 = 0xBFE6A09E667F3BCD#64

/-! ### The transforms -/

/-- R74: FDCT_COLS gives W[k][j] = Σ D[k][i]·W[i][j], in the order of R12, from the old W. -/
def Obligations.FdctColsAppliesBasisToColumns : Prop :=
  ∀ s : State, s.ctl.abortPending = false → s.basisValid = true → s.f ≤ Config.nMax →
    ∃ t, exec .fdctCols s = .next t ∧ TransformFrame s t ∧ ∀ k j, k < s.f → j < s.f →
      t.w.elem k j =
        (List.range s.f).foldl (fun acc i => add64 acc (mul64 (s.d.elem k i) (s.w.elem i j))) 0x0000000000000000#64

/-- R75: FDCT_ROWS gives W[i][l] = Σ W[i][j]·D[l][j], in the order of R12, from the old W. -/
def Obligations.FdctRowsAppliesBasisToRows : Prop :=
  ∀ s : State, s.ctl.abortPending = false → s.basisValid = true → s.f ≤ Config.nMax →
    ∃ t, exec .fdctRows s = .next t ∧ TransformFrame s t ∧ ∀ i l, i < s.f → l < s.f →
      t.w.elem i l =
        (List.range s.f).foldl (fun acc j => add64 acc (mul64 (s.w.elem i j) (s.d.elem l j))) 0x0000000000000000#64

/-- R81: IDCT_COLS gives W[i][j] = Σ D[k][i]·W[k][j], in the order of R12, from the old W. -/
def Obligations.IdctColsAppliesTransposeToColumns : Prop :=
  ∀ s : State, s.ctl.abortPending = false → s.basisValid = true → s.f ≤ Config.nMax →
    ∃ t, exec .idctCols s = .next t ∧ TransformFrame s t ∧ ∀ i j, i < s.f → j < s.f →
      t.w.elem i j =
        (List.range s.f).foldl (fun acc k => add64 acc (mul64 (s.d.elem k i) (s.w.elem k j))) 0x0000000000000000#64

/-- R82: IDCT_ROWS gives W[i][j] = Σ W[i][k]·D[k][j], in the order of R12, from the old W. -/
def Obligations.IdctRowsAppliesTransposeToRows : Prop :=
  ∀ s : State, s.ctl.abortPending = false → s.basisValid = true → s.f ≤ Config.nMax →
    ∃ t, exec .idctRows s = .next t ∧ TransformFrame s t ∧ ∀ i j, i < s.f → j < s.f →
      t.w.elem i j =
        (List.range s.f).foldl (fun acc k => add64 acc (mul64 (s.w.elem i k) (s.d.elem k j))) 0x0000000000000000#64

/-- R76, R83: FDCT gives bit for bit the W of FDCT_COLS followed by FDCT_ROWS, and IDCT that of IDCT_COLS followed by IDCT_ROWS. -/
def Obligations.TwoPassTransformsEqualTheirPasses : Prop :=
  ∀ s : State, s.ctl.abortPending = false → s.basisValid = true → s.f ≤ Config.nMax →
    (∃ t u, exec .fdct s = .next t ∧ TransformFrame s t ∧ issueAll [.fdctCols, .fdctRows] s = .next u ∧
      ∀ i j, t.w.elem i j = u.w.elem i j) ∧
    (∃ t u, exec .idct s = .next t ∧ TransformFrame s t ∧ issueAll [.idctCols, .idctRows] s = .next u ∧
      ∀ i j, t.w.elem i j = u.w.elem i j)

/-! ### The mask and the reconstructor -/

/-- R79: MASK zeroes W[k][l] for k + l ≥ d and keeps the bits of every other element; its checks are those of F and then of d, and
a failing one leaves W as it is. -/
def Obligations.MaskZeroesHighIndexSums : Prop :=
  decode 0x00000030#32 = .command .mask ∧ ∀ s : State, s.ctl.abortPending = false →
    (1 ≤ s.fInt → s.fInt ≤ Config.nMax → 0 ≤ s.dInt → s.dInt ≤ 2 * s.fInt - 2 →
      ∃ t, exec .mask s = .next t ∧ TransformFrame s t ∧ ∀ k l, k < s.f → l < s.f →
        (s.dInt ≤ k + l → t.w.elem k l = 0x0000000000000000#64) ∧ ((k : Int) + l < s.dInt → t.w.elem k l = s.w.elem k l)) ∧
    (s.fInt ≤ 0 → ∃ t, exec .mask s = .next t ∧ EndedWith .blockSizeNotPositive s t) ∧
    ((Config.nMax : Int) < s.fInt → ∃ t, exec .mask s = .next t ∧ EndedWith .blockSizeAboveMax s t) ∧
    (1 ≤ s.fInt → s.fInt ≤ Config.nMax → s.dInt < 0 → ∃ t, exec .mask s = .next t ∧ EndedWith .thresholdNegative s t) ∧
    (1 ≤ s.fInt → s.fInt ≤ Config.nMax → 2 * s.fInt - 2 < s.dInt → 0 ≤ s.dInt →
      ∃ t, exec .mask s = .next t ∧ EndedWith .thresholdTooLarge s t)

/-- R80: the number of coefficients MASK keeps.  Of a W whose elements are all different from +0.0, that many are so after MASK. -/
def Obligations.MaskKeepsTheCountedCoefficients : Prop :=
  ∀ s t : State, s.ctl.abortPending = false → 1 ≤ s.fInt → s.fInt ≤ Config.nMax → 0 ≤ s.dInt → s.dInt ≤ 2 * s.fInt - 2 →
    (∀ k l, k < s.f → l < s.f → s.w.elem k l ≠ 0x0000000000000000#64) → exec .mask s = .next t →
    (((blockPairs s.f).filter fun e => t.w.elem e.1 e.2 != 0x0000000000000000#64).length : Int) =
      if s.dInt ≤ s.fInt then s.dInt * (s.dInt + 1) / 2
      else s.fInt * s.fInt - (2 * s.fInt - s.dInt) * (2 * s.fInt - s.dInt - 1) / 2

/-- R85: RECON writes recon8 of every element of the F × F block of W into P and leaves W alone; its check is that of F.  The
corner values and the example are as given. -/
def Obligations.ReconRoundsWIntoP : Prop :=
  decode 0x00000031#32 = .command .recon ∧
  (∀ s : State, s.ctl.abortPending = false →
    (1 ≤ s.fInt → s.fInt ≤ Config.nMax → ∃ t, exec .recon s = .next t ∧ Completed s t ∧
      (∀ i j, i < s.f → j < s.f → t.p.elem i j = recon8 (s.w.elem i j)) ∧
      (∀ i j, ¬(i < s.f ∧ j < s.f) → t.p.elem i j = s.p.elem i j) ∧
      (∀ i j, t.w.elem i j = s.w.elem i j) ∧ (∀ i j, t.d.elem i j = s.d.elem i j) ∧ t.basisValid = s.basisValid ∧
      SameErrors s t ∧ SameRegisters s t ∧ SameMemory s t ∧ SameWorld s t) ∧
    (s.fInt ≤ 0 → ∃ t, exec .recon s = .next t ∧ EndedWith .blockSizeNotPositive s t) ∧
    ((Config.nMax : Int) < s.fInt → ∃ t, exec .recon s = .next t ∧ EndedWith .blockSizeAboveMax s t)) ∧
  recon8 0xBFD999999999999A#64 = 0#8 ∧ recon8 0x406FF00000000000#64 = 255#8 ∧ recon8 0x406FD00000000000#64 = 254#8 ∧
  recon8 0x3FE0000000000000#64 = 0#8 ∧ recon8 0x3FF8000000000000#64 = 2#8 ∧ recon8 0xFFF0000000000000#64 = 0#8 ∧
  recon8 0x7FF0000000000000#64 = 255#8 ∧ recon8 0x7FF8000000000000#64 = 0#8 ∧ recon8 0x4004000000000002#64 = 3#8

/-- R16: recon8 is 0 for a NaN and for −∞, 255 for +∞, and otherwise the nearest integer, ties to even, clamped to 0 .. 255. -/
def Obligations.ReconstructorRoundsTiesToEven : Prop :=
  ∀ x : F64,
    (unpack x = .nan → recon8 x = 0#8) ∧ (unpack x = .inf false → recon8 x = 255#8) ∧ (unpack x = .inf true → recon8 x = 0#8) ∧
    ∀ (v : ℚ) (r : ℤ), finiteValue x = some v → |v - r| ≤ 1 / 2 → (|v - r| = 1 / 2 → Even r) →
      (recon8 x).toNat = (min 255 (max 0 r)).toNat

/-- R86: with d = 0 the sequence FDCT, MASK, IDCT, RECON leaves P all 0 on the block, whatever W held. -/
def Obligations.ZeroThresholdGivesBlackBlock : Prop :=
  ∀ s : State, s.ctl.abortPending = false → s.basisValid = true → 1 ≤ s.fInt → s.fInt ≤ Config.nMax → s.dInt = 0 →
    ∃ t, issueAll [.fdct, .mask, .idct, .recon] s = .next t ∧ ∀ i j, i < s.f → j < s.f → t.p.elem i j = 0#8

/-! ### Block decompose and reassemble -/

/-- R89: LOAD_BLOCK reads the block at CURSOR into P and W when its checks pass and no read fails. -/
def Obligations.LoadBlockReadsTheBlockAtCursor : Prop :=
  ∀ s : State, s.ctl.abortPending = false → loadChecks s = none →
    (∀ i j, i < s.f → j < s.f → s.busError .read (s.srcElem i j) = false) →
    ∃ t, exec .loadBlock s = .next t ∧ Completed s t ∧
      (∀ i j, i < s.f → j < s.f → ∀ a, a = s.cfg.srcBase.toNat +
          (s.cursor.row.toNat * s.f + i) * s.cfg.srcStride.toNat + (s.cursor.col.toNat * s.f + j) →
        t.p.elem i j = s.mem.read a ∧ t.w.elem i j = toF64 (s.mem.read a)) ∧
      (∀ i j, ¬(i < s.f ∧ j < s.f) → t.p.elem i j = s.p.elem i j ∧ t.w.elem i j = s.w.elem i j) ∧
      (∀ i j, t.d.elem i j = s.d.elem i j) ∧ t.basisValid = s.basisValid ∧ SameErrors s t ∧ SameRegisters s t ∧
      SameMemory s t ∧ SameWorld s t

/-- R89, R97, R123: when the read of element (i, j) is the first, in row-major order, that gets an error response, LOAD_BLOCK and the
block step of RUN end with BUS_ERROR detail 1 and its address.  The elements before (i, j) are new and every other one is as it
was, no byte of memory has changed, and CURSOR and BLOCKS_DONE are as they were. -/
def Obligations.ReadBusErrorKeepsThePrefix : Prop :=
  ∀ (c : Instr) (s : State) (i j : Nat), ReadsBlock c s → s.ctl.abortPending = false → i < s.f → j < s.f →
    (∀ k l, k < s.f → l < s.f → k * s.f + l < i * s.f + j → s.busError .read (s.srcElem k l) = false) →
    s.busError .read (s.srcElem i j) = true →
    ∃ t, exec c s = .next t ∧ Recorded .busRead s.ctl.curCmd (BitVec.ofNat 32 (s.srcElem i j)) s t ∧
      t.ctl = Ctl.idle ∧
      (∀ k l, k < s.f → l < s.f → k * s.f + l < i * s.f + j →
        t.p.elem k l = s.mem.read (s.srcElem k l) ∧ t.w.elem k l = toF64 (s.mem.read (s.srcElem k l))) ∧
      (∀ k l, ¬(k < s.f ∧ l < s.f ∧ k * s.f + l < i * s.f + j) →
        t.p.elem k l = s.p.elem k l ∧ t.w.elem k l = s.w.elem k l) ∧
      (∀ k l, t.d.elem k l = s.d.elem k l) ∧ t.basisValid = s.basisValid ∧ SameRegisters s t ∧ SameMemory s t ∧
      SameWorld s t

/-- R90: STORE_BLOCK writes P to the block at CURSOR of the output image when its checks pass and no write fails, and no other
byte of memory. -/
def Obligations.StoreBlockWritesTheBlockAtCursor : Prop :=
  ∀ s : State, s.mem.wf = true → s.ctl.abortPending = false → storeChecks s = none →
    (∀ i j, i < s.f → j < s.f → s.busError .write (s.dstElem i j) = false) →
    ∃ t, exec .storeBlock s = .next t ∧ Completed s t ∧
      (∀ i j, i < s.f → j < s.f → ∀ a, a = s.cfg.dstBase.toNat +
          (s.cursor.row.toNat * s.f + i) * s.cfg.dstStride.toNat + (s.cursor.col.toNat * s.f + j) →
        t.mem.read a = s.p.elem i j) ∧
      (∀ a, (∀ i j, i < s.f → j < s.f → a ≠ s.dstElem i j) → t.mem.read a = s.mem.read a) ∧
      SameBuffers s t ∧ t.basisValid = s.basisValid ∧ SameErrors s t ∧ SameRegisters s t ∧ SameWorld s t

/-- R90, R97, R123: when the write of element (i, j) is the first, in row-major order, that gets an error response, STORE_BLOCK and
the block step of RUN end with BUS_ERROR detail 2 and its address.  The bytes before it are written from P and no other byte
is, and CURSOR and BLOCKS_DONE are as they were; STORE_BLOCK leaves the buffers alone. -/
def Obligations.WriteBusErrorKeepsThePrefix : Prop :=
  ∀ (c : Instr) (s : State) (i j : Nat), s.mem.wf = true → WritesBlock c s → s.ctl.abortPending = false →
    i < s.f → j < s.f →
    (∀ k l, k < s.f → l < s.f → k * s.f + l < i * s.f + j → s.busError .write (s.dstElem k l) = false) →
    s.busError .write (s.dstElem i j) = true →
    ∃ t, exec c s = .next t ∧ Recorded .busWrite s.ctl.curCmd (BitVec.ofNat 32 (s.dstElem i j)) s t ∧
      t.ctl = Ctl.idle ∧
      (∀ k l, k < s.f → l < s.f → k * s.f + l < i * s.f + j → t.mem.read (s.dstElem k l) = t.p.elem k l) ∧
      (∀ a, (∀ k l, k < s.f → l < s.f → k * s.f + l < i * s.f + j → a ≠ s.dstElem k l) →
        t.mem.read a = s.mem.read a) ∧
      (c = .storeBlock → SameBuffers s t) ∧ (∀ k l, t.d.elem k l = s.d.elem k l) ∧ t.basisValid = s.basisValid ∧
      SameRegisters s t ∧ SameWorld s t

/-- R91: CURSOR_NEXT moves CURSOR to the next block in row-major block order and wraps to (0, 0) after the last; a failing check
ends it with CURSOR unchanged. -/
def Obligations.CursorNextAdvancesRowMajor : Prop :=
  decode 0x00000012#32 = .command .cursorNext ∧ ∀ s : State, s.ctl.abortPending = false →
    (cursorChecks s = none → ∃ t, exec .cursorNext s = .next t ∧ Completed s t ∧
      t.cursor.row.toNat = (if s.cursor.col.toNat + 1 < s.bc then s.cursor.row.toNat
        else if s.cursor.row.toNat + 1 < s.br then s.cursor.row.toNat + 1 else 0) ∧
      t.cursor.col.toNat = (if s.cursor.col.toNat + 1 < s.bc then s.cursor.col.toNat + 1 else 0) ∧
      SameBuffers s t ∧ t.basisValid = s.basisValid ∧ SameErrors s t ∧ SameMemory s t ∧ SameWorld s t ∧
      t.cfg = s.cfg ∧ t.blocksDone = s.blocksDone ∧ t.bufIndex = s.bufIndex ∧ t.irqEnable = s.irqEnable ∧
      t.whold = s.whold ∧ t.rhold = s.rhold) ∧
    (∀ c, cursorChecks s = some c → ∃ t, exec .cursorNext s = .next t ∧ EndedWith c s t)

/-- R88: the cursor advance function visits the blocks in row-major order, each once: k steps from (0, 0) give the k-th block, and
NB steps return to (0, 0). -/
def Obligations.CursorVisitsEveryBlockOnce : Prop :=
  ∀ br bc : Nat, 0 < br → 0 < bc →
    (∀ k, k < br * bc → (fun e : Nat × Nat => nextBlock br bc e.1 e.2)^[k] (0, 0) = (k / bc, k % bc)) ∧
    (fun e : Nat × Nat => nextBlock br bc e.1 e.2)^[br * bc] (0, 0) = (0, 0)

/-- R92: the loop LOAD_BLOCK, STORE_BLOCK, CURSOR_NEXT over all blocks copies the truncated image and returns CURSOR to (0, 0). -/
def Obligations.DecomposeReassembleCopiesTheImage : Prop :=
  ∀ s : State, s.mem.wf = true → s.ctl = Ctl.idle → s.cursor = ⟨0#16, 0#16⟩ → loadChecks s = none → storeChecks s = none →
    (s.srcEnd < s.cfg.dstBase.toNat ∨ s.dstEnd < s.cfg.srcBase.toNat) → PixelsAnswer s →
    ∃ t, issueAll ((List.replicate s.nb [Instr.loadBlock, .storeBlock, .cursorNext]).flatten) s = .next t ∧
      t.cursor = ⟨0#16, 0#16⟩ ∧
      ∀ r c, r < s.rt → c < s.ct → t.mem.read (s.dstPixel r c) = s.mem.read (s.srcPixel r c)

/-! ### RUN -/

/-- R96: RUN step 0 validates, builds the basis, clears CURSOR and BLOCKS_DONE and goes to the block phase; when a check fails it
ends RUN with that error and no other change. -/
def Obligations.RunStartsWithValidationAndBasis : Prop :=
  ∀ s : State, s.ctl.abortPending = false → s.ctl.phase = .validate →
    (validateAll s = none → ∃ t, exec .run s = .next t ∧
      t.ctl = ⟨s.ctl.busy, s.ctl.curCmd, false, .blocks⟩ ∧ t.basisValid = true ∧ t.cursor = ⟨0#16, 0#16⟩ ∧
      t.blocksDone = 0#32 ∧ (∀ l j, l < s.f → j < s.f → t.d.elem l j = basis s.f l j) ∧
      (∀ l j, ¬(l < s.f ∧ j < s.f) → t.d.elem l j = s.d.elem l j) ∧ (∀ i j, t.p.elem i j = s.p.elem i j) ∧
      (∀ i j, t.w.elem i j = s.w.elem i j) ∧ t.irqStatus = s.irqStatus ∧ SameErrors s t ∧ SameMemory s t ∧
      SameWorld s t ∧ t.cfg = s.cfg ∧ t.bufIndex = s.bufIndex ∧ t.irqEnable = s.irqEnable ∧ t.whold = s.whold ∧
      t.rhold = s.rhold ∧ 1 ≤ s.nb) ∧
    (∀ c, validateAll s = some c → ∃ t, exec .run s = .next t ∧ EndedWith c s t)

/-- R97, R98: a RUN block step has, bit for bit, the effect on memory, P, W, D and CURSOR of LOAD_BLOCK, FDCT, MASK, IDCT, RECON,
STORE_BLOCK and CURSOR_NEXT issued one by one; it also counts the block, and completes the RUN exactly when the count is NB. -/
def Obligations.RunBlockStepEqualsSingleCommands : Prop :=
  ∀ s : State, s.ctl.abortPending = false → s.ctl.phase = .blocks → validateAll s = none → s.basisValid = true →
    s.cursor.row.toNat < s.br → s.cursor.col.toNat < s.bc → BlockAnswers s →
    ∃ t u, exec .run s = .next t ∧
      issueAll [.loadBlock, .fdct, .mask, .idct, .recon, .storeBlock, .cursorNext] { s with ctl := Ctl.idle } = .next u ∧
      t.mem = u.mem ∧ t.p = u.p ∧ t.w = u.w ∧ t.d = u.d ∧ t.cursor = u.cursor ∧ t.basisValid = u.basisValid ∧
      t.blocksDone = s.blocksDone + 1#32 ∧
      ((s.blocksDone + 1#32).toNat = s.nb → Completed s t) ∧
      ((s.blocksDone + 1#32).toNat ≠ s.nb → t.ctl = s.ctl ∧ t.irqStatus = s.irqStatus) ∧
      SameErrors s t ∧ SameWorld s t ∧ t.cfg = s.cfg ∧ t.bufIndex = s.bufIndex ∧ t.irqEnable = s.irqEnable ∧
      t.whold = s.whold ∧ t.rhold = s.rhold

/-- R153, R97: an accepted RUN whose parameters are valid and whose accesses all succeed takes NB + 1 work steps: it is busy before
the last, and after it the engine is idle with DONE set, CURSOR = (0, 0), BLOCKS_DONE = NB and the basis valid. -/
def Obligations.RunCompletesInNbPlusOneSteps : Prop :=
  ∀ s : State, s.ctl = ⟨true, opcodeOf .run, false, .validate⟩ → validateAll s = none → PixelsAnswer s →
    (∀ k, k ≤ s.nb → ∃ u, engineRun k s = .next u ∧ u.ctl.busy = true) ∧
    ∃ t, engineRun (s.nb + 1) s = .next t ∧ Completed s t ∧ t.cursor = ⟨0#16, 0#16⟩ ∧ t.blocksDone.toNat = s.nb ∧
      t.basisValid = true ∧ SameErrors s t ∧ t.cfg = s.cfg

/-- R99, R102: the output of a successful RUN is a function of the pixels of the truncated source image, F and d alone.  Two RUNs
with equal truncated images, F and d write the same output pixels, wherever the regions lie, in place or not, whatever
remainder rows and columns are dropped, and whatever else memory, the buffers and the registers hold. -/
def Obligations.RunOutputDependsOnSourcePixelsOnly : Prop :=
  ∀ s t s' t' : State, s.mem.wf = true → t.mem.wf = true →
    s.ctl = ⟨true, opcodeOf .run, false, .validate⟩ → t.ctl = ⟨true, opcodeOf .run, false, .validate⟩ →
    validateAll s = none → validateAll t = none → PixelsAnswer s → PixelsAnswer t → s.rt = t.rt → s.ct = t.ct →
    s.cfg.blockSize = t.cfg.blockSize → s.cfg.thresh = t.cfg.thresh →
    (∀ r c, r < s.rt → c < s.ct → s.mem.read (s.srcPixel r c) = t.mem.read (t.srcPixel r c)) →
    engineRun (s.nb + 1) s = .next s' → engineRun (t.nb + 1) t = .next t' →
    ∀ r c, r < s.rt → c < s.ct → s'.mem.read (s.dstPixel r c) = t'.mem.read (t.dstPixel r c)

/-- R48: the engine's turn changes no byte of memory but the output pixels of the block at CURSOR, and none at all unless
STORE_BLOCK or RUN is in flight. -/
def Obligations.EngineWritesOnlyTheOutputBlock : Prop :=
  ∀ s t : State, Inv s → engineTurn s = .next t →
    (∀ a, (∀ i j, i < s.f → j < s.f → a ≠ s.dstElem i j) → t.mem.read a = s.mem.read a) ∧
    (s.ctl.curCmd ≠ opcodeOf .storeBlock → s.ctl.curCmd ≠ opcodeOf .run → SameMemory s t)

/-- R154: whatever the engine is doing, in a state that meets the invariant, it is idle after at most NB + 1 of its own steps. -/
def Obligations.EveryCommandEnds : Prop :=
  ∀ s : State, Inv s → ∃ k t, k ≤ s.nb + 1 ∧ engineRun k s = .next t ∧ t.ctl.busy = false

/-! ### The invariant -/

/-- The state after reset meets the invariant; that its memory lists nothing is the model's choice (notes/assumptions/4.md). -/
def Obligations.ResetMeetsTheInvariant : Prop := Inv State.reset

/-- Every step of the host, of the reset input or of the engine keeps the invariant: memory stays canonical, BASIS_VALID means
that D is the basis of the current F, RUN's block phase keeps valid parameters and a cursor that agrees with BLOCKS_DONE. -/
def Obligations.StepKeepsTheInvariant : Prop := ∀ s t : State, Inv s → step s = .next t → Inv t

/-- In a state that meets the invariant the machine never stops, as long as the host keeps off the regions of the command in
flight: no command faults and none is refused (R120: every failure is a recorded error).  That such a host write stops the
machine is the model's choice (notes/assumptions/8.md). -/
def Obligations.MachineNeverStops : Prop := ∀ s : State, Inv s → hostKeepsOff s → ∃ t, step s = .next t

/-! ### Host access -/

/-- R112: while BUSY = 1 a write to a locked register changes nothing but STATUS.LOCKED_WRITE, which it sets; writes to IRQ_ENABLE
and IRQ_STATUS are not locked, and a write to a read-only register is simply ignored. -/
def Obligations.BusyEngineLocksItsRegisters : Prop :=
  ∀ (v : Word) (s : State), s.ctl.busy = true →
    (∀ r ∈ [Reg.imgRows, .imgCols, .blockSize, .thresh, .srcBase, .srcStride, .dstBase, .dstStride, .cursor, .bufIndex,
        .bufDataLo, .bufDataHi],
      ∃ t, writeReg r v s = .next t ∧ t.lockedWrite = true ∧ t.ctl = s.ctl ∧ t.irqStatus = s.irqStatus ∧
        t.errCode = s.errCode ∧ t.errAddr = s.errAddr ∧ t.errMulti = s.errMulti ∧ SameRegisters s t ∧ SameBuffers s t ∧
        t.basisValid = s.basisValid ∧ SameMemory s t ∧ SameWorld s t) ∧
    (∀ r ∈ [Reg.irqEnable, .irqStatus], ∃ t, writeReg r v s = .next t ∧ t.lockedWrite = s.lockedWrite ∧
      (r = .irqEnable → t.irqEnable = ⟨v.getLsbD 0, v.getLsbD 1⟩) ∧
      (r = .irqStatus → t.irqStatus = ⟨s.irqStatus.done && !v.getLsbD 0, s.irqStatus.err && !v.getLsbD 1⟩)) ∧
    (∀ r ∈ [Reg.id, .caps, .status, .errCode, .errAddr, .blkGrid, .blocksDone, .reserved], writeReg r v s = .next s)

/-- R22, R109 to R111: each offset of the register map reaches its register, in reads and in writes; a read gives the stored field,
with the reserved bits 0; and on an idle engine a write to a stored register is read back with the reserved bits 0, leaves the
other registers alone, and clears BASIS_VALID exactly when the register is BLOCK_SIZE.  Where the response stands is the model's
choice (notes/assumptions/16.md). -/
def Obligations.StoredRegistersReadBack : Prop :=
  (∀ (v : Word) (s : State), ∀ e ∈ [(0x00#8, Reg.id), (0x04#8, .caps), (0x08#8, .cmd), (0x0C#8, .status), (0x10#8, .errCode),
      (0x14#8, .errAddr), (0x18#8, .imgRows), (0x1C#8, .imgCols), (0x20#8, .blockSize), (0x24#8, .thresh), (0x28#8, .srcBase),
      (0x2C#8, .srcStride), (0x30#8, .dstBase), (0x34#8, .dstStride), (0x38#8, .blkGrid), (0x3C#8, .cursor),
      (0x40#8, .blocksDone), (0x44#8, .irqEnable), (0x48#8, .irqStatus), (0x4C#8, .bufIndex), (0x50#8, .bufDataLo),
      (0x54#8, .bufDataHi)],
    hostAccess ⟨.read, 32, e.1, v⟩ s = .next { (readReg e.2 s).2 with resp := some (.data (readReg e.2 s).1) } ∧
    hostAccess ⟨.write, 32, e.1, v⟩ s = writeReg e.2 v { s with resp := some .written }) ∧
  (∀ s : State, (readReg .id s).1 = 0x44435401#32 ∧ (readReg .caps s).1 = BitVec.ofNat 32 Config.nMax ∧
    (readReg .cmd s).1 = 0#32 ∧ (readReg .errAddr s).1 = s.errAddr ∧ (readReg .imgRows s).1 = 0#16 ++ s.cfg.imgRows ∧
    (readReg .imgCols s).1 = 0#16 ++ s.cfg.imgCols ∧ (readReg .blockSize s).1 = 0#16 ++ s.cfg.blockSize ∧
    (readReg .thresh s).1 = 0#16 ++ s.cfg.thresh ∧ (readReg .srcBase s).1 = s.cfg.srcBase ∧
    (readReg .srcStride s).1 = s.cfg.srcStride ∧ (readReg .dstBase s).1 = s.cfg.dstBase ∧
    (readReg .dstStride s).1 = s.cfg.dstStride ∧ (readReg .cursor s).1 = s.cursor.col ++ s.cursor.row ∧
    (readReg .blocksDone s).1 = s.blocksDone ∧
    (readReg .irqEnable s).1 = 0#30 ++ BitVec.ofBool s.irqEnable.err ++ BitVec.ofBool s.irqEnable.done ∧
    (readReg .irqStatus s).1 = 0#30 ++ BitVec.ofBool s.irqStatus.err ++ BitVec.ofBool s.irqStatus.done ∧
    (readReg .bufIndex s).1 = BitVec.ofBool s.bufIndex.autoinc ++ 0#13 ++
      (match s.bufIndex.sel with
      | .w => 0#2
      | .p => 1#2
      | .d => 2#2
      | .reserved => 3#2) ++ s.bufIndex.row ++ s.bufIndex.col) ∧
  (∀ (v : Word) (s : State), s.ctl.busy = false →
    ∀ e ∈ [(Reg.imgRows, 0x0000FFFF#32), (.imgCols, 0x0000FFFF#32), (.blockSize, 0x0000FFFF#32), (.thresh, 0x0000FFFF#32),
        (.srcBase, 0xFFFFFFFF#32), (.srcStride, 0xFFFFFFFF#32), (.dstBase, 0xFFFFFFFF#32), (.dstStride, 0xFFFFFFFF#32),
        (.cursor, 0xFFFFFFFF#32), (.irqEnable, 0x00000003#32), (.bufIndex, 0x8003FFFF#32)],
      ∃ t, writeReg e.1 v s = .next t ∧ (readReg e.1 t).1 = v &&& e.2 ∧
        (∀ r ∈ [Reg.imgRows, .imgCols, .blockSize, .thresh, .srcBase, .srcStride, .dstBase, .dstStride, .cursor, .irqEnable,
          .bufIndex, .errCode, .errAddr, .blocksDone, .irqStatus], r ≠ e.1 → (readReg r t).1 = (readReg r s).1) ∧
        t.basisValid = (if e.1 = .blockSize then false else s.basisValid) ∧ t.ctl = s.ctl ∧ SameErrors s t ∧
        SameBuffers s t ∧ SameMemory s t ∧ SameWorld s t ∧ t.whold = s.whold ∧ t.rhold = s.rhold)

/-- R39: a write to IRQ_STATUS clears each bit whose written value is 1 and leaves the other, busy or idle, and changes nothing
else. -/
def Obligations.EventBitsAreWriteOneToClear : Prop :=
  ∀ (v : Word) (s : State), ∃ t, writeReg .irqStatus v s = .next t ∧
    (v.getLsbD 0 = true → t.irqStatus.done = false) ∧ (v.getLsbD 0 = false → t.irqStatus.done = s.irqStatus.done) ∧
    (v.getLsbD 1 = true → t.irqStatus.err = false) ∧ (v.getLsbD 1 = false → t.irqStatus.err = s.irqStatus.err) ∧
    t.ctl = s.ctl ∧ SameErrors s t ∧ SameRegisters s t ∧ SameBuffers s t ∧ t.basisValid = s.basisValid ∧
    SameMemory s t ∧ SameWorld s t

/-- R45, R129: `irq` is high exactly when an event whose enable bit is 1 is pending: it is a function of the two registers as
read. -/
def Obligations.InterruptFollowsEnabledEvents : Prop :=
  ∀ s : State, s.irq = ((((readReg .irqStatus s).1 &&& (readReg .irqEnable s).1).extractLsb' 0 2) != 0#2)

/-- R50, R23: an access that is not 32 bits wide, or not at a multiple of 4, gets a bus-error response and changes nothing; a
reserved offset reads 0 and ignores writes.  Where the response stands is the model's choice (notes/assumptions/16.md). -/
def Obligations.MalformedAndReservedAccessesChangeNothing : Prop :=
  (∀ (a : HostAccess) (s : State), (a.width ≠ 32 ∨ a.offset.toNat % 4 ≠ 0) →
    hostAccess a s = .next { s with resp := some .busError }) ∧
  (∀ (off : BitVec 8) (v : Word) (s : State), 0x58 ≤ off.toNat → off.toNat % 4 = 0 →
    hostAccess ⟨.read, 32, off, v⟩ s = .next { s with resp := some (.data 0#32) } ∧
    hostAccess ⟨.write, 32, off, v⟩ s = .next { s with resp := some .written })

/-- R35: BLK_GRID reads {BC, BR} when 1 ≤ F ≤ N_MAX, neither field truncated, and 0 otherwise. -/
def Obligations.BlockGridIsComputedAtTheRead : Prop :=
  ∀ s : State,
    (1 ≤ s.fInt → s.fInt ≤ Config.nMax →
      ((readReg .blkGrid s).1.extractLsb' 0 16).toNat = s.imgR / s.f ∧
      ((readReg .blkGrid s).1.extractLsb' 16 16).toNat = s.imgC / s.f) ∧
    (s.fInt < 1 ∨ (Config.nMax : Int) < s.fInt → (readReg .blkGrid s).1 = 0#32) ∧ (readReg .blkGrid s).2 = s ∧
    ∀ v, writeReg .blkGrid v s = .next s

/-- R114, R116: writes of the buffer window on an idle engine.  With SEL = 0 a write of BUF_DATA_LO and then of BUF_DATA_HI commits
exactly {HI, LO} to the selected element of W; with SEL = 1 a write of BUF_DATA_LO commits its low byte to P, and BUF_DATA_HI has
no effect; with SEL = 2 and 3 nothing but WHOLD changes.  Nothing is committed for an index outside the buffers, no other
element changes, and the index moves by the auto-increment of the committing write alone. -/
def Obligations.WindowWritesCommitTheSelectedElement : Prop :=
  ∀ (s : State) (lo hi : Word), s.ctl.busy = false →
    (s.bufIndex.sel = .w → ∃ u, writeReg .bufDataLo lo s = .next { s with whold := lo } ∧
      writeReg .bufDataHi hi { s with whold := lo } = .next u ∧
      (s.bufIndex.row.toNat < Config.nMax → s.bufIndex.col.toNat < Config.nMax →
        u.w.elem s.bufIndex.row.toNat s.bufIndex.col.toNat = hi ++ lo) ∧
      (∀ i j, ¬(i = s.bufIndex.row.toNat ∧ j = s.bufIndex.col.toNat) → u.w.elem i j = s.w.elem i j) ∧
      (∀ i j, u.p.elem i j = s.p.elem i j) ∧ (∀ i j, u.d.elem i j = s.d.elem i j) ∧ u.ctl = s.ctl ∧
      u.bufIndex = (autoinc s).bufIndex ∧ u.whold = lo ∧ u.rhold = s.rhold ∧ u.basisValid = s.basisValid ∧
      u.cfg = s.cfg ∧ u.cursor = s.cursor ∧ u.blocksDone = s.blocksDone ∧ u.irqEnable = s.irqEnable ∧
      u.irqStatus = s.irqStatus ∧ SameErrors s u ∧ SameMemory s u ∧ SameWorld s u) ∧
    (s.bufIndex.sel = .p → ∃ u, writeReg .bufDataLo lo s = .next u ∧
      (s.bufIndex.row.toNat < Config.nMax → s.bufIndex.col.toNat < Config.nMax →
        u.p.elem s.bufIndex.row.toNat s.bufIndex.col.toNat = lo.extractLsb' 0 8) ∧
      (∀ i j, ¬(i = s.bufIndex.row.toNat ∧ j = s.bufIndex.col.toNat) → u.p.elem i j = s.p.elem i j) ∧
      (∀ i j, u.w.elem i j = s.w.elem i j) ∧ (∀ i j, u.d.elem i j = s.d.elem i j) ∧ u.ctl = s.ctl ∧
      u.bufIndex = (autoinc s).bufIndex ∧ u.whold = s.whold ∧ u.rhold = s.rhold ∧ u.basisValid = s.basisValid ∧
      u.cfg = s.cfg ∧ u.cursor = s.cursor ∧ u.blocksDone = s.blocksDone ∧ u.irqEnable = s.irqEnable ∧
      u.irqStatus = s.irqStatus ∧ SameErrors s u ∧ SameMemory s u ∧ SameWorld s u ∧
      writeReg .bufDataHi hi s = .next s) ∧
    (s.bufIndex.sel = .d ∨ s.bufIndex.sel = .reserved →
      writeReg .bufDataLo lo s = .next { s with whold := lo } ∧ writeReg .bufDataHi hi s = .next s)

/-- R115, R116: reads of the buffer window.  On an idle engine, with SEL = 0 or 2 a read of BUF_DATA_LO and then of BUF_DATA_HI
returns both halves of the element as it was at the LO read, even if W and D change between, and 0 outside the buffers; with
SEL = 1 a read of BUF_DATA_LO returns the sample; every other read, and every read while BUSY = 1, returns 0 with no side
effect. -/
def Obligations.WindowReadsReturnTheSelectedElement : Prop :=
  ∀ (s : State) (w' d' : Mat F64),
    (s.ctl.busy = false → s.bufIndex.sel = .w ∨ s.bufIndex.sel = .d →
      (readReg .bufDataHi { (readReg .bufDataLo s).2 with w := w', d := d' }).1 ++ (readReg .bufDataLo s).1 =
        (if s.bufIndex.row.toNat < Config.nMax ∧ s.bufIndex.col.toNat < Config.nMax then
          (if s.bufIndex.sel = .w then s.w else s.d).elem s.bufIndex.row.toNat s.bufIndex.col.toNat
        else 0x0000000000000000#64) ∧
      (readReg .bufDataLo s).2 = { s with rhold := (readReg .bufDataLo s).2.rhold } ∧
      readReg .bufDataHi s = (s.rhold, autoinc s)) ∧
    (s.ctl.busy = false → s.bufIndex.sel = .p →
      readReg .bufDataLo s =
        (if s.bufIndex.row.toNat < Config.nMax ∧ s.bufIndex.col.toNat < Config.nMax then
          0#24 ++ s.p.elem s.bufIndex.row.toNat s.bufIndex.col.toNat
        else 0#32, autoinc s) ∧
      readReg .bufDataHi s = (0#32, s)) ∧
    (s.ctl.busy = true ∨ s.bufIndex.sel = .reserved →
      readReg .bufDataLo s = (0#32, s) ∧ readReg .bufDataHi s = (0#32, s))

/-- R117: no host access changes D, but for a CMD write of SOFT_RESET. -/
def Obligations.HostCannotWriteTheBasis : Prop :=
  ∀ (a : HostAccess) (s t : State), hostAccess a s = .next t →
    ¬(a.kind = .write ∧ a.offset = 0x08#8 ∧ a.data = encode .softReset) → t.d = s.d

/-- R113: with AUTOINC = 0 the index stays.  With AUTOINC = 1 it goes to the next element in row-major order over the side Fe,
wraps to (0, 0) after the last, and comes back into the block from any index outside it; nothing else changes. -/
def Obligations.AutoincrementIsRowMajor : Prop :=
  ∀ s : State,
    let fe : Nat := if 1 ≤ s.fInt ∧ s.fInt ≤ Config.nMax then s.f else Config.nMax
    (s.bufIndex.autoinc = false → autoinc s = s) ∧
    (s.bufIndex.autoinc = true → ∃ i j : Nat, i < fe ∧ j < fe ∧
      autoinc s = { s with bufIndex := ⟨BitVec.ofNat 8 j, BitVec.ofNat 8 i, s.bufIndex.sel, true⟩ } ∧
      (s.bufIndex.row.toNat < fe → s.bufIndex.col.toNat < fe →
        i * fe + j = (s.bufIndex.row.toNat * fe + s.bufIndex.col.toNat + 1) % (fe * fe)) ∧
      (fe ≤ s.bufIndex.col.toNat → j = 0 ∧ i = if s.bufIndex.row.toNat + 1 < fe then s.bufIndex.row.toNat + 1 else 0) ∧
      (fe ≤ s.bufIndex.row.toNat → s.bufIndex.col.toNat < fe →
        i = 0 ∧ j = if s.bufIndex.col.toNat + 1 < fe then s.bufIndex.col.toNat + 1 else 0))

/-! ### Arithmetic -/

/-- R11: addition is the exact sum rounded to nearest, ties to even, with gradual underflow; an exact zero sum is +0.0, or −0.0 when
both operands are −0.0.  With a NaN operand, and for infinities of opposite signs, the result is the canonical NaN; an infinity
and a finite value, or two infinities of one sign, give that infinity. -/
def Obligations.AdditionIsCorrectlyRounded : Prop :=
  (∀ (a b : F64) (x y : ℚ), finiteValue a = some x → finiteValue b = some y →
    RoundsTo (x + y) (add64 a b) ∧
    (x + y = 0 → add64 a b =
      if a = 0x8000000000000000#64 ∧ b = 0x8000000000000000#64 then 0x8000000000000000#64 else 0x0000000000000000#64)) ∧
  (∀ a b : F64, IsNaN a ∨ IsNaN b → add64 a b = 0x7FF8000000000000#64) ∧
  add64 0x7FF0000000000000#64 0xFFF0000000000000#64 = 0x7FF8000000000000#64 ∧
  add64 0xFFF0000000000000#64 0x7FF0000000000000#64 = 0x7FF8000000000000#64 ∧
  ∀ i : F64, i = 0x7FF0000000000000#64 ∨ i = 0xFFF0000000000000#64 →
    add64 i i = i ∧ ∀ (b : F64) (y : ℚ), finiteValue b = some y → add64 i b = i ∧ add64 b i = i

/-- R11: multiplication is the exact product rounded to nearest, ties to even, with gradual underflow, and its sign is the
exclusive or of the operands' signs.  With a NaN operand, and for a zero and an infinity, the result is the canonical NaN; an
infinity and a nonzero finite value, or two infinities, give the infinity of that sign. -/
def Obligations.MultiplicationIsCorrectlyRounded : Prop :=
  (∀ (a b : F64) (x y : ℚ), finiteValue a = some x → finiteValue b = some y →
    RoundsTo (x * y) (mul64 a b) ∧ (mul64 a b).getLsbD 63 = (a.getLsbD 63 != b.getLsbD 63)) ∧
  (∀ a b : F64, IsNaN a ∨ IsNaN b → mul64 a b = 0x7FF8000000000000#64) ∧
  ∀ i : F64, i = 0x7FF0000000000000#64 ∨ i = 0xFFF0000000000000#64 →
    (∀ z : F64, z = 0x0000000000000000#64 ∨ z = 0x8000000000000000#64 →
      mul64 i z = 0x7FF8000000000000#64 ∧ mul64 z i = 0x7FF8000000000000#64) ∧
    ∀ b : F64, (b = 0x7FF0000000000000#64 ∨ b = 0xFFF0000000000000#64 ∨ ∃ y : ℚ, finiteValue b = some y ∧ y ≠ 0) →
      mul64 i b = (if i.getLsbD 63 = b.getLsbD 63 then 0x7FF0000000000000#64 else 0xFFF0000000000000#64) ∧
      mul64 b i = mul64 i b

/-- R13: a sample is converted exactly. -/
def Obligations.SamplesConvertExactly : Prop := ∀ v : Byte, finiteValue (toF64 v) = some (v.toNat : ℚ)

/-- R15: every basis element is the binary64 value nearest to α_l · cos(l·π·(2j + 1) / (2n)), and an exact zero is +0.0. -/
def Obligations.BasisIsCorrectlyRounded : Prop :=
  ∀ n l j : Nat, 1 ≤ n → n ≤ Config.nMax → l < n → j < n →
    ∃ v : ℚ, finiteValue (basis n l j) = some v ∧
      (∀ (c : F64) (u : ℚ), finiteValue c = some u →
        |(v : ℝ) - (if l = 0 then 1 / Real.sqrt n else Real.sqrt (2 / n)) *
            Real.cos (l * Real.pi * (2 * j + 1) / (2 * n))| ≤
          |(u : ℝ) - (if l = 0 then 1 / Real.sqrt n else Real.sqrt (2 / n)) *
            Real.cos (l * Real.pi * (2 * j + 1) / (2 * n))|) ∧
      (Real.cos (l * Real.pi * (2 * j + 1) / (2 * n)) = 0 → basis n l j = 0x0000000000000000#64)
end

