-- ==== Sys2Proof/Laws/Buffers.lean ====
section
/-! SUPPORT. The laws of the working buffers: which element an update gives. -/

namespace Sys2Proof.Machine

variable {n : Nat}

theorem Mat.elem_tab (g : Nat → Nat → BitVec n) {i j : Nat} (hi : i < Config.nMax) (hj : j < Config.nMax) :
    (Mat.tab g).elem i j = g i j := by
  simp [Mat.elem, Mat.tab, hi, hj]

theorem Mat.elem_outside (m : Mat (BitVec n)) {i j : Nat} (h : ¬(i < Config.nMax ∧ j < Config.nMax)) :
    m.elem i j = 0#n := by
  simp [Mat.elem, h]

/-- Two buffers with the same elements are the same buffer. -/
theorem Mat.ext_elem {m m' : Mat (BitVec n)}
    (h : ∀ i j, i < Config.nMax → j < Config.nMax → m.elem i j = m'.elem i j) : m = m' := by
  ext i hi j hj : 2
  have := h i j hi hj
  simpa [Mat.elem, hi, hj] using this

/-- The elements after an update of the F × F block, for F within the buffers (R18). -/
theorem Mat.elem_setBlock {f : Nat} (hf : f ≤ Config.nMax) (g : Nat → Nat → BitVec n) (m : Mat (BitVec n)) (i j : Nat) :
    (m.setBlock f g).elem i j = if i < f ∧ j < f then g i j else m.elem i j := by
  by_cases h : i < Config.nMax ∧ j < Config.nMax
  · exact Mat.elem_tab _ h.1 h.2
  · have hf' : ¬(i < f ∧ j < f) := by omega
    rw [Mat.elem_outside _ h, if_neg hf', Mat.elem_outside _ h]

/-- The elements after a row-major fill of the F × F block. -/
theorem Mat.elem_fillBlock {f : Nat} (hf : f ≤ Config.nMax) (vs : List (BitVec n)) (m : Mat (BitVec n)) (i j : Nat) :
    (m.fillBlock f vs).elem i j = if i < f ∧ j < f then (vs[i * f + j]?).getD (m.elem i j) else m.elem i j := by
  by_cases h : i < Config.nMax ∧ j < Config.nMax
  · exact Mat.elem_tab _ h.1 h.2
  · have hf' : ¬(i < f ∧ j < f) := by omega
    rw [Mat.elem_outside _ h, if_neg hf', Mat.elem_outside _ h]

/-- The elements after an update of one element. -/
theorem Mat.elem_setElem (m : Mat (BitVec n)) {a b : Nat} (ha : a < Config.nMax) (hb : b < Config.nMax) (v : BitVec n)
    (i j : Nat) : (m.setElem a b v).elem i j = if i = a ∧ j = b then v else m.elem i j := by
  by_cases h : i < Config.nMax ∧ j < Config.nMax
  · exact Mat.elem_tab _ h.1 h.2
  · have hf' : ¬(i = a ∧ j = b) := by omega
    rw [Mat.elem_outside _ h, if_neg hf', Mat.elem_outside _ h]

/-- The elements after a column pass (R74, R81). -/
theorem elem_colPass {f : Nat} (hf : f ≤ Config.nMax) (a : Nat → Nat → F64) (w : Mat F64) (i j : Nat) :
    (colPass f a w).elem i j =
      if i < f ∧ j < f then dot f (fun t => a i t) (fun t => w.elem t j) else w.elem i j :=
  Mat.elem_setBlock hf _ w i j

/-- The elements after a row pass (R75, R82). -/
theorem elem_rowPass {f : Nat} (hf : f ≤ Config.nMax) (a : Nat → Nat → F64) (w : Mat F64) (i j : Nat) :
    (rowPass f a w).elem i j =
      if i < f ∧ j < f then dot f (fun t => w.elem i t) (fun t => a t j) else w.elem i j :=
  Mat.elem_setBlock hf _ w i j

/-- The terms of a dot product matter only below its length. -/
theorem dot_congr {k : Nat} {a a' b b' : Nat → F64} (ha : ∀ t, t < k → a t = a' t) (hb : ∀ t, t < k → b t = b' t) :
    dot k a b = dot k a' b' := by
  unfold dot
  refine List.foldl_ext _ _ _ fun acc t ht => ?_
  rw [ha t (List.mem_range.mp ht), hb t (List.mem_range.mp ht)]

/-! ### The index pairs of a block -/

theorem mem_blockPairs {f : Nat} {e : Nat × Nat} : e ∈ blockPairs f ↔ e.1 < f ∧ e.2 < f := by
  obtain ⟨i, j⟩ := e
  simp [blockPairs]

theorem blockPairs_length (f : Nat) : (blockPairs f).length = f * f := by
  simp [blockPairs, List.length_flatMap]

theorem blockPairs_nodup (f : Nat) : (blockPairs f).Nodup := by
  have : blockPairs f = (List.range f) ×ˢ (List.range f) := rfl
  rw [this]
  exact List.Nodup.product List.nodup_range List.nodup_range

/-- The pair at position k of the row-major order is (k / f, k % f) (R54). -/
theorem blockPairs_getElem? {f k : Nat} (hk : k < f * f) : (blockPairs f)[k]? = some (k / f, k % f) := by
  have hf : 0 < f := Nat.pos_of_ne_zero fun h => by simp [h] at hk
  have key : ∀ (l : List Nat) (k : Nat), k < l.length * f →
      (l.flatMap fun i => (List.range f).map fun j => (i, j))[k]? = (l[k / f]?).map fun i => (i, k % f) := by
    intro l
    induction l with
    | nil => intro k h; simp at h
    | cons x l ih =>
      intro k h
      rw [List.flatMap_cons, List.getElem?_append]
      simp only [List.length_map, List.length_range]
      split
      · next hlt => simp [Nat.div_eq_of_lt hlt, Nat.mod_eq_of_lt hlt, hlt]
      · next hge =>
        have hge : f ≤ k := by omega
        rw [ih (k - f) (by simp [Nat.add_mul] at h; omega)]
        have h1 : k / f = (k - f) / f + 1 := by
          rw [Nat.div_eq_sub_div hf hge]
        have h2 : (k - f) % f = k % f := by
          rw [Nat.mod_eq_sub_mod hge]
        rw [h1, h2, List.getElem?_cons_succ]
  have hlt : k / f < f := (Nat.div_lt_iff_lt_mul hf).mpr hk
  rw [blockPairs, key _ _ (by simpa using hk)]
  simp [hlt]

end Sys2Proof.Machine
end

