-- ==== Sys2Proof/Laws/Memory.lean ====
section
/-! SUPPORT. The laws of the shared byte memory: read after write, and the canonical form. -/

namespace Sys2Proof.Machine

theorem Memory.read_cons (a b : Nat) (v : Byte) (m : Memory) (h : Memory.wfFrom (a + 1) m) :
    (Memory.cons a v m).read b = if b = a then v else m.read b := by
  have miss : ∀ (n : Nat) (m : Memory), Memory.wfFrom n m → ∀ b, b < n → m.read b = Memory.unlisted := by
    intro n m
    induction m generalizing n with
    | nil => intros; rfl
    | cons c m ih =>
      obtain ⟨k, u⟩ := c
      intro hm b hb
      simp only [Memory.wfFrom, Bool.and_eq_true, decide_eq_true_eq] at hm
      have : b ≠ k := by omega
      simp only [Memory.read, this, if_false]
      exact ih (k + 1) hm.2 b (by omega)
  unfold Memory.cons
  split
  · next hv =>
    split
    · next hb => rw [hb, hv]; exact miss _ _ h a (by omega)
    · rfl
  · simp [Memory.read]

theorem Memory.wfFrom_mono {n k : Nat} {m : Memory} (hnk : n ≤ k) (h : Memory.wfFrom k m) : Memory.wfFrom n m := by
  cases m with
  | nil => rfl
  | cons c m =>
    obtain ⟨a, v⟩ := c
    simp only [Memory.wfFrom, Bool.and_eq_true, decide_eq_true_eq] at h ⊢
    exact ⟨⟨by omega, h.1.2⟩, h.2⟩

theorem Memory.wfFrom_consCell {n a : Nat} {v : Byte} {m : Memory} (hna : n ≤ a) (h : Memory.wfFrom (a + 1) m) :
    Memory.wfFrom n (Memory.cons a v m) := by
  unfold Memory.cons
  split
  · exact Memory.wfFrom_mono (by omega) h
  · next hv => simp [Memory.wfFrom, hna, hv, h]

theorem Memory.wfFrom_write {n : Nat} {m : Memory} (h : Memory.wfFrom n m) {a : Nat} (hna : n ≤ a) (v : Byte) :
    Memory.wfFrom n (m.write a v) := by
  induction m generalizing n with
  | nil => exact Memory.wfFrom_consCell hna rfl
  | cons c m ih =>
    obtain ⟨k, u⟩ := c
    have hc := h
    simp only [Memory.wfFrom, Bool.and_eq_true, decide_eq_true_eq] at h
    obtain ⟨⟨hnk, hu⟩, hm⟩ := h
    simp only [Memory.write]
    split
    · next hak =>
      refine Memory.wfFrom_consCell hna ?_
      simp only [Memory.wfFrom, Bool.and_eq_true, decide_eq_true_eq]
      exact ⟨⟨by omega, hu⟩, hm⟩
    · split
      · next hk => exact Memory.wfFrom_consCell hna (by rw [hk]; exact hm)
      · have := ih hm (n := k + 1) (by omega)
        simp [Memory.wfFrom, hnk, hu, this]

/-- A write keeps the canonical form of memory. -/
theorem Memory.wf_write {m : Memory} (h : m.wf) (a : Nat) (v : Byte) : (m.write a v).wf :=
  Memory.wfFrom_write h (Nat.zero_le a) v

theorem Memory.read_write_from {n : Nat} {m : Memory} (h : Memory.wfFrom n m) (a b : Nat) (v : Byte) :
    (m.write a v).read b = if b = a then v else m.read b := by
  induction m generalizing n with
  | nil => rw [Memory.write, Memory.read_cons _ _ _ _ rfl]
  | cons c m ih =>
    obtain ⟨k, u⟩ := c
    simp only [Memory.wfFrom, Bool.and_eq_true, decide_eq_true_eq] at h
    obtain ⟨⟨hnk, hu⟩, hm⟩ := h
    simp only [Memory.write]
    split
    · next hak =>
      rw [Memory.read_cons]
      simp only [Memory.wfFrom, Bool.and_eq_true, decide_eq_true_eq]
      exact ⟨⟨by omega, hu⟩, hm⟩
    · split
      · next hk =>
        rw [Memory.read_cons _ _ _ _ (by rw [hk]; exact hm)]
        by_cases hb : b = a
        · simp [hb]
        · have : b ≠ k := by omega
          simp [hb, Memory.read, this]
      · next h1 h2 =>
        simp only [Memory.read]
        by_cases hb : b = k
        · have : b ≠ a := by omega
          simp [hb]
          omega
        · simp only [hb, if_false]
          exact ih hm

/-- Read after write: the byte written, and every other byte as before. -/
theorem Memory.read_write {m : Memory} (h : m.wf) (a b : Nat) (v : Byte) :
    (m.write a v).read b = if b = a then v else m.read b :=
  Memory.read_write_from h a b v

theorem Memory.read_of_lt {n : Nat} {m : Memory} (h : Memory.wfFrom n m) {b : Nat} (hb : b < n) :
    m.read b = Memory.unlisted := by
  induction m generalizing n with
  | nil => rfl
  | cons c m ih =>
    obtain ⟨k, u⟩ := c
    simp only [Memory.wfFrom, Bool.and_eq_true, decide_eq_true_eq] at h
    have : b ≠ k := by omega
    simp only [Memory.read, this, if_false]
    exact ih h.2 (by omega)

theorem Memory.ext_from {m m' : Memory} {n n' : Nat} (h : Memory.wfFrom n m) (h' : Memory.wfFrom n' m')
    (hr : ∀ a, m.read a = m'.read a) : m = m' := by
  induction m generalizing m' n n' with
  | nil =>
    cases m' with
    | nil => rfl
    | cons c m' =>
      obtain ⟨k, u⟩ := c
      simp only [Memory.wfFrom, Bool.and_eq_true, decide_eq_true_eq] at h'
      have := hr k
      simp [Memory.read] at this
      exact absurd this.symm h'.1.2
  | cons c m ih =>
    obtain ⟨k, u⟩ := c
    simp only [Memory.wfFrom, Bool.and_eq_true, decide_eq_true_eq] at h
    obtain ⟨⟨hnk, hu⟩, hm⟩ := h
    cases m' with
    | nil =>
      have := hr k
      simp [Memory.read] at this
      exact absurd this hu
    | cons c' m' =>
      obtain ⟨k', u'⟩ := c'
      simp only [Memory.wfFrom, Bool.and_eq_true, decide_eq_true_eq] at h'
      obtain ⟨⟨hnk', hu'⟩, hm'⟩ := h'
      have hkk : k = k' := by
        rcases Nat.lt_trichotomy k k' with hlt | heq | hgt
        · have := hr k
          have hne : k ≠ k' := by omega
          simp only [Memory.read, if_true, hne, if_false] at this
          rw [Memory.read_of_lt hm' (by omega)] at this
          exact absurd this hu
        · exact heq
        · have := hr k'
          have hne : k' ≠ k := by omega
          simp only [Memory.read, if_true, hne, if_false] at this
          rw [Memory.read_of_lt hm (by omega)] at this
          exact absurd this.symm hu'
      subst hkk
      have huu : u = u' := by
        have := hr k
        simpa [Memory.read] using this
      subst huu
      congr 1
      refine ih hm hm' fun a => ?_
      by_cases ha : a = k
      · rw [ha, Memory.read_of_lt hm (by omega), Memory.read_of_lt hm' (by omega)]
      · have := hr a
        simpa [Memory.read, ha] using this

/-- Two memories in canonical form that read alike at every address are the same data. -/
theorem Memory.ext_of_read {m m' : Memory} (h : m.wf) (h' : m'.wf) (hr : ∀ a, m.read a = m'.read a) : m = m' :=
  Memory.ext_from h h' hr

end Sys2Proof.Machine
end

