-- ==== Sys2Proof/Laws/Dma.lean ====
section
/-! SUPPORT. The laws of the DMA port: what a run of reads or writes gives, with or without an error response. -/

namespace Sys2Proof.Machine

variable {s : State}

theorem dmaStop_none {k : AccessKind} {a : Nat} :
    s.dmaStop k a = none ↔ a < 2 ^ Config.addrW ∧ s.busError k a = false := by
  unfold State.dmaStop
  split
  · simp; omega
  · split <;> simp_all

theorem dmaStop_congr {t : State} (h : t.busErrors = s.busErrors) (k : AccessKind) (a : Nat) :
    t.dmaStop k a = s.dmaStop k a := by
  simp [State.dmaStop, State.busError, h]

/-! ### Reads -/

/-- Reads none of which fails give every byte. -/
theorem readBytes_all {as : List Nat} (h : ∀ a ∈ as, s.dmaStop .read a = none) :
    s.readBytes as = (as.map s.mem.read, none) := by
  induction as with
  | nil => rfl
  | cons a as ih =>
    simp only [State.readBytes, h a (by simp), ih fun b hb => h b (by simp [hb]), List.map_cons]

/-- Reads up to the first that fails give the bytes before it. -/
theorem readBytes_stop {as bs : List Nat} {a : Nat} {e : DmaStop} (h : ∀ b ∈ as, s.dmaStop .read b = none)
    (he : s.dmaStop .read a = some e) : s.readBytes (as ++ a :: bs) = (as.map s.mem.read, some e) := by
  induction as with
  | nil => simp [State.readBytes, he]
  | cons b as ih =>
    simp only [List.cons_append, State.readBytes, h b (by simp), ih fun c hc => h c (by simp [hc]), List.map_cons]

/-- How a run of reads ends: every read succeeds, or the first failing one splits the list. -/
theorem readBytes_cases (s : State) (as : List Nat) :
    ((∀ a ∈ as, s.dmaStop .read a = none) ∧ s.readBytes as = (as.map s.mem.read, none)) ∨
    (∃ xs a ys e, as = xs ++ a :: ys ∧ (∀ b ∈ xs, s.dmaStop .read b = none) ∧ s.dmaStop .read a = some e ∧
      s.readBytes as = (xs.map s.mem.read, some e)) := by
  induction as with
  | nil => exact .inl ⟨by simp, rfl⟩
  | cons a as ih =>
    cases he : s.dmaStop .read a with
    | some e => exact .inr ⟨[], a, as, e, rfl, by simp, he, by simp [State.readBytes, he]⟩
    | none =>
      rcases ih with ⟨h, hr⟩ | ⟨xs, b, ys, e, hs, hx, hb, hr⟩
      · exact .inl ⟨by simpa [he] using h, by simp [State.readBytes, he, hr]⟩
      · exact .inr ⟨a :: xs, b, ys, e, by simp [hs], by simpa [he] using hx, hb, by simp [State.readBytes, he, hr]⟩

/-- What a run of reads gives depends on the bus errors and on the bytes read alone. -/
theorem readBytes_congr {t : State} {as : List Nat} (hb : t.busErrors = s.busErrors)
    (hm : ∀ a ∈ as, t.mem.read a = s.mem.read a) : t.readBytes as = s.readBytes as := by
  induction as with
  | nil => rfl
  | cons a as ih =>
    simp only [State.readBytes, dmaStop_congr hb, hm a (by simp), ih fun b h => hm b (by simp [h])]

/-! ### Writes -/

/-- The memory after bytes are written one after another. -/
def writeAll (cells : List (Nat × Byte)) (m : Memory) : Memory := cells.foldl (fun m c => m.write c.1 c.2) m

@[simp] theorem writeAll_nil (m : Memory) : writeAll [] m = m := rfl

@[simp] theorem writeAll_cons (c : Nat × Byte) (cs : List (Nat × Byte)) (m : Memory) :
    writeAll (c :: cs) m = writeAll cs (m.write c.1 c.2) := rfl

theorem wf_writeAll {m : Memory} (h : m.wf) (cells : List (Nat × Byte)) : (writeAll cells m).wf := by
  induction cells generalizing m with
  | nil => exact h
  | cons c cs ih => exact ih (Memory.wf_write h _ _)

/-- A byte that none of the cells names reads as before. -/
theorem read_writeAll_other {m : Memory} (h : m.wf) {cells : List (Nat × Byte)} {a : Nat}
    (ha : ∀ c ∈ cells, c.1 ≠ a) : (writeAll cells m).read a = m.read a := by
  induction cells generalizing m with
  | nil => rfl
  | cons c cs ih =>
    rw [writeAll_cons, ih (Memory.wf_write h _ _) fun d hd => ha d (by simp [hd]), Memory.read_write h,
      if_neg (Ne.symm (ha c (by simp)))]

/-- A byte that exactly one cell names reads as that cell says. -/
theorem read_writeAll_mem {m : Memory} (h : m.wf) {cells : List (Nat × Byte)} (hn : (cells.map (·.1)).Nodup)
    {c : Nat × Byte} (hc : c ∈ cells) : (writeAll cells m).read c.1 = c.2 := by
  induction cells generalizing m with
  | nil => simp at hc
  | cons d cs ih =>
    simp only [List.map_cons, List.nodup_cons] at hn
    rcases List.mem_cons.mp hc with rfl | hc
    · rw [writeAll_cons, read_writeAll_other (Memory.wf_write h _ _), Memory.read_write h, if_pos rfl]
      intro e he heq
      exact hn.1 (heq ▸ List.mem_map_of_mem (f := (·.1)) he)
    · exact ih (Memory.wf_write h _ _) hn.2 hc

/-- How a run of writes ends: every write succeeds, or the first failing one splits the list. -/
theorem writeBytes_cases (s : State) (cells : List (Nat × Byte)) (m : Memory) :
    ((∀ c ∈ cells, s.dmaStop .write c.1 = none) ∧ s.writeBytes cells m = (writeAll cells m, none)) ∨
    (∃ xs c ys e, cells = xs ++ c :: ys ∧ (∀ b ∈ xs, s.dmaStop .write b.1 = none) ∧ s.dmaStop .write c.1 = some e ∧
      s.writeBytes cells m = (writeAll xs m, some e)) := by
  induction cells generalizing m with
  | nil => exact .inl ⟨by simp, rfl⟩
  | cons c cs ih =>
    obtain ⟨a, v⟩ := c
    cases he : s.dmaStop .write a with
    | some e => exact .inr ⟨[], (a, v), cs, e, rfl, by simp, he, by simp [State.writeBytes, he]⟩
    | none =>
      rcases ih (m.write a v) with ⟨h, hr⟩ | ⟨xs, b, ys, e, hs, hx, hb, hr⟩
      · exact .inl ⟨by simpa [he] using h, by simp [State.writeBytes, he, hr]⟩
      · exact .inr ⟨(a, v) :: xs, b, ys, e, by simp [hs], by simpa [he] using hx, hb, by simp [State.writeBytes, he, hr]⟩

/-- Writes none of which fails write every byte. -/
theorem writeBytes_all {cells : List (Nat × Byte)} (m : Memory) (h : ∀ c ∈ cells, s.dmaStop .write c.1 = none) :
    s.writeBytes cells m = (writeAll cells m, none) := by
  induction cells generalizing m with
  | nil => rfl
  | cons c cs ih =>
    obtain ⟨a, v⟩ := c
    have : s.dmaStop .write a = none := h (a, v) (by simp)
    simp only [State.writeBytes, this, writeAll_cons, ih _ fun d hd => h d (by simp [hd])]

theorem wf_writeBytes {m : Memory} (h : m.wf) (cells : List (Nat × Byte)) : (s.writeBytes cells m).1.wf := by
  rcases writeBytes_cases s cells m with ⟨-, hr⟩ | ⟨xs, c, ys, e, -, -, -, hr⟩ <;> rw [hr]
  · exact wf_writeAll h _
  · exact wf_writeAll h _

/-! ### The loops of LOAD_BLOCK and STORE_BLOCK -/

/-- What LOAD_BLOCK's loop can do (R89): it ends, or a read fails, and in each case P and W hold the bytes read so far. -/
theorem loadBlockOn_cases (s : State) :
    (∃ bytes : List Byte, ∃ stop : Option DmaStop, s.readBytes s.srcAddrs = (bytes, stop) ∧
      loadBlockOn s =
        match stop with
        | none => .done { s with p := s.p.fillBlock s.f bytes, w := s.w.fillBlock s.f (bytes.map toF64) }
        | some (.busError a) =>
          .raised ⟨.busRead, a⟩ { s with p := s.p.fillBlock s.f bytes, w := s.w.fillBlock s.f (bytes.map toF64) }
        | some .outside => .stopped .dmaAddressOutsideMem) :=
  ⟨_, _, rfl, rfl⟩

/-- What STORE_BLOCK's loop can do (R90): it ends, or a write fails, and in each case memory holds the bytes written so far. -/
theorem storeBlockOn_cases (s : State) :
    (∃ m : Memory, ∃ stop : Option DmaStop, s.writeBytes s.dstCells s.mem = (m, stop) ∧
      storeBlockOn s =
        match stop with
        | none => .done { s with mem := m }
        | some (.busError a) => .raised ⟨.busWrite, a⟩ { s with mem := m }
        | some .outside => .stopped .dmaAddressOutsideMem) :=
  ⟨_, _, rfl, rfl⟩

end Sys2Proof.Machine
end

