-- ==== Sys2Proof/Laws/State.lean ====
section
/-! SUPPORT. One lemma per field for every shared state update: what the update leaves unchanged, and what it writes. -/

namespace Sys2Proof.Machine

variable (s : State)

@[simp] theorem complete_cfg : (complete s).cfg = s.cfg := rfl
@[simp] theorem complete_cursor : (complete s).cursor = s.cursor := rfl
@[simp] theorem complete_blocksDone : (complete s).blocksDone = s.blocksDone := rfl
@[simp] theorem complete_bufIndex : (complete s).bufIndex = s.bufIndex := rfl
@[simp] theorem complete_irqEnable : (complete s).irqEnable = s.irqEnable := rfl
@[simp] theorem complete_errCode : (complete s).errCode = s.errCode := rfl
@[simp] theorem complete_errAddr : (complete s).errAddr = s.errAddr := rfl
@[simp] theorem complete_errMulti : (complete s).errMulti = s.errMulti := rfl
@[simp] theorem complete_basisValid : (complete s).basisValid = s.basisValid := rfl
@[simp] theorem complete_lockedWrite : (complete s).lockedWrite = s.lockedWrite := rfl
@[simp] theorem complete_whold : (complete s).whold = s.whold := rfl
@[simp] theorem complete_rhold : (complete s).rhold = s.rhold := rfl
@[simp] theorem complete_p : (complete s).p = s.p := rfl
@[simp] theorem complete_w : (complete s).w = s.w := rfl
@[simp] theorem complete_d : (complete s).d = s.d := rfl
@[simp] theorem complete_mem : (complete s).mem = s.mem := rfl
@[simp] theorem complete_busErrors : (complete s).busErrors = s.busErrors := rfl
@[simp] theorem complete_inputs : (complete s).inputs = s.inputs := rfl
@[simp] theorem complete_resp : (complete s).resp = s.resp := rfl
@[simp] theorem complete_draw : (complete s).draw = s.draw := rfl
@[simp] theorem complete_memBefore : (complete s).memBefore = s.memBefore := rfl
@[simp] theorem complete_ctl : (complete s).ctl = Ctl.idle := rfl
@[simp] theorem complete_irqStatus : (complete s).irqStatus = { s.irqStatus with done := true } := rfl

@[simp] theorem accept_cfg (i : Instr) : (accept i s).cfg = s.cfg := rfl
@[simp] theorem accept_cursor (i : Instr) : (accept i s).cursor = s.cursor := rfl
@[simp] theorem accept_blocksDone (i : Instr) : (accept i s).blocksDone = s.blocksDone := rfl
@[simp] theorem accept_bufIndex (i : Instr) : (accept i s).bufIndex = s.bufIndex := rfl
@[simp] theorem accept_irqEnable (i : Instr) : (accept i s).irqEnable = s.irqEnable := rfl
@[simp] theorem accept_irqStatus (i : Instr) : (accept i s).irqStatus = s.irqStatus := rfl
@[simp] theorem accept_errCode (i : Instr) : (accept i s).errCode = s.errCode := rfl
@[simp] theorem accept_errAddr (i : Instr) : (accept i s).errAddr = s.errAddr := rfl
@[simp] theorem accept_errMulti (i : Instr) : (accept i s).errMulti = s.errMulti := rfl
@[simp] theorem accept_basisValid (i : Instr) : (accept i s).basisValid = s.basisValid := rfl
@[simp] theorem accept_lockedWrite (i : Instr) : (accept i s).lockedWrite = s.lockedWrite := rfl
@[simp] theorem accept_whold (i : Instr) : (accept i s).whold = s.whold := rfl
@[simp] theorem accept_rhold (i : Instr) : (accept i s).rhold = s.rhold := rfl
@[simp] theorem accept_p (i : Instr) : (accept i s).p = s.p := rfl
@[simp] theorem accept_w (i : Instr) : (accept i s).w = s.w := rfl
@[simp] theorem accept_d (i : Instr) : (accept i s).d = s.d := rfl
@[simp] theorem accept_mem (i : Instr) : (accept i s).mem = s.mem := rfl
@[simp] theorem accept_busErrors (i : Instr) : (accept i s).busErrors = s.busErrors := rfl
@[simp] theorem accept_inputs (i : Instr) : (accept i s).inputs = s.inputs := rfl
@[simp] theorem accept_resp (i : Instr) : (accept i s).resp = s.resp := rfl
@[simp] theorem accept_draw (i : Instr) : (accept i s).draw = s.draw := rfl
@[simp] theorem accept_memBefore (i : Instr) : (accept i s).memBefore = s.mem := rfl
@[simp] theorem accept_ctl (i : Instr) : (accept i s).ctl = { s.ctl with busy := true, curCmd := opcodeOf i, phase := .validate } := rfl

@[simp] theorem clearError_cfg : (clearError s).cfg = s.cfg := rfl
@[simp] theorem clearError_cursor : (clearError s).cursor = s.cursor := rfl
@[simp] theorem clearError_blocksDone : (clearError s).blocksDone = s.blocksDone := rfl
@[simp] theorem clearError_bufIndex : (clearError s).bufIndex = s.bufIndex := rfl
@[simp] theorem clearError_irqEnable : (clearError s).irqEnable = s.irqEnable := rfl
@[simp] theorem clearError_irqStatus : (clearError s).irqStatus = s.irqStatus := rfl
@[simp] theorem clearError_basisValid : (clearError s).basisValid = s.basisValid := rfl
@[simp] theorem clearError_ctl : (clearError s).ctl = s.ctl := rfl
@[simp] theorem clearError_whold : (clearError s).whold = s.whold := rfl
@[simp] theorem clearError_rhold : (clearError s).rhold = s.rhold := rfl
@[simp] theorem clearError_p : (clearError s).p = s.p := rfl
@[simp] theorem clearError_w : (clearError s).w = s.w := rfl
@[simp] theorem clearError_d : (clearError s).d = s.d := rfl
@[simp] theorem clearError_mem : (clearError s).mem = s.mem := rfl
@[simp] theorem clearError_busErrors : (clearError s).busErrors = s.busErrors := rfl
@[simp] theorem clearError_inputs : (clearError s).inputs = s.inputs := rfl
@[simp] theorem clearError_resp : (clearError s).resp = s.resp := rfl
@[simp] theorem clearError_draw : (clearError s).draw = s.draw := rfl
@[simp] theorem clearError_memBefore : (clearError s).memBefore = s.memBefore := rfl
@[simp] theorem clearError_errCode : (clearError s).errCode = none := rfl
@[simp] theorem clearError_errAddr : (clearError s).errAddr = 0#32 := rfl
@[simp] theorem clearError_errMulti : (clearError s).errMulti = false := rfl
@[simp] theorem clearError_lockedWrite : (clearError s).lockedWrite = false := rfl

@[simp] theorem record_cfg (c : Cause) (o : Byte) (a : Nat) : (record c o a s).cfg = s.cfg := by unfold record; split <;> rfl
@[simp] theorem record_cursor (c : Cause) (o : Byte) (a : Nat) : (record c o a s).cursor = s.cursor := by unfold record; split <;> rfl
@[simp] theorem record_blocksDone (c : Cause) (o : Byte) (a : Nat) : (record c o a s).blocksDone = s.blocksDone := by unfold record; split <;> rfl
@[simp] theorem record_bufIndex (c : Cause) (o : Byte) (a : Nat) : (record c o a s).bufIndex = s.bufIndex := by unfold record; split <;> rfl
@[simp] theorem record_irqEnable (c : Cause) (o : Byte) (a : Nat) : (record c o a s).irqEnable = s.irqEnable := by unfold record; split <;> rfl
@[simp] theorem record_basisValid (c : Cause) (o : Byte) (a : Nat) : (record c o a s).basisValid = s.basisValid := by unfold record; split <;> rfl
@[simp] theorem record_lockedWrite (c : Cause) (o : Byte) (a : Nat) : (record c o a s).lockedWrite = s.lockedWrite := by unfold record; split <;> rfl
@[simp] theorem record_ctl (c : Cause) (o : Byte) (a : Nat) : (record c o a s).ctl = s.ctl := by unfold record; split <;> rfl
@[simp] theorem record_whold (c : Cause) (o : Byte) (a : Nat) : (record c o a s).whold = s.whold := by unfold record; split <;> rfl
@[simp] theorem record_rhold (c : Cause) (o : Byte) (a : Nat) : (record c o a s).rhold = s.rhold := by unfold record; split <;> rfl
@[simp] theorem record_p (c : Cause) (o : Byte) (a : Nat) : (record c o a s).p = s.p := by unfold record; split <;> rfl
@[simp] theorem record_w (c : Cause) (o : Byte) (a : Nat) : (record c o a s).w = s.w := by unfold record; split <;> rfl
@[simp] theorem record_d (c : Cause) (o : Byte) (a : Nat) : (record c o a s).d = s.d := by unfold record; split <;> rfl
@[simp] theorem record_mem (c : Cause) (o : Byte) (a : Nat) : (record c o a s).mem = s.mem := by unfold record; split <;> rfl
@[simp] theorem record_busErrors (c : Cause) (o : Byte) (a : Nat) : (record c o a s).busErrors = s.busErrors := by unfold record; split <;> rfl
@[simp] theorem record_inputs (c : Cause) (o : Byte) (a : Nat) : (record c o a s).inputs = s.inputs := by unfold record; split <;> rfl
@[simp] theorem record_resp (c : Cause) (o : Byte) (a : Nat) : (record c o a s).resp = s.resp := by unfold record; split <;> rfl
@[simp] theorem record_draw (c : Cause) (o : Byte) (a : Nat) : (record c o a s).draw = s.draw := by unfold record; split <;> rfl
@[simp] theorem record_memBefore (c : Cause) (o : Byte) (a : Nat) : (record c o a s).memBefore = s.memBefore := by unfold record; split <;> rfl
@[simp] theorem record_irqStatus (c : Cause) (o : Byte) (a : Nat) : (record c o a s).irqStatus = { s.irqStatus with err := true } := by unfold record; split <;> rfl

@[simp] theorem errorEnd_cfg (e : Raised) : (errorEnd e s).cfg = s.cfg := by simp [errorEnd]
@[simp] theorem errorEnd_cursor (e : Raised) : (errorEnd e s).cursor = s.cursor := by simp [errorEnd]
@[simp] theorem errorEnd_blocksDone (e : Raised) : (errorEnd e s).blocksDone = s.blocksDone := by simp [errorEnd]
@[simp] theorem errorEnd_bufIndex (e : Raised) : (errorEnd e s).bufIndex = s.bufIndex := by simp [errorEnd]
@[simp] theorem errorEnd_irqEnable (e : Raised) : (errorEnd e s).irqEnable = s.irqEnable := by simp [errorEnd]
@[simp] theorem errorEnd_basisValid (e : Raised) : (errorEnd e s).basisValid = s.basisValid := by simp [errorEnd]
@[simp] theorem errorEnd_lockedWrite (e : Raised) : (errorEnd e s).lockedWrite = s.lockedWrite := by simp [errorEnd]
@[simp] theorem errorEnd_whold (e : Raised) : (errorEnd e s).whold = s.whold := by simp [errorEnd]
@[simp] theorem errorEnd_rhold (e : Raised) : (errorEnd e s).rhold = s.rhold := by simp [errorEnd]
@[simp] theorem errorEnd_p (e : Raised) : (errorEnd e s).p = s.p := by simp [errorEnd]
@[simp] theorem errorEnd_w (e : Raised) : (errorEnd e s).w = s.w := by simp [errorEnd]
@[simp] theorem errorEnd_d (e : Raised) : (errorEnd e s).d = s.d := by simp [errorEnd]
@[simp] theorem errorEnd_mem (e : Raised) : (errorEnd e s).mem = s.mem := by simp [errorEnd]
@[simp] theorem errorEnd_busErrors (e : Raised) : (errorEnd e s).busErrors = s.busErrors := by simp [errorEnd]
@[simp] theorem errorEnd_inputs (e : Raised) : (errorEnd e s).inputs = s.inputs := by simp [errorEnd]
@[simp] theorem errorEnd_resp (e : Raised) : (errorEnd e s).resp = s.resp := by simp [errorEnd]
@[simp] theorem errorEnd_draw (e : Raised) : (errorEnd e s).draw = s.draw := by simp [errorEnd]
@[simp] theorem errorEnd_memBefore (e : Raised) : (errorEnd e s).memBefore = s.memBefore := by simp [errorEnd]
@[simp] theorem errorEnd_ctl (e : Raised) : (errorEnd e s).ctl = Ctl.idle := rfl

@[simp] theorem buildBasisOn_cfg : (buildBasisOn s).cfg = s.cfg := by simp only [buildBasisOn]
@[simp] theorem buildBasisOn_cursor : (buildBasisOn s).cursor = s.cursor := by simp only [buildBasisOn]
@[simp] theorem buildBasisOn_blocksDone : (buildBasisOn s).blocksDone = s.blocksDone := by simp only [buildBasisOn]
@[simp] theorem buildBasisOn_bufIndex : (buildBasisOn s).bufIndex = s.bufIndex := by simp only [buildBasisOn]
@[simp] theorem buildBasisOn_irqEnable : (buildBasisOn s).irqEnable = s.irqEnable := by simp only [buildBasisOn]
@[simp] theorem buildBasisOn_irqStatus : (buildBasisOn s).irqStatus = s.irqStatus := by simp only [buildBasisOn]
@[simp] theorem buildBasisOn_errCode : (buildBasisOn s).errCode = s.errCode := by simp only [buildBasisOn]
@[simp] theorem buildBasisOn_errAddr : (buildBasisOn s).errAddr = s.errAddr := by simp only [buildBasisOn]
@[simp] theorem buildBasisOn_errMulti : (buildBasisOn s).errMulti = s.errMulti := by simp only [buildBasisOn]
@[simp] theorem buildBasisOn_lockedWrite : (buildBasisOn s).lockedWrite = s.lockedWrite := by simp only [buildBasisOn]
@[simp] theorem buildBasisOn_ctl : (buildBasisOn s).ctl = s.ctl := by simp only [buildBasisOn]
@[simp] theorem buildBasisOn_whold : (buildBasisOn s).whold = s.whold := by simp only [buildBasisOn]
@[simp] theorem buildBasisOn_rhold : (buildBasisOn s).rhold = s.rhold := by simp only [buildBasisOn]
@[simp] theorem buildBasisOn_p : (buildBasisOn s).p = s.p := by simp only [buildBasisOn]
@[simp] theorem buildBasisOn_w : (buildBasisOn s).w = s.w := by simp only [buildBasisOn]
@[simp] theorem buildBasisOn_mem : (buildBasisOn s).mem = s.mem := by simp only [buildBasisOn]
@[simp] theorem buildBasisOn_busErrors : (buildBasisOn s).busErrors = s.busErrors := by simp only [buildBasisOn]
@[simp] theorem buildBasisOn_inputs : (buildBasisOn s).inputs = s.inputs := by simp only [buildBasisOn]
@[simp] theorem buildBasisOn_resp : (buildBasisOn s).resp = s.resp := by simp only [buildBasisOn]
@[simp] theorem buildBasisOn_draw : (buildBasisOn s).draw = s.draw := by simp only [buildBasisOn]
@[simp] theorem buildBasisOn_memBefore : (buildBasisOn s).memBefore = s.memBefore := by simp only [buildBasisOn]
@[simp] theorem buildBasisOn_d : (buildBasisOn s).d = s.d.setBlock s.f (basis s.f) := by simp [buildBasisOn]
@[simp] theorem buildBasisOn_basisValid : (buildBasisOn s).basisValid = true := by simp [buildBasisOn]

@[simp] theorem fdctColsOn_cfg : (fdctColsOn s).cfg = s.cfg := by simp only [fdctColsOn]
@[simp] theorem fdctColsOn_cursor : (fdctColsOn s).cursor = s.cursor := by simp only [fdctColsOn]
@[simp] theorem fdctColsOn_blocksDone : (fdctColsOn s).blocksDone = s.blocksDone := by simp only [fdctColsOn]
@[simp] theorem fdctColsOn_bufIndex : (fdctColsOn s).bufIndex = s.bufIndex := by simp only [fdctColsOn]
@[simp] theorem fdctColsOn_irqEnable : (fdctColsOn s).irqEnable = s.irqEnable := by simp only [fdctColsOn]
@[simp] theorem fdctColsOn_irqStatus : (fdctColsOn s).irqStatus = s.irqStatus := by simp only [fdctColsOn]
@[simp] theorem fdctColsOn_errCode : (fdctColsOn s).errCode = s.errCode := by simp only [fdctColsOn]
@[simp] theorem fdctColsOn_errAddr : (fdctColsOn s).errAddr = s.errAddr := by simp only [fdctColsOn]
@[simp] theorem fdctColsOn_errMulti : (fdctColsOn s).errMulti = s.errMulti := by simp only [fdctColsOn]
@[simp] theorem fdctColsOn_basisValid : (fdctColsOn s).basisValid = s.basisValid := by simp only [fdctColsOn]
@[simp] theorem fdctColsOn_lockedWrite : (fdctColsOn s).lockedWrite = s.lockedWrite := by simp only [fdctColsOn]
@[simp] theorem fdctColsOn_ctl : (fdctColsOn s).ctl = s.ctl := by simp only [fdctColsOn]
@[simp] theorem fdctColsOn_whold : (fdctColsOn s).whold = s.whold := by simp only [fdctColsOn]
@[simp] theorem fdctColsOn_rhold : (fdctColsOn s).rhold = s.rhold := by simp only [fdctColsOn]
@[simp] theorem fdctColsOn_p : (fdctColsOn s).p = s.p := by simp only [fdctColsOn]
@[simp] theorem fdctColsOn_d : (fdctColsOn s).d = s.d := by simp only [fdctColsOn]
@[simp] theorem fdctColsOn_mem : (fdctColsOn s).mem = s.mem := by simp only [fdctColsOn]
@[simp] theorem fdctColsOn_busErrors : (fdctColsOn s).busErrors = s.busErrors := by simp only [fdctColsOn]
@[simp] theorem fdctColsOn_inputs : (fdctColsOn s).inputs = s.inputs := by simp only [fdctColsOn]
@[simp] theorem fdctColsOn_resp : (fdctColsOn s).resp = s.resp := by simp only [fdctColsOn]
@[simp] theorem fdctColsOn_draw : (fdctColsOn s).draw = s.draw := by simp only [fdctColsOn]
@[simp] theorem fdctColsOn_memBefore : (fdctColsOn s).memBefore = s.memBefore := by simp only [fdctColsOn]
@[simp] theorem fdctColsOn_w : (fdctColsOn s).w = colPass s.f (fun k i => s.d.elem k i) s.w := by simp [fdctColsOn]

@[simp] theorem fdctRowsOn_cfg : (fdctRowsOn s).cfg = s.cfg := by simp only [fdctRowsOn]
@[simp] theorem fdctRowsOn_cursor : (fdctRowsOn s).cursor = s.cursor := by simp only [fdctRowsOn]
@[simp] theorem fdctRowsOn_blocksDone : (fdctRowsOn s).blocksDone = s.blocksDone := by simp only [fdctRowsOn]
@[simp] theorem fdctRowsOn_bufIndex : (fdctRowsOn s).bufIndex = s.bufIndex := by simp only [fdctRowsOn]
@[simp] theorem fdctRowsOn_irqEnable : (fdctRowsOn s).irqEnable = s.irqEnable := by simp only [fdctRowsOn]
@[simp] theorem fdctRowsOn_irqStatus : (fdctRowsOn s).irqStatus = s.irqStatus := by simp only [fdctRowsOn]
@[simp] theorem fdctRowsOn_errCode : (fdctRowsOn s).errCode = s.errCode := by simp only [fdctRowsOn]
@[simp] theorem fdctRowsOn_errAddr : (fdctRowsOn s).errAddr = s.errAddr := by simp only [fdctRowsOn]
@[simp] theorem fdctRowsOn_errMulti : (fdctRowsOn s).errMulti = s.errMulti := by simp only [fdctRowsOn]
@[simp] theorem fdctRowsOn_basisValid : (fdctRowsOn s).basisValid = s.basisValid := by simp only [fdctRowsOn]
@[simp] theorem fdctRowsOn_lockedWrite : (fdctRowsOn s).lockedWrite = s.lockedWrite := by simp only [fdctRowsOn]
@[simp] theorem fdctRowsOn_ctl : (fdctRowsOn s).ctl = s.ctl := by simp only [fdctRowsOn]
@[simp] theorem fdctRowsOn_whold : (fdctRowsOn s).whold = s.whold := by simp only [fdctRowsOn]
@[simp] theorem fdctRowsOn_rhold : (fdctRowsOn s).rhold = s.rhold := by simp only [fdctRowsOn]
@[simp] theorem fdctRowsOn_p : (fdctRowsOn s).p = s.p := by simp only [fdctRowsOn]
@[simp] theorem fdctRowsOn_d : (fdctRowsOn s).d = s.d := by simp only [fdctRowsOn]
@[simp] theorem fdctRowsOn_mem : (fdctRowsOn s).mem = s.mem := by simp only [fdctRowsOn]
@[simp] theorem fdctRowsOn_busErrors : (fdctRowsOn s).busErrors = s.busErrors := by simp only [fdctRowsOn]
@[simp] theorem fdctRowsOn_inputs : (fdctRowsOn s).inputs = s.inputs := by simp only [fdctRowsOn]
@[simp] theorem fdctRowsOn_resp : (fdctRowsOn s).resp = s.resp := by simp only [fdctRowsOn]
@[simp] theorem fdctRowsOn_draw : (fdctRowsOn s).draw = s.draw := by simp only [fdctRowsOn]
@[simp] theorem fdctRowsOn_memBefore : (fdctRowsOn s).memBefore = s.memBefore := by simp only [fdctRowsOn]
@[simp] theorem fdctRowsOn_w : (fdctRowsOn s).w = rowPass s.f (fun j l => s.d.elem l j) s.w := by simp [fdctRowsOn]

@[simp] theorem fdctOn_cfg : (fdctOn s).cfg = s.cfg := by simp [fdctOn]
@[simp] theorem fdctOn_cursor : (fdctOn s).cursor = s.cursor := by simp [fdctOn]
@[simp] theorem fdctOn_blocksDone : (fdctOn s).blocksDone = s.blocksDone := by simp [fdctOn]
@[simp] theorem fdctOn_bufIndex : (fdctOn s).bufIndex = s.bufIndex := by simp [fdctOn]
@[simp] theorem fdctOn_irqEnable : (fdctOn s).irqEnable = s.irqEnable := by simp [fdctOn]
@[simp] theorem fdctOn_irqStatus : (fdctOn s).irqStatus = s.irqStatus := by simp [fdctOn]
@[simp] theorem fdctOn_errCode : (fdctOn s).errCode = s.errCode := by simp [fdctOn]
@[simp] theorem fdctOn_errAddr : (fdctOn s).errAddr = s.errAddr := by simp [fdctOn]
@[simp] theorem fdctOn_errMulti : (fdctOn s).errMulti = s.errMulti := by simp [fdctOn]
@[simp] theorem fdctOn_basisValid : (fdctOn s).basisValid = s.basisValid := by simp [fdctOn]
@[simp] theorem fdctOn_lockedWrite : (fdctOn s).lockedWrite = s.lockedWrite := by simp [fdctOn]
@[simp] theorem fdctOn_ctl : (fdctOn s).ctl = s.ctl := by simp [fdctOn]
@[simp] theorem fdctOn_whold : (fdctOn s).whold = s.whold := by simp [fdctOn]
@[simp] theorem fdctOn_rhold : (fdctOn s).rhold = s.rhold := by simp [fdctOn]
@[simp] theorem fdctOn_p : (fdctOn s).p = s.p := by simp [fdctOn]
@[simp] theorem fdctOn_d : (fdctOn s).d = s.d := by simp [fdctOn]
@[simp] theorem fdctOn_mem : (fdctOn s).mem = s.mem := by simp [fdctOn]
@[simp] theorem fdctOn_busErrors : (fdctOn s).busErrors = s.busErrors := by simp [fdctOn]
@[simp] theorem fdctOn_inputs : (fdctOn s).inputs = s.inputs := by simp [fdctOn]
@[simp] theorem fdctOn_resp : (fdctOn s).resp = s.resp := by simp [fdctOn]
@[simp] theorem fdctOn_draw : (fdctOn s).draw = s.draw := by simp [fdctOn]
@[simp] theorem fdctOn_memBefore : (fdctOn s).memBefore = s.memBefore := by simp [fdctOn]

@[simp] theorem idctColsOn_cfg : (idctColsOn s).cfg = s.cfg := by simp only [idctColsOn]
@[simp] theorem idctColsOn_cursor : (idctColsOn s).cursor = s.cursor := by simp only [idctColsOn]
@[simp] theorem idctColsOn_blocksDone : (idctColsOn s).blocksDone = s.blocksDone := by simp only [idctColsOn]
@[simp] theorem idctColsOn_bufIndex : (idctColsOn s).bufIndex = s.bufIndex := by simp only [idctColsOn]
@[simp] theorem idctColsOn_irqEnable : (idctColsOn s).irqEnable = s.irqEnable := by simp only [idctColsOn]
@[simp] theorem idctColsOn_irqStatus : (idctColsOn s).irqStatus = s.irqStatus := by simp only [idctColsOn]
@[simp] theorem idctColsOn_errCode : (idctColsOn s).errCode = s.errCode := by simp only [idctColsOn]
@[simp] theorem idctColsOn_errAddr : (idctColsOn s).errAddr = s.errAddr := by simp only [idctColsOn]
@[simp] theorem idctColsOn_errMulti : (idctColsOn s).errMulti = s.errMulti := by simp only [idctColsOn]
@[simp] theorem idctColsOn_basisValid : (idctColsOn s).basisValid = s.basisValid := by simp only [idctColsOn]
@[simp] theorem idctColsOn_lockedWrite : (idctColsOn s).lockedWrite = s.lockedWrite := by simp only [idctColsOn]
@[simp] theorem idctColsOn_ctl : (idctColsOn s).ctl = s.ctl := by simp only [idctColsOn]
@[simp] theorem idctColsOn_whold : (idctColsOn s).whold = s.whold := by simp only [idctColsOn]
@[simp] theorem idctColsOn_rhold : (idctColsOn s).rhold = s.rhold := by simp only [idctColsOn]
@[simp] theorem idctColsOn_p : (idctColsOn s).p = s.p := by simp only [idctColsOn]
@[simp] theorem idctColsOn_d : (idctColsOn s).d = s.d := by simp only [idctColsOn]
@[simp] theorem idctColsOn_mem : (idctColsOn s).mem = s.mem := by simp only [idctColsOn]
@[simp] theorem idctColsOn_busErrors : (idctColsOn s).busErrors = s.busErrors := by simp only [idctColsOn]
@[simp] theorem idctColsOn_inputs : (idctColsOn s).inputs = s.inputs := by simp only [idctColsOn]
@[simp] theorem idctColsOn_resp : (idctColsOn s).resp = s.resp := by simp only [idctColsOn]
@[simp] theorem idctColsOn_draw : (idctColsOn s).draw = s.draw := by simp only [idctColsOn]
@[simp] theorem idctColsOn_memBefore : (idctColsOn s).memBefore = s.memBefore := by simp only [idctColsOn]
@[simp] theorem idctColsOn_w : (idctColsOn s).w = colPass s.f (fun i k => s.d.elem k i) s.w := by simp [idctColsOn]

@[simp] theorem idctRowsOn_cfg : (idctRowsOn s).cfg = s.cfg := by simp only [idctRowsOn]
@[simp] theorem idctRowsOn_cursor : (idctRowsOn s).cursor = s.cursor := by simp only [idctRowsOn]
@[simp] theorem idctRowsOn_blocksDone : (idctRowsOn s).blocksDone = s.blocksDone := by simp only [idctRowsOn]
@[simp] theorem idctRowsOn_bufIndex : (idctRowsOn s).bufIndex = s.bufIndex := by simp only [idctRowsOn]
@[simp] theorem idctRowsOn_irqEnable : (idctRowsOn s).irqEnable = s.irqEnable := by simp only [idctRowsOn]
@[simp] theorem idctRowsOn_irqStatus : (idctRowsOn s).irqStatus = s.irqStatus := by simp only [idctRowsOn]
@[simp] theorem idctRowsOn_errCode : (idctRowsOn s).errCode = s.errCode := by simp only [idctRowsOn]
@[simp] theorem idctRowsOn_errAddr : (idctRowsOn s).errAddr = s.errAddr := by simp only [idctRowsOn]
@[simp] theorem idctRowsOn_errMulti : (idctRowsOn s).errMulti = s.errMulti := by simp only [idctRowsOn]
@[simp] theorem idctRowsOn_basisValid : (idctRowsOn s).basisValid = s.basisValid := by simp only [idctRowsOn]
@[simp] theorem idctRowsOn_lockedWrite : (idctRowsOn s).lockedWrite = s.lockedWrite := by simp only [idctRowsOn]
@[simp] theorem idctRowsOn_ctl : (idctRowsOn s).ctl = s.ctl := by simp only [idctRowsOn]
@[simp] theorem idctRowsOn_whold : (idctRowsOn s).whold = s.whold := by simp only [idctRowsOn]
@[simp] theorem idctRowsOn_rhold : (idctRowsOn s).rhold = s.rhold := by simp only [idctRowsOn]
@[simp] theorem idctRowsOn_p : (idctRowsOn s).p = s.p := by simp only [idctRowsOn]
@[simp] theorem idctRowsOn_d : (idctRowsOn s).d = s.d := by simp only [idctRowsOn]
@[simp] theorem idctRowsOn_mem : (idctRowsOn s).mem = s.mem := by simp only [idctRowsOn]
@[simp] theorem idctRowsOn_busErrors : (idctRowsOn s).busErrors = s.busErrors := by simp only [idctRowsOn]
@[simp] theorem idctRowsOn_inputs : (idctRowsOn s).inputs = s.inputs := by simp only [idctRowsOn]
@[simp] theorem idctRowsOn_resp : (idctRowsOn s).resp = s.resp := by simp only [idctRowsOn]
@[simp] theorem idctRowsOn_draw : (idctRowsOn s).draw = s.draw := by simp only [idctRowsOn]
@[simp] theorem idctRowsOn_memBefore : (idctRowsOn s).memBefore = s.memBefore := by simp only [idctRowsOn]
@[simp] theorem idctRowsOn_w : (idctRowsOn s).w = rowPass s.f (fun k j => s.d.elem k j) s.w := by simp [idctRowsOn]

@[simp] theorem idctOn_cfg : (idctOn s).cfg = s.cfg := by simp [idctOn]
@[simp] theorem idctOn_cursor : (idctOn s).cursor = s.cursor := by simp [idctOn]
@[simp] theorem idctOn_blocksDone : (idctOn s).blocksDone = s.blocksDone := by simp [idctOn]
@[simp] theorem idctOn_bufIndex : (idctOn s).bufIndex = s.bufIndex := by simp [idctOn]
@[simp] theorem idctOn_irqEnable : (idctOn s).irqEnable = s.irqEnable := by simp [idctOn]
@[simp] theorem idctOn_irqStatus : (idctOn s).irqStatus = s.irqStatus := by simp [idctOn]
@[simp] theorem idctOn_errCode : (idctOn s).errCode = s.errCode := by simp [idctOn]
@[simp] theorem idctOn_errAddr : (idctOn s).errAddr = s.errAddr := by simp [idctOn]
@[simp] theorem idctOn_errMulti : (idctOn s).errMulti = s.errMulti := by simp [idctOn]
@[simp] theorem idctOn_basisValid : (idctOn s).basisValid = s.basisValid := by simp [idctOn]
@[simp] theorem idctOn_lockedWrite : (idctOn s).lockedWrite = s.lockedWrite := by simp [idctOn]
@[simp] theorem idctOn_ctl : (idctOn s).ctl = s.ctl := by simp [idctOn]
@[simp] theorem idctOn_whold : (idctOn s).whold = s.whold := by simp [idctOn]
@[simp] theorem idctOn_rhold : (idctOn s).rhold = s.rhold := by simp [idctOn]
@[simp] theorem idctOn_p : (idctOn s).p = s.p := by simp [idctOn]
@[simp] theorem idctOn_d : (idctOn s).d = s.d := by simp [idctOn]
@[simp] theorem idctOn_mem : (idctOn s).mem = s.mem := by simp [idctOn]
@[simp] theorem idctOn_busErrors : (idctOn s).busErrors = s.busErrors := by simp [idctOn]
@[simp] theorem idctOn_inputs : (idctOn s).inputs = s.inputs := by simp [idctOn]
@[simp] theorem idctOn_resp : (idctOn s).resp = s.resp := by simp [idctOn]
@[simp] theorem idctOn_draw : (idctOn s).draw = s.draw := by simp [idctOn]
@[simp] theorem idctOn_memBefore : (idctOn s).memBefore = s.memBefore := by simp [idctOn]

@[simp] theorem maskOn_cfg : (maskOn s).cfg = s.cfg := by simp only [maskOn]
@[simp] theorem maskOn_cursor : (maskOn s).cursor = s.cursor := by simp only [maskOn]
@[simp] theorem maskOn_blocksDone : (maskOn s).blocksDone = s.blocksDone := by simp only [maskOn]
@[simp] theorem maskOn_bufIndex : (maskOn s).bufIndex = s.bufIndex := by simp only [maskOn]
@[simp] theorem maskOn_irqEnable : (maskOn s).irqEnable = s.irqEnable := by simp only [maskOn]
@[simp] theorem maskOn_irqStatus : (maskOn s).irqStatus = s.irqStatus := by simp only [maskOn]
@[simp] theorem maskOn_errCode : (maskOn s).errCode = s.errCode := by simp only [maskOn]
@[simp] theorem maskOn_errAddr : (maskOn s).errAddr = s.errAddr := by simp only [maskOn]
@[simp] theorem maskOn_errMulti : (maskOn s).errMulti = s.errMulti := by simp only [maskOn]
@[simp] theorem maskOn_basisValid : (maskOn s).basisValid = s.basisValid := by simp only [maskOn]
@[simp] theorem maskOn_lockedWrite : (maskOn s).lockedWrite = s.lockedWrite := by simp only [maskOn]
@[simp] theorem maskOn_ctl : (maskOn s).ctl = s.ctl := by simp only [maskOn]
@[simp] theorem maskOn_whold : (maskOn s).whold = s.whold := by simp only [maskOn]
@[simp] theorem maskOn_rhold : (maskOn s).rhold = s.rhold := by simp only [maskOn]
@[simp] theorem maskOn_p : (maskOn s).p = s.p := by simp only [maskOn]
@[simp] theorem maskOn_d : (maskOn s).d = s.d := by simp only [maskOn]
@[simp] theorem maskOn_mem : (maskOn s).mem = s.mem := by simp only [maskOn]
@[simp] theorem maskOn_busErrors : (maskOn s).busErrors = s.busErrors := by simp only [maskOn]
@[simp] theorem maskOn_inputs : (maskOn s).inputs = s.inputs := by simp only [maskOn]
@[simp] theorem maskOn_resp : (maskOn s).resp = s.resp := by simp only [maskOn]
@[simp] theorem maskOn_draw : (maskOn s).draw = s.draw := by simp only [maskOn]
@[simp] theorem maskOn_memBefore : (maskOn s).memBefore = s.memBefore := by simp only [maskOn]
@[simp] theorem maskOn_w : (maskOn s).w = s.w.setBlock s.f fun k l => if s.dInt ≤ (k : Int) + (l : Int) then plusZero else s.w.elem k l := by simp [maskOn]

@[simp] theorem reconOn_cfg : (reconOn s).cfg = s.cfg := by simp only [reconOn]
@[simp] theorem reconOn_cursor : (reconOn s).cursor = s.cursor := by simp only [reconOn]
@[simp] theorem reconOn_blocksDone : (reconOn s).blocksDone = s.blocksDone := by simp only [reconOn]
@[simp] theorem reconOn_bufIndex : (reconOn s).bufIndex = s.bufIndex := by simp only [reconOn]
@[simp] theorem reconOn_irqEnable : (reconOn s).irqEnable = s.irqEnable := by simp only [reconOn]
@[simp] theorem reconOn_irqStatus : (reconOn s).irqStatus = s.irqStatus := by simp only [reconOn]
@[simp] theorem reconOn_errCode : (reconOn s).errCode = s.errCode := by simp only [reconOn]
@[simp] theorem reconOn_errAddr : (reconOn s).errAddr = s.errAddr := by simp only [reconOn]
@[simp] theorem reconOn_errMulti : (reconOn s).errMulti = s.errMulti := by simp only [reconOn]
@[simp] theorem reconOn_basisValid : (reconOn s).basisValid = s.basisValid := by simp only [reconOn]
@[simp] theorem reconOn_lockedWrite : (reconOn s).lockedWrite = s.lockedWrite := by simp only [reconOn]
@[simp] theorem reconOn_ctl : (reconOn s).ctl = s.ctl := by simp only [reconOn]
@[simp] theorem reconOn_whold : (reconOn s).whold = s.whold := by simp only [reconOn]
@[simp] theorem reconOn_rhold : (reconOn s).rhold = s.rhold := by simp only [reconOn]
@[simp] theorem reconOn_w : (reconOn s).w = s.w := by simp only [reconOn]
@[simp] theorem reconOn_d : (reconOn s).d = s.d := by simp only [reconOn]
@[simp] theorem reconOn_mem : (reconOn s).mem = s.mem := by simp only [reconOn]
@[simp] theorem reconOn_busErrors : (reconOn s).busErrors = s.busErrors := by simp only [reconOn]
@[simp] theorem reconOn_inputs : (reconOn s).inputs = s.inputs := by simp only [reconOn]
@[simp] theorem reconOn_resp : (reconOn s).resp = s.resp := by simp only [reconOn]
@[simp] theorem reconOn_draw : (reconOn s).draw = s.draw := by simp only [reconOn]
@[simp] theorem reconOn_memBefore : (reconOn s).memBefore = s.memBefore := by simp only [reconOn]
@[simp] theorem reconOn_p : (reconOn s).p = s.p.setBlock s.f fun i j => recon8 (s.w.elem i j) := by simp [reconOn]

@[simp] theorem pipelineOn_cfg : (pipelineOn s).cfg = s.cfg := by simp [pipelineOn]
@[simp] theorem pipelineOn_cursor : (pipelineOn s).cursor = s.cursor := by simp [pipelineOn]
@[simp] theorem pipelineOn_blocksDone : (pipelineOn s).blocksDone = s.blocksDone := by simp [pipelineOn]
@[simp] theorem pipelineOn_bufIndex : (pipelineOn s).bufIndex = s.bufIndex := by simp [pipelineOn]
@[simp] theorem pipelineOn_irqEnable : (pipelineOn s).irqEnable = s.irqEnable := by simp [pipelineOn]
@[simp] theorem pipelineOn_irqStatus : (pipelineOn s).irqStatus = s.irqStatus := by simp [pipelineOn]
@[simp] theorem pipelineOn_errCode : (pipelineOn s).errCode = s.errCode := by simp [pipelineOn]
@[simp] theorem pipelineOn_errAddr : (pipelineOn s).errAddr = s.errAddr := by simp [pipelineOn]
@[simp] theorem pipelineOn_errMulti : (pipelineOn s).errMulti = s.errMulti := by simp [pipelineOn]
@[simp] theorem pipelineOn_basisValid : (pipelineOn s).basisValid = s.basisValid := by simp [pipelineOn]
@[simp] theorem pipelineOn_lockedWrite : (pipelineOn s).lockedWrite = s.lockedWrite := by simp [pipelineOn]
@[simp] theorem pipelineOn_ctl : (pipelineOn s).ctl = s.ctl := by simp [pipelineOn]
@[simp] theorem pipelineOn_whold : (pipelineOn s).whold = s.whold := by simp [pipelineOn]
@[simp] theorem pipelineOn_rhold : (pipelineOn s).rhold = s.rhold := by simp [pipelineOn]
@[simp] theorem pipelineOn_d : (pipelineOn s).d = s.d := by simp [pipelineOn]
@[simp] theorem pipelineOn_mem : (pipelineOn s).mem = s.mem := by simp [pipelineOn]
@[simp] theorem pipelineOn_busErrors : (pipelineOn s).busErrors = s.busErrors := by simp [pipelineOn]
@[simp] theorem pipelineOn_inputs : (pipelineOn s).inputs = s.inputs := by simp [pipelineOn]
@[simp] theorem pipelineOn_resp : (pipelineOn s).resp = s.resp := by simp [pipelineOn]
@[simp] theorem pipelineOn_draw : (pipelineOn s).draw = s.draw := by simp [pipelineOn]
@[simp] theorem pipelineOn_memBefore : (pipelineOn s).memBefore = s.memBefore := by simp [pipelineOn]

@[simp] theorem runStartOn_cfg : (runStartOn s).cfg = s.cfg := by simp [runStartOn]
@[simp] theorem runStartOn_bufIndex : (runStartOn s).bufIndex = s.bufIndex := by simp [runStartOn]
@[simp] theorem runStartOn_irqEnable : (runStartOn s).irqEnable = s.irqEnable := by simp [runStartOn]
@[simp] theorem runStartOn_irqStatus : (runStartOn s).irqStatus = s.irqStatus := by simp [runStartOn]
@[simp] theorem runStartOn_errCode : (runStartOn s).errCode = s.errCode := by simp [runStartOn]
@[simp] theorem runStartOn_errAddr : (runStartOn s).errAddr = s.errAddr := by simp [runStartOn]
@[simp] theorem runStartOn_errMulti : (runStartOn s).errMulti = s.errMulti := by simp [runStartOn]
@[simp] theorem runStartOn_lockedWrite : (runStartOn s).lockedWrite = s.lockedWrite := by simp [runStartOn]
@[simp] theorem runStartOn_whold : (runStartOn s).whold = s.whold := by simp [runStartOn]
@[simp] theorem runStartOn_rhold : (runStartOn s).rhold = s.rhold := by simp [runStartOn]
@[simp] theorem runStartOn_p : (runStartOn s).p = s.p := by simp [runStartOn]
@[simp] theorem runStartOn_w : (runStartOn s).w = s.w := by simp [runStartOn]
@[simp] theorem runStartOn_mem : (runStartOn s).mem = s.mem := by simp [runStartOn]
@[simp] theorem runStartOn_busErrors : (runStartOn s).busErrors = s.busErrors := by simp [runStartOn]
@[simp] theorem runStartOn_inputs : (runStartOn s).inputs = s.inputs := by simp [runStartOn]
@[simp] theorem runStartOn_resp : (runStartOn s).resp = s.resp := by simp [runStartOn]
@[simp] theorem runStartOn_draw : (runStartOn s).draw = s.draw := by simp [runStartOn]
@[simp] theorem runStartOn_memBefore : (runStartOn s).memBefore = s.memBefore := by simp [runStartOn]
@[simp] theorem runStartOn_d : (runStartOn s).d = s.d.setBlock s.f (basis s.f) := by simp [runStartOn]
@[simp] theorem runStartOn_basisValid : (runStartOn s).basisValid = true := by simp [runStartOn]
@[simp] theorem runStartOn_cursor : (runStartOn s).cursor = ⟨0#16, 0#16⟩ := by simp [runStartOn]
@[simp] theorem runStartOn_blocksDone : (runStartOn s).blocksDone = 0#32 := by simp [runStartOn]
@[simp] theorem runStartOn_ctl : (runStartOn s).ctl = { s.ctl with phase := .blocks } := by simp [runStartOn]

@[simp] theorem resetEngine_mem : (resetEngine s).mem = s.mem := by simp only [resetEngine]
@[simp] theorem resetEngine_busErrors : (resetEngine s).busErrors = s.busErrors := by simp only [resetEngine]
@[simp] theorem resetEngine_inputs : (resetEngine s).inputs = s.inputs := by simp only [resetEngine]
@[simp] theorem resetEngine_resp : (resetEngine s).resp = s.resp := by simp only [resetEngine]
@[simp] theorem resetEngine_ctl : (resetEngine s).ctl = Ctl.idle := by simp only [resetEngine]

/-- The fields an error record writes, when none was recorded (R120). -/
theorem record_first (c : Cause) (o : Byte) (a : Nat) (h : s.errCode = none) :
    (record c o a s).errCode = some ⟨c, o⟩ ∧ (record c o a s).errAddr = BitVec.ofNat 32 a ∧
      (record c o a s).errMulti = s.errMulti := by
  simp [record, h]

/-- The fields an error record writes, when one was recorded already (R120). -/
theorem record_later (c : Cause) (o : Byte) (a : Nat) (r : ErrRecord) (h : s.errCode = some r) :
    (record c o a s).errCode = s.errCode ∧ (record c o a s).errAddr = s.errAddr ∧ (record c o a s).errMulti = true := by
  simp [record, h]

/-- An error end records its cause with OPCODE = CUR_CMD, and touches no other field than `record` and the engine control. -/
theorem errorEnd_eq (e : Raised) :
    errorEnd e s =
      { record e.cause s.ctl.curCmd (if isBusError e.cause then e.addr else 0) s with ctl := Ctl.idle } := rfl

@[simp] theorem errorEnd_irqStatus (e : Raised) : (errorEnd e s).irqStatus = { s.irqStatus with err := true } := by
  simp [errorEnd]

@[simp] theorem errorEnd_errCode (e : Raised) :
    (errorEnd e s).errCode = (record e.cause s.ctl.curCmd (if isBusError e.cause then e.addr else 0) s).errCode := rfl

@[simp] theorem errorEnd_errAddr (e : Raised) :
    (errorEnd e s).errAddr = (record e.cause s.ctl.curCmd (if isBusError e.cause then e.addr else 0) s).errAddr := rfl

@[simp] theorem errorEnd_errMulti (e : Raised) :
    (errorEnd e s).errMulti = (record e.cause s.ctl.curCmd (if isBusError e.cause then e.addr else 0) s).errMulti := rfl

/-! ### What is computed from the configuration registers alone -/

section
variable {s t : State} (h : t.cfg = s.cfg)
include h

theorem fInt_congr : t.fInt = s.fInt := by simp [State.fInt, h]
theorem f_congr : t.f = s.f := by simp [State.f, State.fInt, h]
theorem dInt_congr : t.dInt = s.dInt := by simp [State.dInt, h]
theorem imgR_congr : t.imgR = s.imgR := by simp [State.imgR, h]
theorem imgC_congr : t.imgC = s.imgC := by simp [State.imgC, h]
theorem br_congr : t.br = s.br := by simp [State.br, imgR_congr h, f_congr h]
theorem bc_congr : t.bc = s.bc := by simp [State.bc, imgC_congr h, f_congr h]
theorem nb_congr : t.nb = s.nb := by simp [State.nb, br_congr h, bc_congr h]
theorem rt_congr : t.rt = s.rt := by simp [State.rt, br_congr h, f_congr h]
theorem ct_congr : t.ct = s.ct := by simp [State.ct, bc_congr h, f_congr h]
theorem srcEnd_congr : t.srcEnd = s.srcEnd := by simp [State.srcEnd, rt_congr h, ct_congr h, h]
theorem dstEnd_congr : t.dstEnd = s.dstEnd := by simp [State.dstEnd, rt_congr h, ct_congr h, h]
theorem srcPixel_congr (r c : Nat) : t.srcPixel r c = s.srcPixel r c := by simp [State.srcPixel, h]
theorem dstPixel_congr (r c : Nat) : t.dstPixel r c = s.dstPixel r c := by simp [State.dstPixel, h]

theorem srcElem_congr (hc : t.cursor = s.cursor) (i j : Nat) : t.srcElem i j = s.srcElem i j := by
  simp [State.srcElem, srcPixel_congr h, f_congr h, hc]

theorem dstElem_congr (hc : t.cursor = s.cursor) (i j : Nat) : t.dstElem i j = s.dstElem i j := by
  simp [State.dstElem, dstPixel_congr h, f_congr h, hc]

theorem nextCursor_congr (hc : t.cursor = s.cursor) : t.nextCursor = s.nextCursor := by
  simp [State.nextCursor, br_congr h, bc_congr h, hc]

end

end Sys2Proof.Machine
end

