-- ==== Sys2Proof/Laws/Checks.lean ====
section
/-! SUPPORT. The laws of the checks: when each passes, and what each depends on. -/

namespace Sys2Proof.Machine

variable {s t : State}

@[simp] theorem allOf_nil : allOf [] s = none := rfl

theorem allOf_cons (c : State → Option Cause) (cs : List (State → Option Cause)) :
    allOf (c :: cs) s = match c s with
      | some e => some e
      | none => allOf cs s := by
  unfold allOf
  rw [List.findSome?_cons]
  cases c s <;> rfl

/-- A list of checks passes exactly when each of its checks passes. -/
theorem allOf_eq_none {cs : List (State → Option Cause)} : allOf cs s = none ↔ ∀ c ∈ cs, c s = none := by
  simp [allOf]

theorem allOf_congr {cs : List (State → Option Cause)} (h : ∀ c ∈ cs, c t = c s) : allOf cs t = allOf cs s := by
  induction cs with
  | nil => rfl
  | cons c cs ih =>
    rw [allOf_cons, allOf_cons, h c (by simp), ih fun c hc => h c (by simp [hc])]

/-! ### When a check passes -/

theorem checkFSize_none : checkFSize s = none ↔ 1 ≤ s.fInt ∧ s.fInt ≤ Config.nMax := by
  unfold checkFSize
  split
  · simp; omega
  · split <;> simp <;> omega

theorem checkFFull_none :
    checkFFull s = none ↔ 1 ≤ s.fInt ∧ s.fInt ≤ s.imgR ∧ s.fInt ≤ s.imgC ∧ s.fInt ≤ Config.nMax := by
  unfold checkFFull
  repeat' split
  all_goals simp
  all_goals omega

theorem checkThreshold_none : checkThreshold s = none ↔ 0 ≤ s.dInt ∧ s.dInt ≤ 2 * s.fInt - 2 := by
  unfold checkThreshold
  repeat' split
  all_goals simp
  all_goals omega

theorem checkSrcStride_none : checkSrcStride s = none ↔ s.imgC ≤ s.cfg.srcStride.toNat := by simp [checkSrcStride]

theorem checkDstStride_none : checkDstStride s = none ↔ s.ct ≤ s.cfg.dstStride.toNat := by simp [checkDstStride]

theorem checkSrcRange_none : checkSrcRange s = none ↔ s.srcEnd < 2 ^ Config.addrW := by
  have : 0 < 2 ^ Config.addrW := Nat.two_pow_pos _
  simp [checkSrcRange]; omega

theorem checkDstRange_none : checkDstRange s = none ↔ s.dstEnd < 2 ^ Config.addrW := by
  have : 0 < 2 ^ Config.addrW := Nat.two_pow_pos _
  simp [checkDstRange]; omega

theorem checkOverlap_none :
    checkOverlap s = none ↔ s.inPlace = true ∨ s.dstEnd < s.cfg.srcBase.toNat ∨ s.srcEnd < s.cfg.dstBase.toNat := by
  unfold checkOverlap
  split
  · next h => simp [h.1]; omega
  · next h =>
    simp only [true_iff]
    by_cases hp : s.inPlace = true
    · exact .inl hp
    · simp [hp] at h; omega

theorem checkCursor_none : checkCursor s = none ↔ s.cursor.row.toNat < s.br ∧ s.cursor.col.toNat < s.bc := by
  unfold checkCursor
  repeat' split
  all_goals simp
  all_goals omega

theorem checkBasis_none : checkBasis s = none ↔ s.basisValid = true := by simp [checkBasis]

theorem validateAll_none :
    validateAll s = none ↔ checkFFull s = none ∧ checkThreshold s = none ∧ checkSrcStride s = none ∧
      checkDstStride s = none ∧ checkSrcRange s = none ∧ checkDstRange s = none ∧ checkOverlap s = none := by
  simp [validateAll, allOf_eq_none]

theorem loadChecks_none :
    loadChecks s = none ↔ checkFFull s = none ∧ checkSrcStride s = none ∧ checkSrcRange s = none ∧
      checkCursor s = none := by
  simp [loadChecks, allOf_eq_none]

theorem storeChecks_none :
    storeChecks s = none ↔ checkFFull s = none ∧ checkDstStride s = none ∧ checkDstRange s = none ∧
      checkCursor s = none := by
  simp [storeChecks, allOf_eq_none]

theorem cursorChecks_none : cursorChecks s = none ↔ checkFFull s = none ∧ checkCursor s = none := by
  simp [cursorChecks, allOf_eq_none]

theorem maskChecks_none : maskChecks s = none ↔ checkFSize s = none ∧ checkThreshold s = none := by
  simp [maskChecks, allOf_eq_none]

/-! ### What the block size checks give -/

theorem f_cast (h : 1 ≤ s.fInt) : (s.f : Int) = s.fInt := by
  simp only [State.f]; omega

theorem f_pos (h : 1 ≤ s.fInt) : 0 < s.f := by
  have := f_cast h; omega

theorem f_le_nMax (h : s.fInt ≤ Config.nMax) : s.f ≤ Config.nMax := by
  simp only [State.f]; omega

/-- After check_f_full the block fits the image and the buffers, and there is a block (R125, R7). -/
theorem checkFFull_block (h : checkFFull s = none) :
    0 < s.f ∧ s.f ≤ s.imgR ∧ s.f ≤ s.imgC ∧ s.f ≤ Config.nMax ∧ 0 < s.br ∧ 0 < s.bc := by
  obtain ⟨h1, h2, h3, h4⟩ := checkFFull_none.mp h
  have hc := f_cast h1
  have hf : 0 < s.f := f_pos h1
  have hr : s.f ≤ s.imgR := by omega
  have hcl : s.f ≤ s.imgC := by omega
  exact ⟨hf, hr, hcl, by omega, Nat.div_pos hr hf, Nat.div_pos hcl hf⟩

/-! ### What the checks depend on -/

section
variable (h : t.cfg = s.cfg)
include h

theorem checkFSize_congr : checkFSize t = checkFSize s := by simp [checkFSize, fInt_congr h]
theorem checkFFull_congr : checkFFull t = checkFFull s := by
  simp [checkFFull, fInt_congr h, imgR_congr h, imgC_congr h]
theorem checkThreshold_congr : checkThreshold t = checkThreshold s := by
  simp [checkThreshold, fInt_congr h, dInt_congr h]
theorem checkSrcStride_congr : checkSrcStride t = checkSrcStride s := by simp [checkSrcStride, imgC_congr h, h]
theorem checkDstStride_congr : checkDstStride t = checkDstStride s := by simp [checkDstStride, ct_congr h, h]
theorem checkSrcRange_congr : checkSrcRange t = checkSrcRange s := by simp [checkSrcRange, srcEnd_congr h]
theorem checkDstRange_congr : checkDstRange t = checkDstRange s := by simp [checkDstRange, dstEnd_congr h]
theorem inPlace_congr : t.inPlace = s.inPlace := by simp [State.inPlace, h]
theorem checkOverlap_congr : checkOverlap t = checkOverlap s := by
  simp [checkOverlap, inPlace_congr h, srcEnd_congr h, dstEnd_congr h, h]
theorem checkCursor_congr (hc : t.cursor = s.cursor) : checkCursor t = checkCursor s := by
  simp [checkCursor, br_congr h, bc_congr h, hc]

/-- The checks of VALIDATE depend on the configuration registers alone (R126). -/
theorem validateAll_congr : validateAll t = validateAll s :=
  allOf_congr (by simp [checkFFull_congr h, checkThreshold_congr h, checkSrcStride_congr h, checkDstStride_congr h,
    checkSrcRange_congr h, checkDstRange_congr h, checkOverlap_congr h])

end

end Sys2Proof.Machine
end

