-- ==== Sys2Proof/Laws/WorkStep.lean ====
section
/-! SUPPORT. What a work step, a command and a turn can do. -/

namespace Sys2Proof.Machine

variable {s t : State} {checks : State → Option Cause} {body : State → Work}

theorem workStep_abort (h : s.ctl.abortPending = true) :
    workStep checks body s =
      .next (errorEnd (Raised.of .aborted) { s with ctl := { s.ctl with abortPending := false } }) := by
  simp [workStep, h]

theorem workStep_check {c : Cause} (h : s.ctl.abortPending = false) (hc : checks s = some c) :
    workStep checks body s = .next (errorEnd (Raised.of c) s) := by
  simp [workStep, h, hc]

theorem workStep_done {u : State} (h : s.ctl.abortPending = false) (hc : checks s = none) (hb : body s = .done u) :
    workStep checks body s = .next (complete u) := by
  simp [workStep, h, hc, hb]

theorem workStep_more {u : State} (h : s.ctl.abortPending = false) (hc : checks s = none) (hb : body s = .more u) :
    workStep checks body s = .next u := by
  simp [workStep, h, hc, hb]

theorem workStep_raised {e : Raised} {u : State} (h : s.ctl.abortPending = false) (hc : checks s = none)
    (hb : body s = .raised e u) : workStep checks body s = .next (errorEnd e u) := by
  simp [workStep, h, hc, hb]

/-- Everything a work step that answers a next state can have done (R44, R119, R126). -/
theorem workStep_cases (h : workStep checks body s = .next t) :
    (s.ctl.abortPending = true ∧
      t = errorEnd (Raised.of .aborted) { s with ctl := { s.ctl with abortPending := false } }) ∨
    (s.ctl.abortPending = false ∧ ∃ c, checks s = some c ∧ t = errorEnd (Raised.of c) s) ∨
    (s.ctl.abortPending = false ∧ checks s = none ∧
      ((∃ u, body s = .done u ∧ t = complete u) ∨ (body s = .more t) ∨
        ∃ e u, body s = .raised e u ∧ t = errorEnd e u)) := by
  cases ha : s.ctl.abortPending with
  | true =>
    rw [workStep_abort ha] at h
    exact .inl ⟨rfl, (Host.Outcome.next.inj h).symm⟩
  | false =>
    cases hc : checks s with
    | some c =>
      rw [workStep_check ha hc] at h
      exact .inr (.inl ⟨rfl, c, rfl, (Host.Outcome.next.inj h).symm⟩)
    | none =>
      cases hb : body s with
      | done u =>
        rw [workStep_done ha hc hb] at h
        exact .inr (.inr ⟨rfl, rfl, .inl ⟨u, rfl, (Host.Outcome.next.inj h).symm⟩⟩)
      | more u =>
        rw [workStep_more ha hc hb] at h
        exact .inr (.inr ⟨rfl, rfl, .inr (.inl (by rw [Host.Outcome.next.inj h]))⟩)
      | raised e u =>
        rw [workStep_raised ha hc hb] at h
        exact .inr (.inr ⟨rfl, rfl, .inr (.inr ⟨e, u, rfl, (Host.Outcome.next.inj h).symm⟩)⟩)
      | stopped f => simp [workStep, ha, hc, hb] at h

theorem withBlock_fits (h : s.f ≤ Config.nMax) : withBlock body s = body s := by
  simp [withBlock, h]

/-- The body of each non-instant command, after its checks. -/
def bodyOf (i : Instr) (p : Phase) : State → Work :=
  match i with
  | .validate => fun t => .done t
  | .run =>
    match p with
    | .validate => fun t => .more (runStartOn t)
    | .blocks => withBlock runBlockOn
  | .buildBasis => fun t => .done (buildBasisOn t)
  | .loadBlock => loadBlockOn
  | .storeBlock => storeBlockOn
  | .cursorNext => fun t => .done { t with cursor := t.nextCursor }
  | .fdctCols => withBlock fun t => .done (fdctColsOn t)
  | .fdctRows => withBlock fun t => .done (fdctRowsOn t)
  | .fdct => withBlock fun t => .done (fdctOn t)
  | .idctCols => withBlock fun t => .done (idctColsOn t)
  | .idctRows => withBlock fun t => .done (idctRowsOn t)
  | .idct => withBlock fun t => .done (idctOn t)
  | .mask => fun t => .done (maskOn t)
  | .recon => fun t => .done (reconOn t)
  | .nop => fun t => .done t
  | .clearErr => fun t => .done t
  | .abort => fun t => .done t
  | .softReset => fun t => .done t

theorem allOf_one (c : State → Option Cause) : allOf [c] s = c s := by
  rw [allOf_cons]
  cases c s <;> rfl

/-- Every non-instant command is one work step with the checks of R126 and its own body. -/
theorem exec_eq_workStep {i : Instr} (h : isInstant i = false) :
    exec i s = workStep (allOf (checksOf i s.ctl.phase)) (bodyOf i s.ctl.phase) s := by
  have key : ∀ (c : State → Option Cause) (b : State → Work), workStep c b s = workStep (allOf [c]) b s := by
    intro c b
    simp only [workStep, allOf_one]
  cases i <;> first | exact absurd h (by decide) | skip
  case run =>
    unfold exec execRun
    cases hp : s.ctl.phase <;> rfl
  all_goals
    simp only [exec, execValidate, execBuildBasis, execLoadBlock, execStoreBlock, execCursorNext, execFdctCols,
      execFdctRows, execFdct, execIdctCols, execIdctRows, execIdct, execMask, execRecon, checksOf, bodyOf]
    first | exact key _ _ | rfl

/-- What the engine's turn can do (R19, R44). -/
theorem engineTurn_cases (h : engineTurn s = .next t) :
    (s.ctl.busy = false ∧ t = s) ∨
    (s.ctl.busy = true ∧ ∃ i, instrOfOpcode s.ctl.curCmd = some i ∧ isInstant i = false ∧ exec i s = .next t) := by
  unfold engineTurn at h
  cases hb : s.ctl.busy with
  | false => simp [hb] at h; exact .inl ⟨rfl, h.symm⟩
  | true =>
    simp only [hb, if_true] at h
    cases hi : instrOfOpcode s.ctl.curCmd with
    | none => simp [hi] at h
    | some i =>
      simp only [hi] at h
      cases hc : isInstant i with
      | true => simp [hc] at h
      | false => simp [hc] at h; exact .inr ⟨rfl, i, rfl, hc, h⟩

/-- What issuing a command word can do (R107). -/
theorem issue_cases {w : Word} (h : issue w s = .next t) :
    (∃ why, decode w = .illegal why ∧ t = signalError (illegalCause why) (opcodeField w) s) ∨
    (∃ i, decode w = .command i ∧ isInstant i = true ∧ exec i s = .next t) ∨
    (∃ i, decode w = .command i ∧ isInstant i = false ∧ s.ctl.busy = true ∧
      t = signalError .commandWhileBusy (opcodeField w) s) ∨
    (∃ i, decode w = .command i ∧ isInstant i = false ∧ s.ctl.busy = false ∧ t = accept i s) := by
  unfold issue at h
  cases hd : decode w with
  | illegal why => simp [hd] at h; exact .inl ⟨why, rfl, h.symm⟩
  | command i =>
    simp only [hd] at h
    cases hi : isInstant i with
    | true => simp [hi] at h; exact .inr (.inl ⟨i, rfl, hi, h⟩)
    | false =>
      cases hb : s.ctl.busy with
      | true => simp [hi, hb] at h; exact .inr (.inr (.inl ⟨i, rfl, hi, rfl, h.symm⟩))
      | false => simp [hi, hb] at h; exact .inr (.inr (.inr ⟨i, rfl, hi, rfl, h.symm⟩))

/-- What a register write can do (R107, R112). -/
theorem writeReg_cases {r : Reg} {v : Word} (h : writeReg r v s = .next t) :
    (r = .cmd ∧ issue v s = .next t) ∨
    (r ≠ .cmd ∧ isLocked r = true ∧ s.ctl.busy = true ∧ t = { s with lockedWrite := true }) ∨
    (r ≠ .cmd ∧ (isLocked r = false ∨ s.ctl.busy = false) ∧ t = storeReg r v s) := by
  unfold writeReg at h
  by_cases hr : r = .cmd
  · simp [hr] at h; exact .inl ⟨hr, h⟩
  · rw [if_neg hr] at h
    cases hl : isLocked r <;> cases hb : s.ctl.busy <;> simp [hl, hb] at h
    · exact .inr (.inr ⟨hr, .inl rfl, h.symm⟩)
    · exact .inr (.inr ⟨hr, .inl rfl, h.symm⟩)
    · exact .inr (.inr ⟨hr, .inr rfl, h.symm⟩)
    · exact .inr (.inl ⟨hr, rfl, rfl, h.symm⟩)

/-- What one step can do: the engine's turn when no input waits, and the oldest input otherwise (R19). -/
theorem step_eq : step s = match s.inputs with
    | [] => engineTurn s
    | e :: rest => takeInput e { s with inputs := rest } := rfl

end Sys2Proof.Machine
end

