-- ==== Sys2Proof/Laws/Frames.lean ====
section
/-! SUPPORT. What the body of any command leaves alone, said once for all eighteen. -/

namespace Sys2Proof.Machine

variable {s t u : State}

/-- What no body of a command changes: the configuration, the error record, the events, the host's side of the machine. -/
structure SameOutside (s u : State) : Prop where
  cfg : u.cfg = s.cfg
  bufIndex : u.bufIndex = s.bufIndex
  irqEnable : u.irqEnable = s.irqEnable
  irqStatus : u.irqStatus = s.irqStatus
  errCode : u.errCode = s.errCode
  errAddr : u.errAddr = s.errAddr
  errMulti : u.errMulti = s.errMulti
  lockedWrite : u.lockedWrite = s.lockedWrite
  whold : u.whold = s.whold
  rhold : u.rhold = s.rhold
  busErrors : u.busErrors = s.busErrors
  inputs : u.inputs = s.inputs
  resp : u.resp = s.resp
  draw : u.draw = s.draw

theorem SameOutside.refl (s : State) : SameOutside s s := ⟨rfl, rfl, rfl, rfl, rfl, rfl, rfl, rfl, rfl, rfl, rfl, rfl, rfl, rfl⟩

theorem SameOutside.trans (h : SameOutside s t) (h' : SameOutside t u) : SameOutside s u :=
  ⟨h'.cfg.trans h.cfg, h'.bufIndex.trans h.bufIndex, h'.irqEnable.trans h.irqEnable, h'.irqStatus.trans h.irqStatus,
    h'.errCode.trans h.errCode, h'.errAddr.trans h.errAddr, h'.errMulti.trans h.errMulti,
    h'.lockedWrite.trans h.lockedWrite, h'.whold.trans h.whold, h'.rhold.trans h.rhold,
    h'.busErrors.trans h.busErrors, h'.inputs.trans h.inputs, h'.resp.trans h.resp, h'.draw.trans h.draw⟩

/-- How a body of a command can end, in terms of the state it started from. -/
def Work.Framed (s : State) : Work → Prop
  | .done u => SameOutside s u ∧ u.ctl = s.ctl ∧ (s.mem.wf = true → u.mem.wf = true)
  | .more u => SameOutside s u ∧ u.ctl = { s.ctl with phase := .blocks } ∧ (s.mem.wf = true → u.mem.wf = true)
  | .raised e u =>
    SameOutside s u ∧ u.ctl = s.ctl ∧ (s.mem.wf = true → u.mem.wf = true) ∧ (e.cause = .busRead ∨ e.cause = .busWrite) ∧
      e.addr < 2 ^ Config.addrW ∧ u.cursor = s.cursor ∧ u.blocksDone = s.blocksDone ∧ u.d = s.d ∧ u.basisValid = s.basisValid
  | .stopped _ => True

/-- A failing DMA access that is not outside `Mem` has an address in it. -/
theorem dmaStop_busError {k : AccessKind} {a b : Nat} (h : s.dmaStop k a = some (.busError b)) :
    b = a ∧ a < 2 ^ Config.addrW ∧ s.busError k a = true := by
  unfold State.dmaStop at h
  split at h
  · cases h
  · split at h
    · next h1 h2 => cases h; exact ⟨rfl, by omega, h2⟩
    · cases h

/-- What LOAD_BLOCK's loop leaves alone (R89). -/
theorem loadBlockOn_framed (s : State) :
    (loadBlockOn s).Framed s ∧ (∀ u, loadBlockOn s ≠ .more u) ∧
      ∀ u, loadBlockOn s = .done u → u.cursor = s.cursor ∧ u.blocksDone = s.blocksDone ∧ u.d = s.d ∧
        u.basisValid = s.basisValid ∧ u.mem = s.mem := by
  unfold loadBlockOn
  rcases readBytes_cases s s.srcAddrs with ⟨-, hr⟩ | ⟨xs, a, ys, e, -, -, he, hr⟩
  · rw [hr]
    refine ⟨⟨⟨rfl, rfl, rfl, rfl, rfl, rfl, rfl, rfl, rfl, rfl, rfl, rfl, rfl, rfl⟩, rfl, id⟩, by rintro u ⟨⟩, ?_⟩
    rintro u ⟨⟩
    exact ⟨rfl, rfl, rfl, rfl, rfl⟩
  · rw [hr]
    cases e with
    | busError b =>
      obtain ⟨rfl, hb, -⟩ := dmaStop_busError he
      refine ⟨⟨⟨rfl, rfl, rfl, rfl, rfl, rfl, rfl, rfl, rfl, rfl, rfl, rfl, rfl, rfl⟩, rfl, id, .inl rfl, hb, rfl, rfl,
        rfl, rfl⟩, by rintro u ⟨⟩, ?_⟩
      rintro u ⟨⟩
    | outside => exact ⟨trivial, by rintro u ⟨⟩, by rintro u ⟨⟩⟩

/-- What STORE_BLOCK's loop leaves alone (R90). -/
theorem storeBlockOn_framed (s : State) :
    (storeBlockOn s).Framed s ∧ (∀ u, storeBlockOn s ≠ .more u) ∧
      ∀ u, storeBlockOn s = .done u → u.cursor = s.cursor ∧ u.blocksDone = s.blocksDone ∧ u.d = s.d ∧
        u.basisValid = s.basisValid ∧ u.p = s.p ∧ u.w = s.w := by
  unfold storeBlockOn
  have hwf : s.mem.wf = true → (s.writeBytes s.dstCells s.mem).1.wf = true := fun h => wf_writeBytes h _
  rcases writeBytes_cases s s.dstCells s.mem with ⟨-, hr⟩ | ⟨xs, c, ys, e, -, -, he, hr⟩
  · rw [hr] at hwf ⊢
    refine ⟨⟨⟨rfl, rfl, rfl, rfl, rfl, rfl, rfl, rfl, rfl, rfl, rfl, rfl, rfl, rfl⟩, rfl, hwf⟩, by rintro u ⟨⟩, ?_⟩
    rintro u ⟨⟩
    exact ⟨rfl, rfl, rfl, rfl, rfl, rfl⟩
  · rw [hr] at hwf ⊢
    cases e with
    | busError b =>
      obtain ⟨rfl, hb, -⟩ := dmaStop_busError he
      refine ⟨⟨⟨rfl, rfl, rfl, rfl, rfl, rfl, rfl, rfl, rfl, rfl, rfl, rfl, rfl, rfl⟩, rfl, hwf, .inr rfl, hb, rfl, rfl,
        rfl, rfl⟩, by rintro u ⟨⟩, ?_⟩
      rintro u ⟨⟩
    | outside => exact ⟨trivial, by rintro u ⟨⟩, by rintro u ⟨⟩⟩

theorem pipelineOn_outside (s : State) : SameOutside s (pipelineOn s) := by
  constructor <;> simp

/-- What a RUN block step leaves alone (R97). -/
theorem runBlockOn_framed (hp : s.ctl.phase = .blocks) : (runBlockOn s).Framed s := by
  have hl := loadBlockOn_framed s
  unfold runBlockOn Work.andThen
  cases h1 : loadBlockOn s with
  | more u => exact absurd h1 (hl.2.1 u)
  | raised e u => rw [h1] at hl; exact hl.1
  | stopped f => trivial
  | done u =>
    rw [h1] at hl
    obtain ⟨⟨o1, c1, w1⟩, -, k1⟩ := hl
    obtain ⟨k1, k2, k3, k4, k5⟩ := k1 u rfl
    have hs := storeBlockOn_framed (pipelineOn u)
    have op := pipelineOn_outside u
    simp only
    cases h2 : storeBlockOn (pipelineOn u) with
    | more v => exact absurd h2 (hs.2.1 v)
    | stopped f => trivial
    | raised e v =>
      rw [h2] at hs
      obtain ⟨⟨o2, c2, w2, e1, e2, e3, e4, e5, e6⟩, -⟩ := hs
      refine ⟨o1.trans (op.trans o2), ?_, fun h => w2 ?_, e1, e2, ?_, ?_, ?_, ?_⟩
      · rw [c2]; simpa using c1
      · simpa using w1 h
      · rw [e3]; simpa using k1
      · rw [e4]; simpa using k2
      · rw [e5]; simpa using k3
      · rw [e6]; simpa using k4
    | done v =>
      rw [h2] at hs
      obtain ⟨⟨o2, c2, w2⟩, -⟩ := hs
      have hc : v.ctl = s.ctl := by rw [c2]; simpa using c1
      have hw : s.mem.wf = true → v.mem.wf = true := fun h => w2 (by simpa using w1 h)
      have o3 := o1.trans (op.trans o2)
      have key : SameOutside s { v with blocksDone := v.blocksDone + 1#32, cursor := v.nextCursor } :=
        ⟨o3.cfg, o3.bufIndex, o3.irqEnable, o3.irqStatus, o3.errCode, o3.errAddr, o3.errMulti, o3.lockedWrite, o3.whold,
          o3.rhold, o3.busErrors, o3.inputs, o3.resp, o3.draw⟩
      simp only [runCountOn]
      split
      · exact ⟨key, hc, hw⟩
      · refine ⟨key, ?_, hw⟩
        show v.ctl = _
        rw [hc, ← hp]

/-- What the body of any command leaves alone. -/
theorem bodyOf_framed (i : Instr) (s : State) : (bodyOf i s.ctl.phase s).Framed s := by
  have wb : ∀ b : State → Work, (b s).Framed s → (withBlock b s).Framed s := by
    intro b h
    unfold withBlock
    split
    · trivial
    · exact h
  have of : ∀ u : State, SameOutside s u → u.ctl = s.ctl → u.mem = s.mem → (Work.done u).Framed s :=
    fun u h1 h2 h3 => ⟨h1, h2, fun h => by rw [h3]; exact h⟩
  cases i
  case loadBlock => exact (loadBlockOn_framed s).1
  case storeBlock => exact (storeBlockOn_framed s).1
  case run =>
    cases hp : s.ctl.phase with
    | validate => exact ⟨by constructor <;> simp, rfl, by simp⟩
    | blocks => exact wb _ (runBlockOn_framed hp)
  case cursorNext => exact of _ ⟨rfl, rfl, rfl, rfl, rfl, rfl, rfl, rfl, rfl, rfl, rfl, rfl, rfl, rfl⟩ rfl rfl
  case buildBasis => exact of (buildBasisOn s) (by constructor <;> simp) (by simp) (by simp)
  case mask => exact of (maskOn s) (by constructor <;> simp) (by simp) (by simp)
  case recon => exact of (reconOn s) (by constructor <;> simp) (by simp) (by simp)
  case fdctCols => exact wb (fun t => .done (fdctColsOn t)) (of _ (by constructor <;> simp) (by simp) (by simp))
  case fdctRows => exact wb (fun t => .done (fdctRowsOn t)) (of _ (by constructor <;> simp) (by simp) (by simp))
  case fdct => exact wb (fun t => .done (fdctOn t)) (of _ (by constructor <;> simp) (by simp) (by simp))
  case idctCols => exact wb (fun t => .done (idctColsOn t)) (of _ (by constructor <;> simp) (by simp) (by simp))
  case idctRows => exact wb (fun t => .done (idctRowsOn t)) (of _ (by constructor <;> simp) (by simp) (by simp))
  case idct => exact wb (fun t => .done (idctOn t)) (of _ (by constructor <;> simp) (by simp) (by simp))
  all_goals exact of _ (SameOutside.refl s) rfl rfl

/-- A check that gives no bus error, no error of the command-issue path and no ABORTED. -/
def PlainCheck (check : State → Option Cause) : Prop :=
  ∀ s c, check s = some c →
    c ≠ .aborted ∧ c ≠ .commandWhileBusy ∧ c ≠ .illegalOpcode ∧ c ≠ .illegalReserved ∧ isBusError c = false

theorem checksOf_plain (i : Instr) (p : Phase) : ∀ check ∈ checksOf i p, PlainCheck check := by
  have h1 : PlainCheck checkFSize := by
    intro s c h; unfold checkFSize at h; repeat' split at h
    all_goals cases h <;> decide
  have h2 : PlainCheck checkFFull := by
    intro s c h; unfold checkFFull at h; repeat' split at h
    all_goals cases h <;> decide
  have h3 : PlainCheck checkThreshold := by
    intro s c h; unfold checkThreshold at h; repeat' split at h
    all_goals cases h <;> decide
  have h4 : PlainCheck checkSrcStride := by
    intro s c h; unfold checkSrcStride at h; split at h <;> cases h; decide
  have h5 : PlainCheck checkDstStride := by
    intro s c h; unfold checkDstStride at h; split at h <;> cases h; decide
  have h6 : PlainCheck checkSrcRange := by
    intro s c h; unfold checkSrcRange at h; split at h <;> cases h; decide
  have h7 : PlainCheck checkDstRange := by
    intro s c h; unfold checkDstRange at h; split at h <;> cases h; decide
  have h8 : PlainCheck checkOverlap := by
    intro s c h; unfold checkOverlap at h; split at h <;> cases h; decide
  have h9 : PlainCheck checkCursor := by
    intro s c h; unfold checkCursor at h; repeat' split at h
    all_goals cases h <;> decide
  have h10 : PlainCheck checkBasis := by
    intro s c h; unfold checkBasis at h; split at h <;> cases h; decide
  cases i <;> (try cases p) <;> simp [checksOf, *]

/-- Which causes the checks of a command can give: none of a bus error, of the command-issue path or of an ABORT (R118). -/
theorem checksOf_cause {i : Instr} {p : Phase} {c : Cause} (h : allOf (checksOf i p) s = some c) :
    c ≠ .aborted ∧ c ≠ .commandWhileBusy ∧ c ≠ .illegalOpcode ∧ c ≠ .illegalReserved ∧ isBusError c = false := by
  obtain ⟨check, hm, hc⟩ := List.exists_of_findSome?_eq_some h
  exact checksOf_plain i p check hm s c hc

end Sys2Proof.Machine
end

