-- ==== Sys2Proof/Laws/Blocks.lean ====
section
/-! SUPPORT. The block at CURSOR: its addresses, the loops over it when no access fails, and the count of blocks. -/

namespace Sys2Proof.Machine

variable {s u : State}

/-! ### Indices -/

theorem index_lt {m n i j : Nat} (hi : i < m) (hj : j < n) : i * n + j < m * n := by
  have : (i + 1) * n ≤ m * n := Nat.mul_le_mul_right _ hi
  rw [Nat.add_mul] at this
  omega

/-- The cursor advance moves to the next index in row-major order, for every block but the last (R88). -/
theorem nextBlock_index {br bc r c : Nat} (hr : r < br) (hc : c < bc) (h : r * bc + c + 1 ≠ br * bc) :
    (nextBlock br bc r c).1 < br ∧ (nextBlock br bc r c).2 < bc ∧
      (nextBlock br bc r c).1 * bc + (nextBlock br bc r c).2 = r * bc + c + 1 := by
  unfold nextBlock
  split
  · exact ⟨hr, by assumption, by simp; omega⟩
  · have hcb : c + 1 = bc := by omega
    split
    · refine ⟨by assumption, by simp; omega, ?_⟩
      simp [Nat.add_mul]; omega
    · exfalso
      apply h
      have : r + 1 = br := by omega
      rw [← this, Nat.add_mul]; omega

/-- The block grid fits its registers (R35), and BLOCKS_DONE never wraps (R37). -/
theorem grid_lt (s : State) : s.br < 2 ^ 16 ∧ s.bc < 2 ^ 16 ∧ s.nb < 2 ^ 32 := by
  have hr : s.br < 65536 := lt_of_le_of_lt (Nat.div_le_self _ _) s.cfg.imgRows.isLt
  have hc : s.bc < 65536 := lt_of_le_of_lt (Nat.div_le_self _ _) s.cfg.imgCols.isLt
  have : s.nb ≤ 65535 * 65535 := Nat.mul_le_mul (by omega) (by omega)
  exact ⟨hr, hc, by omega⟩

/-! ### Addresses -/

theorem pixel_le {base stride rt ct r c : Nat} (hr : r < rt) (hc : c < ct) :
    base + r * stride + c ≤ base + (rt - 1) * stride + ct - 1 := by
  have : r * stride ≤ (rt - 1) * stride := Nat.mul_le_mul_right _ (by omega)
  omega

section
variable (hr : s.cursor.row.toNat < s.br) (hc : s.cursor.col.toNat < s.bc)
include hr hc

/-- The block at CURSOR lies in the source region (R8). -/
theorem srcElem_le {i j : Nat} (hi : i < s.f) (hj : j < s.f) : s.srcElem i j ≤ s.srcEnd :=
  pixel_le (index_lt hr hi) (index_lt hc hj)

/-- The block at CURSOR lies in the destination region (R8). -/
theorem dstElem_le {i j : Nat} (hi : i < s.f) (hj : j < s.f) : s.dstElem i j ≤ s.dstEnd :=
  pixel_le (index_lt hr hi) (index_lt hc hj)

/-- A DMA read of the block never leaves `Mem` once the range check has passed (R55). -/
theorem srcAddrs_inside (h : s.srcEnd < 2 ^ Config.addrW) : ∀ a ∈ s.srcAddrs, s.dmaStop .read a ≠ some .outside := by
  intro a ha
  obtain ⟨e, he, rfl⟩ := List.mem_map.mp ha
  obtain ⟨h1, h2⟩ := mem_blockPairs.mp he
  have := srcElem_le hr hc h1 h2
  unfold State.dmaStop
  rw [if_neg (by omega)]
  split <;> simp

/-- A DMA write of the block never leaves `Mem` once the range check has passed (R55). -/
theorem dstCells_inside (h : s.dstEnd < 2 ^ Config.addrW) : ∀ c ∈ s.dstCells, s.dmaStop .write c.1 ≠ some .outside := by
  intro c hm
  obtain ⟨e, he, rfl⟩ := List.mem_map.mp hm
  obtain ⟨h1, h2⟩ := mem_blockPairs.mp he
  have := dstElem_le hr hc h1 h2
  unfold State.dmaStop
  rw [if_neg (by omega)]
  split <;> simp

/-- LOAD_BLOCK's loop does not stop (R89). -/
theorem loadBlockOn_not_stopped (h : s.srcEnd < 2 ^ Config.addrW) (f : Fault) : loadBlockOn s ≠ .stopped f := by
  have hx := srcAddrs_inside hr hc h
  unfold loadBlockOn
  rcases readBytes_cases s s.srcAddrs with ⟨-, hb⟩ | ⟨xs, a, ys, e, hs, -, he, hb⟩
  · simp [hb]
  · cases e with
    | busError b => simp [hb]
    | outside => exact absurd he (hx a (by simp [hs]))

/-- STORE_BLOCK's loop does not stop (R90). -/
theorem storeBlockOn_not_stopped (h : s.dstEnd < 2 ^ Config.addrW) (f : Fault) : storeBlockOn s ≠ .stopped f := by
  have hx := dstCells_inside hr hc h
  unfold storeBlockOn
  rcases writeBytes_cases s s.dstCells s.mem with ⟨-, hb⟩ | ⟨xs, a, ys, e, hs, -, he, hb⟩
  · simp [hb]
  · cases e with
    | busError b => simp [hb]
    | outside => exact absurd he (hx a (by simp [hs]))

/-- LOAD_BLOCK's loop when no read fails (R89). -/
theorem loadBlockOn_all (h : s.srcEnd < 2 ^ Config.addrW)
    (hb : ∀ i j, i < s.f → j < s.f → s.busError .read (s.srcElem i j) = false) :
    loadBlockOn s = .done { s with
      p := s.p.fillBlock s.f (s.srcAddrs.map s.mem.read)
      w := s.w.fillBlock s.f ((s.srcAddrs.map s.mem.read).map toF64) } := by
  have hx : ∀ a ∈ s.srcAddrs, s.dmaStop .read a = none := by
    intro a ha
    obtain ⟨e, he, rfl⟩ := List.mem_map.mp ha
    obtain ⟨h1, h2⟩ := mem_blockPairs.mp he
    have := srcElem_le hr hc h1 h2
    exact dmaStop_none.mpr ⟨by omega, hb _ _ h1 h2⟩
  unfold loadBlockOn
  rw [readBytes_all hx]

/-- STORE_BLOCK's loop when no write fails (R90). -/
theorem storeBlockOn_all (h : s.dstEnd < 2 ^ Config.addrW)
    (hb : ∀ i j, i < s.f → j < s.f → s.busError .write (s.dstElem i j) = false) :
    storeBlockOn s = .done { s with mem := writeAll s.dstCells s.mem } := by
  have hx : ∀ c ∈ s.dstCells, s.dmaStop .write c.1 = none := by
    intro c hm
    obtain ⟨e, he, rfl⟩ := List.mem_map.mp hm
    obtain ⟨h1, h2⟩ := mem_blockPairs.mp he
    have := dstElem_le hr hc h1 h2
    exact dmaStop_none.mpr ⟨by omega, hb _ _ h1 h2⟩
  unfold storeBlockOn
  rw [writeBytes_all _ hx]

end

/-- Element (i, j) of a list over the block's index pairs stands at position i·f + j (R54). -/
theorem getD_map_blockPairs {n f i j : Nat} (g : Nat → Nat → BitVec n) (hi : i < f) (hj : j < f) (d : BitVec n) :
    (((blockPairs f).map fun e => g e.1 e.2)[i * f + j]?).getD d = g i j := by
  rw [List.getElem?_map, blockPairs_getElem? (index_lt hi hj)]
  have h1 : (i * f + j) / f = i := by
    rw [mul_comm, Nat.mul_add_div (by omega), Nat.div_eq_of_lt hj]; omega
  have h2 : (i * f + j) % f = j := by
    rw [mul_comm, Nat.mul_add_mod, Nat.mod_eq_of_lt hj]
  simp [h1, h2]

/-! ### The block step of RUN -/

/-- What a block step of RUN that does not fail leaves (R97): the block is counted, CURSOR has advanced, the basis is as it was,
and the command goes on exactly when the count is not NB. -/
theorem runBlockOn_counts (hb : runBlockOn s = .more u ∨ runBlockOn s = .done u) :
    SameOutside s u ∧ u.d = s.d ∧ u.basisValid = s.basisValid ∧ u.blocksDone = s.blocksDone + 1#32 ∧
      u.cursor = s.nextCursor ∧ (runBlockOn s = .more u ↔ (s.blocksDone + 1#32).toNat ≠ s.nb) := by
  unfold runBlockOn Work.andThen at hb ⊢
  have hl := loadBlockOn_framed s
  cases h1 : loadBlockOn s with
  | more v => exact absurd h1 (hl.2.1 v)
  | raised e v => rw [h1] at hb; rcases hb with h | h <;> cases h
  | stopped f => rw [h1] at hb; rcases hb with h | h <;> cases h
  | done v =>
    rw [h1] at hb hl
    simp only at hb
    obtain ⟨⟨o1, -⟩, -, l2⟩ := hl
    obtain ⟨c1, n1, d1, b1, -⟩ := l2 v rfl
    have hst := storeBlockOn_framed (pipelineOn v)
    cases h2 : storeBlockOn (pipelineOn v) with
    | more v => exact absurd h2 (hst.2.1 _)
    | raised e v => rw [h2] at hb; rcases hb with h | h <;> cases h
    | stopped f => rw [h2] at hb; rcases hb with h | h <;> cases h
    | done w =>
      rw [h2] at hb hst
      simp only at hb
      obtain ⟨⟨o2, -⟩, -, l2⟩ := hst
      obtain ⟨c2, n2, d2, b2, -⟩ := l2 w rfl
      simp at c2 n2 d2 b2
      have o := o1.trans ((pipelineOn_outside v).trans o2)
      have hnc : w.nextCursor = s.nextCursor := by
        unfold State.nextCursor
        rw [br_congr o.cfg, bc_congr o.cfg, c2, c1]
      have hu : u = { w with blocksDone := w.blocksDone + 1#32, cursor := w.nextCursor } := by
        unfold runCountOn at hb
        simp only at hb
        split at hb <;> rcases hb with h | h <;> cases h <;> rfl
      have hiff : runCountOn w = .more u ↔ (s.blocksDone + 1#32).toNat ≠ s.nb := by
        unfold runCountOn
        simp only
        have e1 : State.nb { w with blocksDone := w.blocksDone + 1#32, cursor := w.nextCursor } = s.nb := nb_congr o.cfg
        rw [e1, n2, n1]
        split
        · next h => simp [h]
        · next h => simp [hu]; rw [n2, n1]; simpa using h
      refine ⟨?_, ?_, ?_, ?_, ?_, by simpa [h1, h2] using hiff⟩ <;> rw [hu]
      · exact ⟨o.1, o.2, o.3, o.4, o.5, o.6, o.7, o.8, o.9, o.10, o.11, o.12, o.13, o.14⟩
      · exact d2.trans d1
      · exact b2.trans b1
      · show w.blocksDone + 1#32 = _
        rw [n2, n1]
      · exact hnc

/-- Only RUN goes on after a work step (R153). -/
theorem run_of_more {i : Instr} (hb : bodyOf i s.ctl.phase s = .more u) : i = .run := by
  have wb : ∀ b : State → State, withBlock (fun t => .done (b t)) s ≠ .more u := by
    intro b h
    unfold withBlock at h
    split at h <;> cases h
  cases i <;> first | rfl | cases hb | skip
  case loadBlock => exact absurd hb ((loadBlockOn_framed s).2.1 u)
  case storeBlock => exact absurd hb ((storeBlockOn_framed s).2.1 u)
  case fdctCols => exact absurd hb (wb _)
  case fdctRows => exact absurd hb (wb _)
  case fdct => exact absurd hb (wb _)
  case idctCols => exact absurd hb (wb _)
  case idctRows => exact absurd hb (wb _)
  case idct => exact absurd hb (wb _)

end Sys2Proof.Machine
end

