-- ==== Sys2Proof/Laws/Decode.lean ====
section
/-! SUPPORT. The laws of the decoder: the opcode map reads the same both ways, and a word is a command exactly when it passes
the two checks of spec/30_encoding.md R65. -/

namespace Sys2Proof

/-- An opcode is a command's exactly when the opcode map says so (R66). -/
theorem instrOfOpcode_eq_some {op : Byte} {i : Instr} : instrOfOpcode op = some i ↔ op = opcodeOf i := by
  revert op
  cases i <;> decide +kernel

@[simp] theorem instrOfOpcode_opcodeOf (i : Instr) : instrOfOpcode (opcodeOf i) = some i :=
  instrOfOpcode_eq_some.mpr rfl

/-- The assigned opcodes are those of the opcode map (R66, R68). -/
theorem mem_assignedOpcodes {op : Byte} : op ∈ assignedOpcodes ↔ ∃ i, instrOfOpcode op = some i := by
  constructor
  · intro h
    have key : ∀ op : Byte, op ∈ assignedOpcodes → (instrOfOpcode op).isSome := by decide +kernel
    exact Option.isSome_iff_exists.mp (key op h)
  · rintro ⟨i, h⟩
    obtain rfl := instrOfOpcode_eq_some.mp h
    cases i <;> decide

/-- A word is its reserved field above its opcode field (R64). -/
theorem word_eq_fields (w : Word) : w = reservedField w ++ opcodeField w := by
  apply BitVec.eq_of_toNat_eq
  unfold reservedField opcodeField
  rw [BitVec.toNat_append, BitVec.extractLsb'_toNat, BitVec.extractLsb'_toNat, ← Nat.shiftLeft_add_eq_or_of_lt (by omega)]
  have := w.isLt
  simp [Nat.shiftLeft_eq, Nat.shiftRight_eq_div_pow]; omega

theorem opcodeField_encode (i : Instr) : opcodeField (encode i) = opcodeOf i := by cases i <;> decide

theorem reservedField_encode (i : Instr) : reservedField (encode i) = 0#24 := by cases i <;> decide

/-- What decoding a word can give (R65). -/
theorem decode_cases (w : Word) :
    (opcodeField w ∉ assignedOpcodes ∧ decode w = .illegal .unassignedOpcode) ∨
    (opcodeField w ∈ assignedOpcodes ∧ reservedField w ≠ 0#24 ∧ decode w = .illegal .reservedNonzero) ∨
    (∃ i, opcodeField w = opcodeOf i ∧ reservedField w = 0#24 ∧ decode w = .command i) := by
  unfold decode
  cases h : instrOfOpcode (opcodeField w) with
  | none =>
    refine .inl ⟨?_, rfl⟩
    rw [mem_assignedOpcodes]
    rintro ⟨i, hi⟩
    rw [h] at hi
    cases hi
  | some i =>
    by_cases hr : reservedField w = 0#24
    · exact .inr (.inr ⟨i, instrOfOpcode_eq_some.mp h, hr, by simp [hr]⟩)
    · exact .inr (.inl ⟨mem_assignedOpcodes.mpr ⟨i, h⟩, hr, by simp [hr]⟩)

/-- The decoder accepts exactly the words that pass the checks of WellFormed.lean, a text apart from the opcode map. -/
theorem decode_command_iff_wellFormed (w : Word) : (∃ i, decode w = .command i) ↔ wellFormedWord w = true := by
  have hop : opcodeAssigned w = true ↔ opcodeField w ∈ assignedOpcodes := by simp [opcodeAssigned, opcodeField]
  have hrs : reservedZero w = true ↔ reservedField w = 0#24 := by simp [reservedZero, reservedField]
  simp only [wellFormedWord, Bool.and_eq_true, hop, hrs]
  rcases decode_cases w with ⟨h1, h2⟩ | ⟨h1, h2, h3⟩ | ⟨i, h1, h2, h3⟩
  · simp [h1, h2]
  · simp [h1, h2, h3]
  · simp only [h3, h2, and_true]
    exact ⟨fun _ => mem_assignedOpcodes.mpr ⟨i, by rw [h1]; simp⟩, fun _ => ⟨i, rfl⟩⟩

end Sys2Proof
end

