-- ==== Sys2Proof/Laws/Host.lean ====
section
/-! SUPPORT. What a host access can do to the engine, and that every step over memory keeps its canonical form. -/

namespace Sys2Proof.Machine

variable {s t : State}

/-- The auto-increment changes BUF_INDEX alone (R113). -/
theorem autoinc_eq (s : State) : autoinc s = { s with bufIndex := (autoinc s).bufIndex } := by
  unfold autoinc
  split <;> rfl

/-- The auto-increment depends on BUF_INDEX and BLOCK_SIZE alone (R113). -/
theorem autoinc_bufIndex_congr (hc : t.cfg = s.cfg) (hb : t.bufIndex = s.bufIndex) :
    (autoinc t).bufIndex = (autoinc s).bufIndex := by
  unfold autoinc State.windowSide State.f State.fInt
  rw [hc, hb]
  split
  · rfl
  · exact hb

/-- A register read changes RHOLD and BUF_INDEX at most (R109, R115). -/
theorem readReg_state (r : Reg) (s : State) :
    (readReg r s).2 = { s with rhold := (readReg r s).2.rhold, bufIndex := (readReg r s).2.bufIndex } := by
  cases r <;> try rfl
  · simp only [readReg, readBufLo]
    split
    · rfl
    · cases s.bufIndex.sel <;> first | rfl | (simp only; rw [autoinc_eq])
  · simp only [readReg, readBufHi]
    split
    · rfl
    · cases s.bufIndex.sel <;> first | rfl | (simp only; rw [autoinc_eq])

/-- What a register write that is not of CMD never changes (R110). -/
theorem storeReg_frame (r : Reg) (v : Word) (s : State) :
    (storeReg r v s).ctl = s.ctl ∧ (storeReg r v s).errCode = s.errCode ∧ (storeReg r v s).errAddr = s.errAddr ∧
      (storeReg r v s).errMulti = s.errMulti ∧ (storeReg r v s).lockedWrite = s.lockedWrite ∧
      (storeReg r v s).blocksDone = s.blocksDone ∧ (storeReg r v s).d = s.d ∧ (storeReg r v s).mem = s.mem ∧
      (storeReg r v s).rhold = s.rhold ∧ (storeReg r v s).busErrors = s.busErrors ∧
      (storeReg r v s).inputs = s.inputs ∧ (storeReg r v s).resp = s.resp ∧ (storeReg r v s).draw = s.draw ∧
      (storeReg r v s).memBefore = s.memBefore := by
  cases r <;> try exact ⟨rfl, rfl, rfl, rfl, rfl, rfl, rfl, rfl, rfl, rfl, rfl, rfl, rfl, rfl⟩
  case bufDataLo =>
    simp only [storeReg, writeBufLo]
    cases s.bufIndex.sel <;> try exact ⟨rfl, rfl, rfl, rfl, rfl, rfl, rfl, rfl, rfl, rfl, rfl, rfl, rfl, rfl⟩
    rw [autoinc_eq]
    simp only
    split <;> exact ⟨rfl, rfl, rfl, rfl, rfl, rfl, rfl, rfl, rfl, rfl, rfl, rfl, rfl, rfl⟩
  case bufDataHi =>
    simp only [storeReg, writeBufHi]
    cases s.bufIndex.sel <;> try exact ⟨rfl, rfl, rfl, rfl, rfl, rfl, rfl, rfl, rfl, rfl, rfl, rfl, rfl, rfl⟩
    rw [autoinc_eq]
    simp only
    split <;> exact ⟨rfl, rfl, rfl, rfl, rfl, rfl, rfl, rfl, rfl, rfl, rfl, rfl, rfl, rfl⟩

/-- What a host access can do (R50, R107, R109, R110, R112). -/
theorem hostAccess_cases {a : HostAccess} (h : hostAccess a s = .next t) :
    ((a.width ≠ 32 ∨ a.offset.toNat % 4 ≠ 0) ∧ t = { s with resp := some .busError }) ∨
    (a.kind = .read ∧ t = { (readReg (regAt a.offset) s).2 with resp := some (.data (readReg (regAt a.offset) s).1) }) ∨
    (a.kind = .write ∧ writeReg (regAt a.offset) a.data { s with resp := some .written } = .next t) := by
  unfold hostAccess at h
  split at h
  · cases hk : a.kind with
    | read => rw [hk] at h; exact .inr (.inl ⟨rfl, (Host.Outcome.next.inj h).symm⟩)
    | write => rw [hk] at h; exact .inr (.inr ⟨rfl, h⟩)
  · exact .inl ⟨by tauto, (Host.Outcome.next.inj h).symm⟩

/-- What a host read of `Mem` can do (R58, R59): it gives the byte in `Mem`, or, for a byte that the command in flight writes,
either the byte before the command or the one that stands there when the command ends under the inputs that wait; nothing else changes but the draw. -/
theorem hostMemRead_cases {a : Word} (h : hostMemRead a s = .next t) :
    (s.commandWrites a.toNat = false ∧ t = { s with resp := some (.memByte (s.mem.read a.toNat)) }) ∨
    (s.commandWrites a.toNat = true ∧ ∃ v, t = { s with resp := some (.memByte v), draw := s.draw + 1 } ∧
      (v = s.memBefore.read a.toNat ∨ v = (memoryAtEnd s.inputs s).read a.toNat)) := by
  unfold hostMemRead at h
  split at h
  · rename_i hw
    refine .inr ⟨hw, _, (Host.Outcome.next.inj h).symm, ?_⟩
    unfold State.racedByte
    split
    · exact .inr rfl
    · exact .inl rfl
  · rename_i hw
    exact .inl ⟨by simpa using hw, (Host.Outcome.next.inj h).symm⟩

/-- Without a command in flight the memory at the end of it is the memory. -/
theorem memoryAtEnd_idle (is : List Input) (h : s.ctl.busy = false) : memoryAtEnd is s = s.mem := by
  cases is <;> simp [memoryAtEnd, memoryAlone, h]

/-- A command that the reset input discards writes no further byte (R140). -/
theorem memoryAtEnd_rst (rest : List Input) (s : State) : memoryAtEnd (.rst :: rest) s = s.mem := by
  unfold memoryAtEnd
  split
  · exact memoryAtEnd_idle rest rfl
  · rfl

/-- A command that SOFT_RESET discards writes no further byte (R106). -/
theorem memoryAtEnd_softReset (rest : List Input) (s : State) : memoryAtEnd (hostCmd .softReset :: rest) s = s.mem := by
  unfold memoryAtEnd
  split
  · exact memoryAtEnd_idle rest rfl
  · rfl

/-- A command with an ABORT pending writes no further byte when the engine's turn comes next (R105, R119). -/
theorem memoryAtEnd_aborted (rest : List Input) (h : s.ctl.abortPending = true) : memoryAtEnd (.engine :: rest) s = s.mem := by
  unfold memoryAtEnd
  split
  · split
    · rename_i hb _ t ht
      obtain ⟨hi, -⟩ | ⟨-, i, -, hi, he⟩ := engineTurn_cases ht
      · exact absurd hb (by simp [hi])
      · rw [exec_eq_workStep hi, workStep_abort h] at he
        cases he
        rw [memoryAtEnd_idle rest (by simp [Ctl.idle])]
        simp
    · rfl
    · rfl
  · rfl

/-- An idle engine writes no byte, so every host read then gives the byte in `Mem` (R58). -/
theorem hostMemRead_idle (a : Word) (h : s.ctl.busy = false) :
    hostMemRead a s = .next { s with resp := some (.memByte (s.mem.read a.toNat)) } := by
  simp [hostMemRead, State.commandWrites, h]

/-! ### The canonical form of memory -/

theorem wf_reset : State.reset.mem.wf = true := rfl

theorem wf_resetEngine (h : s.mem.wf = true) : (resetEngine s).mem.wf = true := h

theorem wf_hostMemWrite {a : Word} {v : Byte} (h : s.mem.wf = true) (ht : hostMemWrite a v s = .next t) :
    t.mem.wf = true := by
  unfold hostMemWrite at ht
  split at ht
  · cases ht
  · cases ht
    exact Memory.wf_write h _ _

theorem wf_hostMemRead {a : Word} (h : s.mem.wf = true) (ht : hostMemRead a s = .next t) : t.mem.wf = true := by
  unfold hostMemRead at ht
  split at ht <;> (cases ht; exact h)

theorem wf_record (c : Cause) (o : Byte) (a : Nat) (h : s.mem.wf = true) : (record c o a s).mem.wf = true := by
  simpa using h

theorem wf_withFetchWord (nbits w : Nat) (h : s.mem.wf = true) : (s.withFetchWord nbits w).mem.wf = true := by
  unfold State.withFetchWord loadCommand
  simp only
  split
  · split <;> exact h
  · exact h

end Sys2Proof.Machine
end

