-- ==== Sys2Proof/Laws/Numeric.lean ====
section
/-! SUPPORT. The laws of rounding: the one place where binary64 results and samples lose bits. -/

namespace Sys2Proof.Machine

/-- Rounding to the nearest integer is off by at most one half (R11, R16). -/
theorem nearestEven_close (m k : Nat) :
    2 * m ≤ 2 * (nearestEven m k * 2 ^ k) + 2 ^ k ∧ 2 * (nearestEven m k * 2 ^ k) ≤ 2 * m + 2 ^ k := by
  have hp : 0 < 2 ^ k := Nat.two_pow_pos k
  have hm := Nat.div_add_mod m (2 ^ k)
  have hl := Nat.mod_lt m hp
  rw [mul_comm] at hm
  unfold nearestEven
  repeat' split
  · omega
  · rw [Nat.add_mul, one_mul]; omega
  · rcases Nat.mod_two_eq_zero_or_one (m / 2 ^ k) with h | h <;> rw [h]
    · simp only [add_zero]; omega
    · rw [Nat.add_mul, one_mul]; omega

/-- A tie is rounded to the even integer (R11, R16). -/
theorem nearestEven_tie {m k : Nat} (h : 2 * (m % 2 ^ k) = 2 ^ k) : nearestEven m k % 2 = 0 := by
  unfold nearestEven
  rw [if_neg (by omega), if_neg (by omega)]
  omega

/-- An integer is its own rounding. -/
theorem nearestEven_exact (m k : Nat) : nearestEven (m * 2 ^ k) k = m := by
  have hp : 0 < 2 ^ k := Nat.two_pow_pos k
  simp [nearestEven, Nat.mul_div_cancel _ hp]

theorem toNat_withSign_false {m : Nat} (h : m < 2 ^ 64) : (withSign false m).toNat = m := by
  simp only [withSign, Bool.false_eq_true, if_false, BitVec.toNat_ofNat]
  exact Nat.mod_eq_of_lt h

theorem toNat_withSign_true {m : Nat} (h : m < 2 ^ 63) : (withSign true m).toNat = 2 ^ 63 + m := by
  simp only [withSign, if_true, BitVec.toNat_ofNat]
  exact Nat.mod_eq_of_lt (by omega)

/-- The magnitude of a finite number: its exponent field and its fraction field in one number. -/
theorem unpack_withSign {neg : Bool} {m : Nat} (h : m < infinityBits) :
    unpack (withSign neg m) =
      if m < 2 ^ 52 then .fin neg m 0 else .fin neg (m % 2 ^ 52 + 2 ^ 52) (m / 2 ^ 52 - 1) := by
  unfold infinityBits at h
  have hs : signOf (withSign neg m) = neg := by
    cases neg
    · simp only [signOf, toNat_withSign_false (show m < 2 ^ 64 by omega)]; simp; omega
    · simp only [signOf, toNat_withSign_true (show m < 2 ^ 63 by omega)]; simp
  have he : exponentField (withSign neg m) = m / 2 ^ 52 := by
    cases neg
    · simp only [exponentField, toNat_withSign_false (show m < 2 ^ 64 by omega)]; omega
    · simp only [exponentField, toNat_withSign_true (show m < 2 ^ 63 by omega)]; omega
  have hf : fractionField (withSign neg m) = m % 2 ^ 52 := by
    cases neg
    · simp only [fractionField, toNat_withSign_false (show m < 2 ^ 64 by omega)]
    · simp only [fractionField, toNat_withSign_true (show m < 2 ^ 63 by omega)]; omega
  unfold unpack
  rw [hs, he, hf, if_neg (by omega)]
  split
  · rw [if_pos (by omega), Nat.mod_eq_of_lt (by omega)]
  · rw [if_neg (by omega)]

end Sys2Proof.Machine
end

