-- ==== Sys2Proof/Laws/PerInstr.lean ====
section
/-! SUPPORT. Laws stated instruction by instruction (LAWS.json). -/

namespace Sys2Proof.Laws.RoundTrip

/-- The word of a command is well formed, decodes to the command (R70), and is what the table's numbering gives too. -/
def Statement (i : Instr) : Prop :=
  i.wellFormed = true ∧ wellFormedWord (encode i) = true ∧ decode (encode i) = .command i ∧
    decodeTableWord 32 (encode i).toNat = some i

theorem nop : Statement .nop := by unfold Statement; decide
theorem validate : Statement .validate := by unfold Statement; decide
theorem buildBasis : Statement .buildBasis := by unfold Statement; decide
theorem run : Statement .run := by unfold Statement; decide
theorem loadBlock : Statement .loadBlock := by unfold Statement; decide
theorem storeBlock : Statement .storeBlock := by unfold Statement; decide
theorem cursorNext : Statement .cursorNext := by unfold Statement; decide
theorem fdctCols : Statement .fdctCols := by unfold Statement; decide
theorem fdctRows : Statement .fdctRows := by unfold Statement; decide
theorem fdct : Statement .fdct := by unfold Statement; decide
theorem idctCols : Statement .idctCols := by unfold Statement; decide
theorem idctRows : Statement .idctRows := by unfold Statement; decide
theorem idct : Statement .idct := by unfold Statement; decide
theorem mask : Statement .mask := by unfold Statement; decide
theorem recon : Statement .recon := by unfold Statement; decide
theorem clearErr : Statement .clearErr := by unfold Statement; decide
theorem abort : Statement .abort := by unfold Statement; decide
theorem softReset : Statement .softReset := by unfold Statement; decide

end Sys2Proof.Laws.RoundTrip
end

