-- ==== Sys2Proof/Tests/Slice0.lean ====
section
/-! SUPPORT. The model's own tests.  Every expected value is written out from spec/ (the vector is named beside it), and every
statement with hypotheses has a witness that meets them. -/

namespace Sys2Proof.Tests

set_option Elab.async false

open Sys2Proof Sys2Proof.Machine

/-! ### Helpers -/

/-- Whether an outcome is a next state with a property. -/
def answers (o : Host.Outcome State Fault Refusal) (p : State → Bool) : Bool :=
  match o with
  | .next t => p t
  | .fault _ => false
  | .refused _ => false

theorem next_of_answers {o : Host.Outcome State Fault Refusal} {p : State → Bool} (h : answers o p = true) :
    ∃ t, o = .next t ∧ p t = true := by
  cases o with
  | next t => exact ⟨t, rfl, h⟩
  | fault f => cases h
  | refused r => cases h

/-- Buffers that hold 0 everywhere. -/
def zeros {n : Nat} : Mat (BitVec n) := Mat.tab fun _ _ => 0#n

/-- A buffer with a 2 × 2 block in its corner and 0 elsewhere. -/
def corner {n : Nat} (a b c d : BitVec n) : Mat (BitVec n) :=
  Mat.tab fun i j =>
    if i = 0 ∧ j = 0 then a else if i = 0 ∧ j = 1 then b else if i = 1 ∧ j = 0 then c else if i = 1 ∧ j = 1 then d else 0#n

/-- The 2 × 2 block in the corner of a buffer. -/
def cornerOf {n : Nat} (m : Mat (BitVec n)) : List (BitVec n) := [m.elem 0 0, m.elem 0 1, m.elem 1 0, m.elem 1 1]

/-- The basis for F = 2 (spec/95_test_vectors.md V2). -/
def basis2 : Mat F64 := corner 0x3FE6A09E667F3BCD#64 0x3FE6A09E667F3BCD#64 0x3FE6A09E667F3BCD#64 0xBFE6A09E667F3BCD#64

/-- The base setup of V10: R = C = 4, F = 2, d = 1, source 0x1000 stride 4, destination 0x2000 stride 4. -/
def base : State :=
  { State.reset with
    cfg := ⟨4#16, 4#16, 2#16, 1#16, 0x1000#32, 4#32, 0x2000#32, 4#32⟩
    p := zeros
    w := zeros
    d := basis2 }

/-- The base setup with the basis built. -/
def based : State := { base with basisValid := true }

/-- A state with this command in flight. -/
def inFlight (i : Instr) (s : State) : State := accept i s

/-- The rows 0, 10, 20, … 150 of V12 at 0x1000. -/
def image : Memory :=
  [(0x1001, 10#8), (0x1002, 20#8), (0x1003, 30#8), (0x1004, 40#8), (0x1005, 50#8), (0x1006, 60#8), (0x1007, 70#8),
   (0x1008, 80#8), (0x1009, 90#8), (0x100A, 100#8), (0x100B, 110#8), (0x100C, 120#8), (0x100D, 130#8), (0x100E, 140#8),
   (0x100F, 150#8)]

/-- A RUN in its block phase, at the first block. -/
def blocks : State := { based with ctl := ⟨true, 0x03#8, false, .blocks⟩, mem := image }

/-! ### Well-formed words: one ill-formed word for each check (spec/30_encoding.md R65, V11) -/

theorem test_wellFormed_accepts_run : wellFormedWord 0x00000003#32 = true := by decide
theorem test_opcodeAssigned_refuses : opcodeAssigned 0x00000005#32 = false ∧ wellFormedWord 0x00000005#32 = false := by decide
theorem test_reservedZero_refuses : reservedZero 0x00000103#32 = false ∧ wellFormedWord 0x00000103#32 = false := by decide

/-! ### Decoding: the words of R66, bit by bit -/

theorem test_decode_pipeline_control :
    decode 0b00000000000000000000000000000000#32 = .command .nop ∧
    decode 0b00000000000000000000000000000001#32 = .command .validate ∧
    decode 0b00000000000000000000000000000010#32 = .command .buildBasis ∧
    decode 0b00000000000000000000000000000011#32 = .command .run := by decide

theorem test_decode_block_io :
    decode 0b00000000000000000000000000010000#32 = .command .loadBlock ∧
    decode 0b00000000000000000000000000010001#32 = .command .storeBlock ∧
    decode 0b00000000000000000000000000010010#32 = .command .cursorNext := by decide

theorem test_decode_transforms :
    decode 0b00000000000000000000000000100000#32 = .command .fdctCols ∧
    decode 0b00000000000000000000000000100001#32 = .command .fdctRows ∧
    decode 0b00000000000000000000000000100010#32 = .command .fdct ∧
    decode 0b00000000000000000000000000101000#32 = .command .idctCols ∧
    decode 0b00000000000000000000000000101001#32 = .command .idctRows ∧
    decode 0b00000000000000000000000000101010#32 = .command .idct := by decide

theorem test_decode_mask_recon :
    decode 0b00000000000000000000000000110000#32 = .command .mask ∧
    decode 0b00000000000000000000000000110001#32 = .command .recon := by decide

theorem test_decode_control :
    decode 0b00000000000000000000000011110000#32 = .command .clearErr ∧
    decode 0b00000000000000000000000011111110#32 = .command .abort ∧
    decode 0b00000000000000000000000011111111#32 = .command .softReset := by decide

/-- V11: the illegal words, and which check refuses each. -/
theorem test_decode_illegal :
    decode 0x00000005#32 = .illegal .unassignedOpcode ∧ decode 0x00000103#32 = .illegal .reservedNonzero ∧
    decode 0x00000100#32 = .illegal .reservedNonzero ∧ decode 0x000001FF#32 = .illegal .reservedNonzero ∧
    decode 0x00000104#32 = .illegal .unassignedOpcode := by decide

/-- R49: byte lane 0 holds bits [7:0]. -/
theorem test_decode_lanes :
    decodeLanes [0x03#8, 0x00#8, 0x00#8, 0x00#8] = some (.command .run) ∧
    decodeLanes [0x00#8, 0x00#8, 0x00#8, 0x03#8] = some (.illegal .reservedNonzero) ∧ decodeLanes [0x03#8] = none := by decide

theorem test_decodeTableWord : decodeTableWord 32 0x22 = some .fdct ∧ decodeTableWord 32 0x05 = none := by decide

/-! ### Arithmetic (R11, R16, V7.1) -/

/-- 1 + 2^−53 is a tie and goes to the even 1; −0 + −0 = −0; ∞ − ∞ is the canonical NaN; the least subnormal is kept. -/
theorem test_add64 :
    add64 0x3FF0000000000000#64 0x3CA0000000000000#64 = 0x3FF0000000000000#64 ∧
    add64 0x8000000000000000#64 0x8000000000000000#64 = 0x8000000000000000#64 ∧
    add64 0x7FF0000000000000#64 0xFFF0000000000000#64 = 0x7FF8000000000000#64 ∧
    add64 0x0000000000000001#64 0x0000000000000000#64 = 0x0000000000000001#64 := by decide +kernel

/-- 3 · 0.5 = 1.5; −1 · 0 = −0; 2^1023 · 2 = ∞; 2^−1074 · 0.5 is a tie and goes to the even 0; 0 · ∞ is the canonical NaN. -/
theorem test_mul64 :
    mul64 0x4008000000000000#64 0x3FE0000000000000#64 = 0x3FF8000000000000#64 ∧
    mul64 0xBFF0000000000000#64 0x0000000000000000#64 = 0x8000000000000000#64 ∧
    mul64 0x7FE0000000000000#64 0x4000000000000000#64 = 0x7FF0000000000000#64 ∧
    mul64 0x0000000000000001#64 0x3FE0000000000000#64 = 0x0000000000000000#64 ∧
    mul64 0x0000000000000000#64 0x7FF0000000000000#64 = 0x7FF8000000000000#64 := by decide +kernel

theorem test_toF64 : toF64 231#8 = 0x406CE00000000000#64 ∧ toF64 0#8 = 0#64 := by decide +kernel

/-- V2: n = 3, 4 and 8, with the exact zero of (1, 1) for n = 3. -/
theorem test_basis :
    basis 3 0 2 = 0x3FE279A74590331C#64 ∧ basis 3 1 1 = 0x0000000000000000#64 ∧ basis 3 2 1 = 0xBFEA20BD700C2C3E#64 ∧
    basis 4 1 0 = 0x3FE4E7AE9144F0FC#64 ∧ basis 4 3 1 = 0xBFE4E7AE9144F0FC#64 ∧ basis 8 1 3 = 0x3FB8F8B83C69A60B#64 ∧
    basis 8 7 7 = 0xBFB8F8B83C69A60B#64 ∧ basis 8 5 1 = 0xBFDF6297CFF75CB0#64 := by decide +kernel

/-! ### The commands, one step each -/

theorem test_nop : answers (exec .nop base) (fun t => t.ctl == base.ctl && t.irqStatus == base.irqStatus) = true := by decide

/-- R104: ERR_CODE = 0x0000_0312 with ERR_MULTI. -/
theorem test_clearErr :
    answers (exec .clearErr { base with errCode := some ⟨.thresholdNegative, 0x03#8⟩, errMulti := true, lockedWrite := true })
      (fun t => t.errCodeWord == 0#32 && !t.errMulti && !t.lockedWrite) = true := by decide

/-- P5 step 5: ABORT sets bit 4 of STATUS, 0x0000_0309 becomes 0x0000_0319; idle, it does nothing. -/
theorem test_abort :
    answers (exec .abort blocks) (fun t => t.statusWord == 0x00000319#32) = true ∧
    answers (exec .abort base) (fun t => t.statusWord == 0#32) = true := by decide

theorem test_softReset :
    answers (exec .softReset blocks) (fun t => t.statusWord == 0#32 && t.cfg.blockSize == 0#16 && t.mem == image) = true := by
  decide +kernel

/-- V10: THRESH = 3 is 2F − 1; 2F − 2 passes. -/
theorem test_validate_threshold :
    answers (exec .validate (inFlight .validate { base with cfg := { base.cfg with thresh := 3#16 } }))
      (fun t => t.errCodeWord == 0x00000122#32 && t.statusWord == 0x00000002#32) = true ∧
    answers (exec .validate (inFlight .validate { base with cfg := { base.cfg with thresh := 2#16 } }))
      (fun t => t.statusWord == 0#32 && t.irqStatus.done) = true := by decide +kernel

/-- V10: the region ends at the last address, and one byte further; the shared byte 0x100F; the in-place form. -/
theorem test_validate_regions :
    answers (exec .validate (inFlight .validate { base with cfg := { base.cfg with srcBase := 0xFFFFFFF0#32 } }))
      (fun t => t.errCodeWord == 0#32) = true ∧
    answers (exec .validate (inFlight .validate { base with cfg := { base.cfg with srcBase := 0xFFFFFFF1#32 } }))
      (fun t => t.errCodeWord == 0x00000114#32) = true ∧
    answers (exec .validate (inFlight .validate { base with cfg := { base.cfg with dstBase := 0x100F#32 } }))
      (fun t => t.errCodeWord == 0x00000105#32) = true ∧
    answers (exec .validate (inFlight .validate { base with cfg := { base.cfg with dstBase := 0x1000#32 } }))
      (fun t => t.errCodeWord == 0#32) = true := by decide +kernel

/-- R73's example: the basis of F = 2. -/
theorem test_buildBasis :
    answers (exec .buildBasis (inFlight .buildBasis { base with d := zeros }))
      (fun t => cornerOf t.d == cornerOf basis2 && t.basisValid) = true := by decide +kernel

/-- R74's example. -/
theorem test_fdctCols :
    answers (exec .fdctCols { based with
        w := corner 0x3FF0000000000000#64 0x4000000000000000#64 0x4008000000000000#64 0x4010000000000000#64 })
      (fun t => cornerOf t.w ==
        [0x4006A09E667F3BCD#64, 0x4010F876CCDF6CDA#64, 0xBFF6A09E667F3BCE#64, 0xBFF6A09E667F3BCD#64]) = true := by
  decide +kernel

/-- R75's example. -/
theorem test_fdctRows :
    answers (exec .fdctRows { based with
        w := corner 0x4006A09E667F3BCD#64 0x4010F876CCDF6CDA#64 0xBFF6A09E667F3BCE#64 0xBFF6A09E667F3BCD#64 })
      (fun t => cornerOf t.w ==
        [0x4014000000000001#64, 0xBFF0000000000000#64, 0xC000000000000001#64, 0x0000000000000000#64]) = true := by
  decide +kernel

/-- R76's example. -/
theorem test_fdct :
    answers (exec .fdct { based with
        w := corner 0x3FF0000000000000#64 0x4000000000000000#64 0x4008000000000000#64 0x4010000000000000#64 })
      (fun t => cornerOf t.w ==
        [0x4014000000000001#64, 0xBFF0000000000000#64, 0xC000000000000001#64, 0x0000000000000000#64]) = true := by
  decide +kernel

/-- V11: FDCT without a basis. -/
theorem test_fdct_without_basis :
    answers (exec .fdct (inFlight .fdct base)) (fun t => t.errCodeWord == 0x00002209#32) = true := by decide

/-- R81's example (V6.1). -/
theorem test_idctCols :
    answers (exec .idctCols { based with
        w := corner 0x4014000000000001#64 0xBFF0000000000000#64 0xC000000000000001#64 0x0000000000000000#64 })
      (fun t => cornerOf t.w ==
        [0x4000F876CCDF6CDB#64, 0xBFE6A09E667F3BCD#64, 0x4013CC8A99AF5454#64, 0xBFE6A09E667F3BCD#64]) = true := by
  decide +kernel

/-- R82's example (V6.1). -/
theorem test_idctRows :
    answers (exec .idctRows { based with
        w := corner 0x4000F876CCDF6CDB#64 0xBFE6A09E667F3BCD#64 0x4013CC8A99AF5454#64 0xBFE6A09E667F3BCD#64 })
      (fun t => cornerOf t.w ==
        [0x3FF0000000000002#64, 0x4000000000000002#64, 0x4008000000000002#64, 0x4010000000000001#64]) = true := by
  decide +kernel

/-- V6.2: after MASK with d = 1 all four elements are 2.500000000000001. -/
theorem test_idct :
    answers (exec .idct { based with w := corner 0x4014000000000001#64 0#64 0#64 0#64 })
      (fun t => cornerOf t.w ==
        [0x4004000000000002#64, 0x4004000000000002#64, 0x4004000000000002#64, 0x4004000000000002#64]) = true := by
  decide +kernel

/-- V5.2 and V5.3: d = 2 keeps three elements bit for bit, a NaN of the host's and −0.0 among them; d = 0 keeps none. -/
theorem test_mask :
    answers (exec .mask { base with
        cfg := { base.cfg with thresh := 2#16 }
        w := corner 0x8000000000000000#64 0x7FF0000000000001#64 0xC000000000000001#64 0x3FF0000000000000#64 })
      (fun t => cornerOf t.w ==
        [0x8000000000000000#64, 0x7FF0000000000001#64, 0xC000000000000001#64, 0x0000000000000000#64]) = true ∧
    answers (exec .mask { base with
        cfg := { base.cfg with thresh := 0#16 }
        w := corner 0x8000000000000000#64 0x7FF0000000000001#64 0xC000000000000001#64 0x3FF0000000000000#64 })
      (fun t => cornerOf t.w == [0#64, 0#64, 0#64, 0#64]) = true := by decide +kernel

/-- V5.4: MASK with F = 2, d = 3. -/
theorem test_mask_threshold :
    answers (exec .mask (inFlight .mask { base with cfg := { base.cfg with thresh := 3#16 } }))
      (fun t => t.errCodeWord == 0x00003022#32) = true := by decide +kernel

/-- V7.1: −0.5, 254.5, 255.5 and 2.5000000000000004. -/
theorem test_recon :
    answers (exec .recon { base with
        w := corner 0xBFE0000000000000#64 0x406FD00000000000#64 0x406FF00000000000#64 0x4004000000000001#64 })
      (fun t => cornerOf t.p == [0#8, 254#8, 255#8, 3#8]) = true := by decide +kernel

/-- V8.2: R = 3, C = 5, F = 2, CURSOR = (0, 1): the reads are at 0x1002, 0x1003, 0x100A, 0x100B. -/
theorem test_loadBlock :
    answers (exec .loadBlock { base with
        cfg := ⟨3#16, 5#16, 2#16, 0#16, 0x1000#32, 8#32, 0x2000#32, 4#32⟩
        cursor := ⟨0#16, 1#16⟩
        mem := [(0x1002, 1#8), (0x1003, 2#8), (0x100A, 3#8), (0x100B, 4#8)] })
      (fun t => cornerOf t.p == [1#8, 2#8, 3#8, 4#8] &&
        cornerOf t.w == [0x3FF0000000000000#64, 0x4000000000000000#64, 0x4008000000000000#64, 0x4010000000000000#64]) =
      true := by decide +kernel

/-- V8.4: the read of 0x1005 fails; the elements before it are new, the last is old. -/
theorem test_loadBlock_busError :
    answers (exec .loadBlock (inFlight .loadBlock { base with
        mem := image, busErrors := [⟨.read, 0x1005, 0x1005⟩], p := corner 9#8 9#8 9#8 9#8 }))
      (fun t => t.errCodeWord == 0x00001016#32 && t.errAddr == 0x1005#32 && t.statusWord == 0x00000002#32 &&
        cornerOf t.p == [0#8, 10#8, 40#8, 9#8]) = true := by decide +kernel

/-- V8.2: the writes are at 0x2002, 0x2003, 0x2006, 0x2007. -/
theorem test_storeBlock :
    answers (exec .storeBlock { base with
        cfg := ⟨3#16, 5#16, 2#16, 0#16, 0x1000#32, 8#32, 0x2000#32, 4#32⟩
        cursor := ⟨0#16, 1#16⟩
        p := corner 1#8 2#8 3#8 4#8 })
      (fun t => t.mem == [(0x2002, 1#8), (0x2003, 2#8), (0x2006, 3#8), (0x2007, 4#8)]) = true := by decide +kernel

/-- STORE_BLOCK in flight for the block at (0, 0) with the samples 1, 2, 3, 4, over the byte 9 at 0x2000 and 8 at 0x2002. -/
def storing : State :=
  inFlight .storeBlock { base with p := corner 1#8 2#8 3#8 4#8, mem := [(0x2000, 9#8), (0x2002, 8#8)] }

/-- R59: a host read of a byte the command writes gives the old or the new one (9 or 1); a byte of another block has one value. -/
theorem test_hostMemRead_store :
    (answers (hostMemRead 0x2000#32 storing) (fun t => t.resp == some (.memByte 9#8)) = true ∨
      answers (hostMemRead 0x2000#32 storing) (fun t => t.resp == some (.memByte 1#8)) = true) ∧
    answers (hostMemRead 0x2002#32 storing) (fun t => t.resp == some (.memByte 8#8)) = true := by
  constructor
  · have h : storing.commandWrites 0x2000 = true := by decide +kernel
    have old : storing.memBefore.read 0x2000 = 9#8 := by decide +kernel
    have new : (memoryAtEnd storing.inputs storing).read 0x2000 = 1#8 := by decide +kernel
    simp only [hostMemRead, BitVec.toNat_ofNat, Nat.reducePow, Nat.reduceMod, h, if_true, answers, State.racedByte, old, new]
    cases Config.racedReadIsNew storing.draw <;> simp
  · decide +kernel

/-- STORE_BLOCK in flight, with an ABORT before its work step. -/
def abortedStoring : State := { storing with inputs := [hostCmd .abort, .engine] }

/-- R59, R105: when an ABORT comes before the work step, the command never writes the byte, and the read gives the old one alone. -/
theorem test_hostMemRead_aborted :
    answers (hostMemRead 0x2000#32 abortedStoring) (fun t => t.resp == some (.memByte 9#8)) = true := by
  have h : abortedStoring.commandWrites 0x2000 = true := by decide +kernel
  have old : abortedStoring.memBefore.read 0x2000 = 9#8 := by decide +kernel
  have new : (memoryAtEnd abortedStoring.inputs abortedStoring).read 0x2000 = 9#8 := by decide +kernel
  simp [hostMemRead, h, answers, State.racedByte, old, new]

/-- R59 in a RUN whose output stride is 9: the last pixel of a row is written, the stride gap after it and the row's end are not. -/
theorem test_hostMemRead_run :
    (let s := { blocks with cfg := { blocks.cfg with dstStride := 9#32 } }
     s.commandWrites 0x2003 && !s.commandWrites 0x2004 && !s.commandWrites 0x2008 && s.commandWrites 0x2009 &&
       s.commandWrites 0x201E && !s.commandWrites 0x201F && !s.commandWrites 0x1FFF) = true := by decide +kernel

/-- V8.3: with BR = 2 and BC = 3, (0, 2) goes to (1, 0) and (1, 2) to (0, 0). -/
theorem test_cursorNext :
    answers (exec .cursorNext { base with cfg := { base.cfg with imgRows := 5#16, imgCols := 7#16 }, cursor := ⟨0#16, 2#16⟩ })
      (fun t => cursorWord t.cursor == 0x00000001#32) = true ∧
    answers (exec .cursorNext { base with cfg := { base.cfg with imgRows := 5#16, imgCols := 7#16 }, cursor := ⟨1#16, 2#16⟩ })
      (fun t => cursorWord t.cursor == 0#32) = true := by decide +kernel

/-- P5 step 2: step 0 of RUN. -/
theorem test_run_start :
    answers (exec .run (inFlight .run { base with d := zeros, cursor := ⟨7#16, 7#16⟩, blocksDone := 5#32 }))
      (fun t => t.statusWord == 0x00000309#32 && cornerOf t.d == cornerOf basis2 && cursorWord t.cursor == 0#32 &&
        t.blocksDone == 0#32) = true := by decide +kernel

/-- V12: block (0, 0) of the image 0, 10, …, 150 is stored as 25, 25, 25, 25 at 0x2000, 0x2001, 0x2004, 0x2005. -/
theorem test_run_block :
    answers (exec .run blocks)
      (fun t => t.mem == image ++ [(0x2000, 25#8), (0x2001, 25#8), (0x2004, 25#8), (0x2005, 25#8)] &&
        t.blocksDone == 1#32 && cursorWord t.cursor == 0x00010000#32 && t.ctl.busy) = true := by decide +kernel

/-! ### Issue, errors and the register window -/

/-- V11: the words of the table and their error codes; CUR_CMD stays. -/
theorem test_issue_errors :
    answers (writeReg .cmd 0x00000005#32 base) (fun t => t.errCodeWord == 0x00000517#32) = true ∧
    answers (writeReg .cmd 0x00000103#32 base) (fun t => t.errCodeWord == 0x00000327#32 && !t.ctl.busy) = true ∧
    answers (writeReg .cmd 0x000001FF#32 base) (fun t => t.errCodeWord == 0x0000FF27#32) = true ∧
    answers (writeReg .cmd 0x00000022#32 (inFlight .buildBasis base))
      (fun t => t.errCodeWord == 0x00002208#32 && t.statusWord == 0x00000203#32) = true := by decide +kernel

/-- P5 step 8: the abort test fires with an error already recorded. -/
theorem test_abort_is_second_error :
    answers (exec .run { blocks with
        ctl := ⟨true, 0x03#8, true, .blocks⟩, errCode := some ⟨.commandWhileBusy, 0x22#8⟩, lockedWrite := true })
      (fun t => t.statusWord == 0x0000002E#32 && t.errCodeWord == 0x00002208#32) = true := by decide +kernel

/-- V8.1: R = 5, C = 7, F = 2. -/
theorem test_blkGrid :
    (readReg .blkGrid { base with cfg := { base.cfg with imgRows := 5#16, imgCols := 7#16 } }).1 = 0x00030002#32 := by
  decide +kernel

/-- V13: W[0][0] ← 1.0 with AUTOINC, and the wrap after (1, 1). -/
theorem test_window_write :
    answers (writeReg .bufDataHi 0x3FF00000#32 { base with bufIndex := bufIndexOfWord 0x80000000#32, whold := 0#32 })
      (fun t => t.w.elem 0 0 == 0x3FF0000000000000#64 && bufIndexWord t.bufIndex == 0x80000001#32) = true ∧
    answers (writeReg .bufDataHi 0x40100000#32 { base with bufIndex := bufIndexOfWord 0x80000101#32, whold := 0#32 })
      (fun t => t.w.elem 1 1 == 0x4010000000000000#64 && bufIndexWord t.bufIndex == 0x80000000#32) = true := by decide +kernel

/-- V13: D[0][0] reads as its two words, an index outside the buffers as 0. -/
theorem test_window_read :
    (readReg .bufDataLo { based with bufIndex := bufIndexOfWord 0x00020000#32 }).1 = 0x667F3BCD#32 ∧
    (readReg .bufDataLo { based with bufIndex := bufIndexOfWord 0x00020000#32 }).2.rhold = 0x3FE6A09E#32 ∧
    (readReg .bufDataLo { based with bufIndex := bufIndexOfWord 0x00002020#32 }).1 = 0#32 := by decide +kernel

/-- V13: WR BLOCK_SIZE with the same value clears BASIS_VALID; a write to a locked register while busy sets LOCKED_WRITE. -/
theorem test_blockSize_write :
    answers (writeReg .blockSize 2#32 based) (fun t => !t.basisValid) = true ∧
    answers (writeReg .blockSize 2#32 blocks) (fun t => t.basisValid && t.lockedWrite) = true := by decide +kernel

/-- R59: the host must not write the source of the RUN in flight; the byte before the region is free to write. -/
theorem test_host_race :
    hostMemWrite 0x1000#32 1#8 blocks = .fault .hostMemoryRace ∧
    answers (hostMemWrite 0x0FFF#32 1#8 blocks) (fun t => t.mem.read 0x0FFF == 1#8) = true := by
  constructor
  · rfl
  · decide +kernel

/-! ### Witnesses: states and operands that meet the hypotheses of each statement -/

/-- The base setup with another block size. -/
def sized (f : Half) : State := { base with cfg := { base.cfg with blockSize := f } }

/-- The base setup with another threshold. -/
def thresholded (d : Half) : State := { base with cfg := { base.cfg with thresh := d } }

/-- The base setup with DMA accesses of one kind failing at one address. -/
def failingAt (k : AccessKind) (a : Nat) (s : State) : State := { s with busErrors := [⟨k, a, a⟩] }

theorem no_bus_errors (s : State) (h : s.busErrors = []) : ∀ k a, s.busError k a = false := by
  intro k a
  simp [State.busError, h]

theorem pixels_answer (s : State) (h : s.busErrors = []) : PixelsAnswer s :=
  fun _ _ _ _ => ⟨no_bus_errors s h _ _, no_bus_errors s h _ _⟩

/-- Both checks at the ends of the reserved ranges of R68, and every assigned opcode's neighbour. -/
theorem witness_IllegalWordOnlyRecordsItsError :
    (0x04#8 ∉ assignedOpcodes ∧ 0x0F#8 ∉ assignedOpcodes ∧ 0x13#8 ∉ assignedOpcodes ∧ 0x1F#8 ∉ assignedOpcodes ∧
      0x23#8 ∉ assignedOpcodes ∧ 0x27#8 ∉ assignedOpcodes ∧ 0x2B#8 ∉ assignedOpcodes ∧ 0x2F#8 ∉ assignedOpcodes ∧
      0x32#8 ∉ assignedOpcodes ∧ 0xEF#8 ∉ assignedOpcodes ∧ 0xF1#8 ∉ assignedOpcodes ∧ 0xFD#8 ∉ assignedOpcodes) ∧
    (0x00000004#32 : Word).extractLsb' 0 8 = 0x04#8 ∧
    ((0x00000100#32 : Word).extractLsb' 0 8 ∈ assignedOpcodes ∧ (0x00000100#32 : Word).extractLsb' 8 24 ≠ 0#24) ∧
    ((0xFFFFFFFF#32 : Word).extractLsb' 0 8 ∈ assignedOpcodes ∧ (0xFFFFFFFF#32 : Word).extractLsb' 8 24 ≠ 0#24) ∧
    ((0x000000FF#32 : Word).extractLsb' 0 8 ∈ assignedOpcodes ∧ (0x000000FF#32 : Word).extractLsb' 8 24 = 0#24) := by
  decide +kernel

theorem witness_StepRunsTheDecodedCommand :
    (decode 0x000000F0#32 = .command .clearErr ∧ isInstant .clearErr = true ∧
      ({ base with inputs := [hostWr .cmd 0x000000F0#32] } : State).inputs = hostWr .cmd 0x000000F0#32 :: []) ∧
    (({ blocks with inputs := [.engine] } : State).inputs = .engine :: [] ∧ blocks.ctl.busy = true ∧
      blocks.ctl.curCmd = opcodeOf .run ∧ isInstant .run = false ∧ blocks.inputs = []) := by decide

theorem witness_IdleEngineAcceptsACommand :
    decode 0x00000003#32 = .command .run ∧ isInstant .run = false ∧ State.reset.ctl.busy = false := by decide

theorem witness_BusyEngineRefusesACommand :
    decode 0x00000022#32 = .command .fdct ∧ isInstant .fdct = false ∧ blocks.ctl.busy = true := by decide

theorem witness_FailedCheckEndsTheCommand :
    isInstant .fdct = false ∧ (inFlight .fdct base).ctl.abortPending = false ∧
      (checksOf .fdct (inFlight .fdct base).ctl.phase).findSome? (fun check => check (inFlight .fdct base)) =
        some .basisNotValid ∧
    isInstant .run = false ∧ (inFlight .run State.reset).ctl.abortPending = false ∧
      (checksOf .run (inFlight .run State.reset).ctl.phase).findSome? (fun check => check (inFlight .run State.reset)) =
        some .blockSizeNotPositive := by decide +kernel

theorem witness_AbortTestComesBeforeAnyWork :
    ∃ s t : State, isInstant .run = false ∧ s.ctl.abortPending = true ∧ s.errCode = none ∧ exec .run s = .next t ∧
      t.errCode = some ⟨.aborted, 0x03#8⟩ :=
  ⟨{ blocks with ctl := ⟨true, 0x03#8, true, .blocks⟩ }, _, by decide, rfl, rfl, rfl, rfl⟩

theorem witness_ErrorWordFollowsTheTable :
    base.errCode = none ∧
    ({ base with errCode := some ⟨.thresholdNegative, 0x03#8⟩ } : State).errCode = some ⟨.thresholdNegative, 0x03#8⟩ := by
  decide

theorem witness_ValidationBoundaryErrors :
    (thresholded 0xFFFF#16).ctl.abortPending = false ∧ (thresholded 0xFFFF#16).ctl.phase = .validate ∧
    1 ≤ base.fInt ∧ base.fInt ≤ base.imgR ∧ base.fInt ≤ base.imgC ∧ base.fInt ≤ Config.nMax ∧
    (thresholded 0xFFFF#16).fInt = base.fInt ∧ (thresholded 0xFFFF#16).dInt = -1 ∧
    (thresholded 3#16).dInt = 2 * (thresholded 3#16).fInt - 1 ∧ (sized 0#16).fInt = 0 ∧
    (1 ≤ (sized 5#16).fInt ∧ ((sized 5#16).imgR : Int) < (sized 5#16).fInt) ∧
    (∃ s : State, s.ctl.abortPending = false ∧ s.ctl.phase = .validate ∧ 1 ≤ s.fInt ∧ s.fInt ≤ s.imgR ∧
      (s.imgC : Int) < s.fInt) := by
  refine ⟨rfl, rfl, by decide, by decide, by decide, by decide, by decide, by decide, by decide, by decide, by decide, ?_⟩
  exact ⟨{ base with cfg := { base.cfg with blockSize := 3#16, imgCols := 2#16 } }, rfl, rfl, by decide, by decide, by decide⟩

theorem witness_RecordedErrorStaysUntilCleared :
    ∃ s t : State, s.errCode = some ⟨.thresholdNegative, 0x03#8⟩ ∧ step s = .next t ∧
      t.errCode ≠ some ⟨.thresholdNegative, 0x03#8⟩ :=
  ⟨{ base with errCode := some ⟨.thresholdNegative, 0x03#8⟩, inputs := [hostCmd .clearErr] }, _, rfl, rfl, by decide⟩

theorem witness_DoneIsSetOnlyByCompletion :
    ∃ s t : State, step s = .next t ∧ s.irqStatus.done = false ∧ t.irqStatus.done = true := by
  obtain ⟨t, h1, h2⟩ := next_of_answers (o := step (inFlight .validate base)) (p := fun t => t.irqStatus.done)
    (by decide +kernel)
  exact ⟨_, t, h1, rfl, h2⟩

theorem witness_AbortAsksTheCommandToEnd : base.ctl.busy = false ∧ blocks.ctl.busy = true := by decide

theorem witness_ResetValuesAreReadBack :
    ∀ off ∈ [0x00#8, 0x04#8, 0x4C#8, 0x58#8, 0xFC#8], off.toNat % 4 = 0 ∧ off ≠ 0x50#8 ∧ off ≠ 0x54#8 := by decide

theorem witness_ValidatePassesExactlyLegalParameters :
    base.ctl.abortPending = false ∧ LegalParameters base ∧ ¬ LegalParameters State.reset := by
  refine ⟨rfl, ?_, ?_⟩ <;> unfold LegalParameters <;> decide +kernel

/-- The block sizes at both ends of the range, and past them. -/
theorem witness_BuildBasisWritesTheBasis :
    base.ctl.abortPending = false ∧
    (1 ≤ (sized 1#16).fInt ∧ (sized 1#16).fInt ≤ Config.nMax) ∧ (1 ≤ (sized 32#16).fInt ∧ (sized 32#16).fInt ≤ Config.nMax) ∧
    (sized 0#16).fInt ≤ 0 ∧ (sized 0x8000#16).fInt ≤ 0 ∧
    (Config.nMax : Int) < (sized 33#16).fInt ∧ (Config.nMax : Int) < (sized 0x7FFF#16).fInt := by decide +kernel

/-- The hypotheses of the statements about the six transforms. -/
theorem witness_transforms :
    based.ctl.abortPending = false ∧ based.basisValid = true ∧ based.f = 2 ∧ based.f ≤ Config.nMax := by decide +kernel

theorem witness_MaskZeroesHighIndexSums :
    base.ctl.abortPending = false ∧ 1 ≤ base.fInt ∧ base.fInt ≤ Config.nMax ∧
    (0 ≤ (thresholded 0#16).dInt ∧ (thresholded 0#16).dInt ≤ 2 * (thresholded 0#16).fInt - 2) ∧
    (0 ≤ (thresholded 2#16).dInt ∧ (thresholded 2#16).dInt ≤ 2 * (thresholded 2#16).fInt - 2) ∧
    (thresholded 0xFFFF#16).dInt < 0 ∧
    (2 * (thresholded 3#16).fInt - 2 < (thresholded 3#16).dInt ∧ 0 ≤ (thresholded 3#16).dInt) ∧
    (sized 0#16).fInt ≤ 0 ∧ (Config.nMax : Int) < (sized 33#16).fInt := by decide +kernel

theorem witness_MaskKeepsTheCountedCoefficients :
    ∃ s t : State, s.ctl.abortPending = false ∧ 1 ≤ s.fInt ∧ s.fInt ≤ Config.nMax ∧ 0 ≤ s.dInt ∧ s.dInt ≤ 2 * s.fInt - 2 ∧
      (∀ k l, k < s.f → l < s.f → s.w.elem k l ≠ 0x0000000000000000#64) ∧ exec .mask s = .next t := by
  obtain ⟨t, h1, -⟩ := next_of_answers (p := fun _ => true)
    (o := exec .mask { base with w := corner 1#64 1#64 1#64 1#64 }) (by decide +kernel)
  refine ⟨{ base with w := corner 1#64 1#64 1#64 1#64 }, t, rfl, by decide, by decide, by decide, by decide, ?_, h1⟩
  have key : ∀ k, k < 2 → ∀ l, l < 2 → (corner 1#64 1#64 1#64 1#64).elem k l ≠ 0#64 := by decide +kernel
  exact fun k l hk hl => key k hk l hl

theorem witness_ReconRoundsWIntoP :
    base.ctl.abortPending = false ∧ 1 ≤ base.fInt ∧ base.fInt ≤ Config.nMax ∧ State.reset.fInt ≤ 0 ∧
    (Config.nMax : Int) < (sized 33#16).fInt := by decide +kernel

/-- 0.5 is a tie and its nearest even integer is 0. -/
theorem witness_ReconstructorRoundsTiesToEven :
    (∃ v : ℚ, ∃ r : ℤ, finiteValue 0x3FE0000000000000#64 = some v ∧ |v - r| ≤ 1 / 2 ∧ |v - r| = 1 / 2 ∧ Even r) ∧
    unpack 0x7FF8000000000001#64 = .nan ∧ unpack 0x7FF0000000000000#64 = .inf false ∧
    unpack 0xFFF0000000000000#64 = .inf true := by
  refine ⟨⟨1 / 2, 0, ?_, ?_, ?_, ?_⟩, by decide, by decide, by decide⟩
  · have h : unpack 0x3FE0000000000000#64 = .fin false (2 ^ 52) 1021 := by decide
    have e : (2 : ℚ) ^ 1074 = 2 ^ 52 * 2 ^ 1021 * 2 := by rw [← pow_add, ← pow_succ]
    have p : (2 : ℚ) ^ 1021 ≠ 0 := pow_ne_zero _ (by norm_num)
    simp only [finiteValue, h, signedInt, e]
    congr 1
    push_cast
    generalize (2 : ℚ) ^ 1021 = y at p ⊢
    field_simp
    norm_num
  · norm_num
  · norm_num
  · exact ⟨0, rfl⟩

theorem witness_ZeroThresholdGivesBlackBlock :
    ∃ s : State, s.ctl.abortPending = false ∧ s.basisValid = true ∧ 1 ≤ s.fInt ∧ s.fInt ≤ Config.nMax ∧ s.dInt = 0 :=
  ⟨{ based with cfg := { base.cfg with thresh := 0#16 } }, by decide +kernel⟩

theorem witness_LoadBlockReadsTheBlockAtCursor :
    base.ctl.abortPending = false ∧ loadChecks base = none ∧
      (∀ i j, i < base.f → j < base.f → base.busError .read (base.srcElem i j) = false) :=
  ⟨rfl, by decide +kernel, fun _ _ _ _ => no_bus_errors base rfl _ _⟩

/-- The first and the last element of the block, for LOAD_BLOCK and for a RUN. -/
theorem witness_ReadBusErrorKeepsThePrefix :
    (ReadsBlock .loadBlock (failingAt .read 0x1005 base) ∧ 1 < (failingAt .read 0x1005 base).f ∧
      (∀ k, k < 2 → ∀ l, l < 2 → k * 2 + l < 1 * 2 + 1 →
        (failingAt .read 0x1005 base).busError .read (base.srcElem k l) = false) ∧
      (failingAt .read 0x1005 base).busError .read (base.srcElem 1 1) = true) ∧
    (ReadsBlock .run (failingAt .read 0x1000 blocks) ∧ 0 < (failingAt .read 0x1000 blocks).f ∧
      (failingAt .read 0x1000 blocks).busError .read (blocks.srcElem 0 0) = true) := by
  constructor
  · exact ⟨.inl ⟨rfl, by decide +kernel⟩, by decide +kernel⟩
  · exact ⟨.inr ⟨rfl, rfl, by decide +kernel, by decide +kernel, by decide +kernel⟩, by decide +kernel⟩

theorem witness_StoreBlockWritesTheBlockAtCursor :
    base.mem.wf = true ∧ base.ctl.abortPending = false ∧ storeChecks base = none ∧
      (∀ i j, i < base.f → j < base.f → base.busError .write (base.dstElem i j) = false) :=
  ⟨rfl, rfl, by decide +kernel, fun _ _ _ _ => no_bus_errors base rfl _ _⟩

theorem witness_WriteBusErrorKeepsThePrefix :
    (WritesBlock .storeBlock (failingAt .write 0x2005 base) ∧ 1 < (failingAt .write 0x2005 base).f ∧
      (∀ k, k < 2 → ∀ l, l < 2 → k * 2 + l < 1 * 2 + 1 →
        (failingAt .write 0x2005 base).busError .write (base.dstElem k l) = false) ∧
      (failingAt .write 0x2005 base).busError .write (base.dstElem 1 1) = true) ∧
    (blocks.mem.wf = true ∧ WritesBlock .run (failingAt .write 0x2000 blocks) ∧ 0 < (failingAt .write 0x2000 blocks).f ∧
      (failingAt .write 0x2000 blocks).busError .write (blocks.dstElem 0 0) = true) := by
  constructor
  · exact ⟨.inl ⟨rfl, by decide +kernel⟩, by decide +kernel⟩
  · refine ⟨by decide +kernel, .inr ⟨rfl, rfl, by decide +kernel, by decide +kernel, by decide +kernel, ?_⟩, by decide +kernel⟩
    intro i j _ _
    simp [State.busError, failingAt]

theorem witness_CursorNextAdvancesRowMajor :
    base.ctl.abortPending = false ∧ cursorChecks base = none ∧
    cursorChecks { base with cursor := ⟨2#16, 0#16⟩ } = some .cursorRow ∧
    cursorChecks { base with cursor := ⟨0#16, 2#16⟩ } = some .cursorCol := by decide +kernel

theorem witness_CursorVisitsEveryBlockOnce : 0 < 2 ∧ 0 < 3 ∧ 5 < 2 * 3 := by decide

theorem witness_DecomposeReassembleCopiesTheImage :
    base.mem.wf = true ∧ base.ctl = Ctl.idle ∧ base.cursor = ⟨0#16, 0#16⟩ ∧ loadChecks base = none ∧
      storeChecks base = none ∧ (base.srcEnd < base.cfg.dstBase.toNat ∨ base.dstEnd < base.cfg.srcBase.toNat) ∧
      PixelsAnswer base :=
  ⟨rfl, rfl, rfl, by decide +kernel, by decide +kernel, by decide +kernel, pixels_answer base rfl⟩

theorem witness_RunStartsWithValidationAndBasis :
    (inFlight .run base).ctl.abortPending = false ∧ (inFlight .run base).ctl.phase = .validate ∧
    validateAll (inFlight .run base) = none ∧ validateAll (inFlight .run State.reset) = some .blockSizeNotPositive := by
  decide +kernel

theorem witness_RunBlockStepEqualsSingleCommands :
    blocks.ctl.abortPending = false ∧ blocks.ctl.phase = .blocks ∧ validateAll blocks = none ∧ blocks.basisValid = true ∧
      blocks.cursor.row.toNat < blocks.br ∧ blocks.cursor.col.toNat < blocks.bc ∧ BlockAnswers blocks :=
  ⟨rfl, rfl, by decide +kernel, rfl, by decide +kernel, by decide +kernel,
    fun _ _ _ _ => ⟨no_bus_errors blocks rfl _ _, no_bus_errors blocks rfl _ _⟩⟩

/-- A RUN of one 2 × 2 block, accepted. -/
def tiny : State := inFlight .run { base with cfg := ⟨2#16, 2#16, 2#16, 1#16, 0x1000#32, 4#32, 0x2000#32, 4#32⟩ }

theorem witness_RunCompletesInNbPlusOneSteps :
    tiny.ctl = ⟨true, opcodeOf .run, false, .validate⟩ ∧ validateAll tiny = none ∧ PixelsAnswer tiny :=
  ⟨by decide, by decide +kernel, pixels_answer tiny rfl⟩

/-- The same truncated image, elsewhere and in place, with a remainder column, on a platform where another address fails. -/
def tinyInPlace : State :=
  { tiny with
    cfg := ⟨2#16, 3#16, 2#16, 1#16, 0x3000#32, 9#32, 0x3000#32, 9#32⟩
    mem := [(0x1000, 5#8), (0x3002, 7#8)]
    busErrors := [⟨.read, 0x1000, 0x1000⟩, ⟨.write, 0x3002, 0x3002⟩] }

theorem witness_RunOutputDependsOnSourcePixelsOnly :
    ∃ s t s' t' : State, s.mem.wf = true ∧ t.mem.wf = true ∧
      s.ctl = ⟨true, opcodeOf .run, false, .validate⟩ ∧ t.ctl = ⟨true, opcodeOf .run, false, .validate⟩ ∧
      validateAll s = none ∧ validateAll t = none ∧ PixelsAnswer s ∧ PixelsAnswer t ∧ s.rt = t.rt ∧ s.ct = t.ct ∧
      s.cfg.blockSize = t.cfg.blockSize ∧ s.cfg.thresh = t.cfg.thresh ∧
      (∀ r c, r < s.rt → c < s.ct → s.mem.read (s.srcPixel r c) = t.mem.read (t.srcPixel r c)) ∧
      engineRun (s.nb + 1) s = .next s' ∧ engineRun (t.nb + 1) t = .next t' := by
  obtain ⟨s', h1, -⟩ := next_of_answers (o := engineRun (tiny.nb + 1) tiny) (p := fun _ => true) (by decide +kernel)
  obtain ⟨t', h2, -⟩ := next_of_answers (o := engineRun (tinyInPlace.nb + 1) tinyInPlace) (p := fun _ => true)
    (by decide +kernel)
  refine ⟨tiny, tinyInPlace, s', t', rfl, by decide, by decide, by decide, by decide +kernel, by decide +kernel,
    pixels_answer _ rfl, ?_, by decide +kernel, by decide +kernel, rfl, rfl, ?_, h1, h2⟩
  · have key : ∀ r, r < tinyInPlace.rt → ∀ c, c < tinyInPlace.ct →
        tinyInPlace.busError .read (tinyInPlace.srcPixel r c) = false ∧
          tinyInPlace.busError .write (tinyInPlace.dstPixel r c) = false := by decide +kernel
    exact fun r c hr hc => key r hr c hc
  have key : ∀ r, r < tiny.rt → ∀ c, c < tiny.ct →
      tiny.mem.read (tiny.srcPixel r c) = tinyInPlace.mem.read (tinyInPlace.srcPixel r c) := by decide +kernel
  exact fun r c hr hc => key r hr c hc

/-- The invariant holds of a RUN in its block phase. -/
theorem inv_blocks : Inv blocks := by
  refine ⟨by decide +kernel, by decide +kernel, by decide, fun _ => ⟨.run, by decide⟩, fun _ => ⟨by decide +kernel, by decide +kernel, ?_⟩,
    fun _ => by decide +kernel, fun _ => by decide, by simp [blocks, based, base, State.reset]⟩
  have key : ∀ l, l < 2 → ∀ j, j < 2 → basis2.elem l j = basis 2 l j := by decide +kernel
  exact fun l j hl hj => key l hl j hj

theorem witness_EngineWritesOnlyTheOutputBlock :
    ∃ s t : State, Inv s ∧ engineTurn s = .next t ∧ ¬ SameMemory s t := by
  obtain ⟨t, h1, h2⟩ := next_of_answers (o := engineTurn blocks)
    (p := fun t => t.mem.read 0x2000 != blocks.mem.read 0x2000) (by decide +kernel)
  exact ⟨blocks, t, inv_blocks, h1, fun h => by simp [h 0x2000] at h2⟩

theorem witness_EngineWritesOnlyTheOutputBlock_other :
    ∃ s t : State, Inv s ∧ engineTurn s = .next t ∧ s.ctl.curCmd ≠ opcodeOf .storeBlock ∧ s.ctl.curCmd ≠ opcodeOf .run := by
  refine ⟨inFlight .recon base, _, ?_, rfl, by decide, by decide⟩
  refine ⟨rfl, rfl, by decide, fun _ => ⟨.recon, by decide⟩, by simp [inFlight, accept, base, State.reset],
    by simp [inFlight, accept], fun _ => by decide, by simp [inFlight, accept, base, State.reset]⟩

theorem witness_EveryCommandEnds : Inv blocks := inv_blocks

theorem witness_StepKeepsTheInvariant : ∃ s t : State, Inv s ∧ step s = .next t := by
  obtain ⟨t, h, -⟩ := next_of_answers (o := step blocks) (p := fun _ => true) (by decide +kernel)
  exact ⟨blocks, t, inv_blocks, h⟩

/-- A host write just outside the regions of the RUN in flight. -/
theorem witness_MachineNeverStops :
    Inv { blocks with inputs := [.memWrite 0x0FFF#32 1#8] } ∧
      hostKeepsOff { blocks with inputs := [.memWrite 0x0FFF#32 1#8] } := by
  refine ⟨⟨inv_blocks.1, inv_blocks.2, inv_blocks.3, inv_blocks.4, inv_blocks.5, inv_blocks.6, inv_blocks.7,
    inv_blocks.8⟩, ?_⟩
  intro a v rest h
  cases h
  decide +kernel

theorem witness_BusyEngineLocksItsRegisters : blocks.ctl.busy = true := by decide

theorem witness_StoredRegistersReadBack : based.ctl.busy = false := by decide

theorem witness_EventBitsAreWriteOneToClear :
    (1#32 : Word).getLsbD 0 = true ∧ (1#32 : Word).getLsbD 1 = false ∧ (2#32 : Word).getLsbD 0 = false ∧
      (2#32 : Word).getLsbD 1 = true := by decide

theorem witness_MalformedAndReservedAccessesChangeNothing :
    (⟨.write, 16, 0x08#8, 0#32⟩ : HostAccess).width ≠ 32 ∧ (⟨.read, 32, 0x0A#8, 0#32⟩ : HostAccess).offset.toNat % 4 ≠ 0 ∧
    (∀ off ∈ [0x58#8, 0xFC#8], 0x58 ≤ off.toNat ∧ off.toNat % 4 = 0) := by decide

theorem witness_BlockGridIsComputedAtTheRead :
    (1 ≤ (sized 1#16).fInt ∧ (sized 1#16).fInt ≤ Config.nMax) ∧ (1 ≤ (sized 32#16).fInt ∧ (sized 32#16).fInt ≤ Config.nMax) ∧
    (sized 0#16).fInt < 1 ∧ (Config.nMax : Int) < (sized 33#16).fInt := by decide +kernel

/-- Every SEL, with an index inside and outside the buffers, idle and busy. -/
theorem witness_window :
    base.ctl.busy = false ∧ base.bufIndex.sel = .w ∧ base.bufIndex.row.toNat < Config.nMax ∧
    base.bufIndex.col.toNat < Config.nMax ∧ (bufIndexOfWord 0x00002020#32).sel = .w ∧
    (bufIndexOfWord 0x00002020#32).row.toNat = Config.nMax ∧ (bufIndexOfWord 0x0001FFFF#32).sel = .p ∧
    (bufIndexOfWord 0x00020000#32).sel = .d ∧ (bufIndexOfWord 0x00030000#32).sel = .reserved ∧ blocks.ctl.busy = true := by
  decide

theorem witness_HostCannotWriteTheBasis :
    ∃ (a : HostAccess) (s t : State), hostAccess a s = .next t ∧
      ¬(a.kind = .write ∧ a.offset = 0x08#8 ∧ a.data = encode .softReset) :=
  ⟨⟨.write, 32, 0x54#8, 1#32⟩, { base with bufIndex := ⟨0#8, 0#8, .d, false⟩ }, _, rfl, by decide⟩

/-- The last element of the block, an element inside, and indices outside in each direction, for F = 2. -/
theorem witness_AutoincrementIsRowMajor :
    base.bufIndex.autoinc = false ∧ base.f = 2 ∧ 1 ≤ base.fInt ∧ base.fInt ≤ Config.nMax ∧
    (let b := bufIndexOfWord 0x80000101#32; b.autoinc = true ∧ b.row.toNat < 2 ∧ b.col.toNat < 2) ∧
    (let b := bufIndexOfWord 0x80000002#32; b.autoinc = true ∧ 2 ≤ b.col.toNat) ∧
    (let b := bufIndexOfWord 0x80000200#32; b.autoinc = true ∧ 2 ≤ b.row.toNat ∧ b.col.toNat < 2) := by decide +kernel

/-- 1 and −1 are finite, and so are +0 and −0. -/
theorem witness_arithmetic :
    (∃ x, finiteValue 0x3FF0000000000000#64 = some x) ∧ (∃ x, finiteValue 0xBFF0000000000000#64 = some x) ∧
    finiteValue 0x0000000000000000#64 = some 0 ∧ finiteValue 0x8000000000000000#64 = some 0 := by
  have h1 : unpack 0x3FF0000000000000#64 = .fin false (2 ^ 52) 1022 := by decide
  have h2 : unpack 0xBFF0000000000000#64 = .fin true (2 ^ 52) 1022 := by decide
  have h3 : unpack 0x0000000000000000#64 = .fin false 0 0 := by decide
  have h4 : unpack 0x8000000000000000#64 = .fin true 0 0 := by decide
  exact ⟨by simp [finiteValue, h1], by simp [finiteValue, h2], by simp [finiteValue, h3, signedInt],
    by simp [finiteValue, h4, signedInt]⟩

/-- A NaN with a payload, signalling and quiet; infinities and zeros are none; and a nonzero finite value. -/
theorem witness_nonfinite :
    IsNaN 0x7FF0000000000001#64 ∧ IsNaN 0xFFF8000000000000#64 ∧ ¬ IsNaN 0x7FF0000000000000#64 ∧
    ¬ IsNaN 0xFFF0000000000000#64 ∧ ¬ IsNaN 0x0000000000000000#64 ∧
    (∃ y : ℚ, finiteValue 0x3FF0000000000000#64 = some y ∧ y ≠ 0) := by
  have h : unpack 0x3FF0000000000000#64 = .fin false (2 ^ 52) 1022 := by decide
  unfold IsNaN
  refine ⟨by decide, by decide, by decide, by decide, by decide, _, by rw [finiteValue, h], ?_⟩
  simp [signedInt]

theorem witness_BasisIsCorrectlyRounded : 1 ≤ 1 ∧ 32 ≤ Config.nMax ∧ 0 < 1 ∧ 31 < 32 := by decide

end Sys2Proof.Tests
end

section
/-! PROOFS. Correct rounding (spec/00_scope.md R11, R13, R16): what a rounded significand satisfies, why no finite binary64
value is nearer, and the statements about `add64`, `mul64`, `toF64` and `recon8`. -/

namespace Sys2Proof.Rounding

open Sys2Proof Sys2Proof.Machine

/-! ### Signs -/

@[simp] theorem signedInt_false (m : Nat) : signedInt false m = m := rfl

@[simp] theorem signedInt_true (m : Nat) : signedInt true m = -(m : Int) := rfl

@[simp] theorem signedInt_zero (neg : Bool) : signedInt neg 0 = 0 := by cases neg <;> rfl

theorem signedInt_natAbs (z : Int) : signedInt (decide (z < 0)) z.natAbs = z := by
  by_cases h : z < 0
  · simp only [h, decide_true, signedInt_true]; omega
  · simp only [h, decide_false, signedInt_false]; omega

theorem signedInt_mul_signedInt (s t : Bool) (m n : Nat) :
    signedInt s m * signedInt t n = signedInt (s != t) (m * n) := by
  cases s <;> cases t <;> simp

theorem signedInt_mul_right (s : Bool) (m n : Nat) : signedInt s (m * n) = signedInt s m * n := by
  cases s <;> simp

theorem signOf_eq_getLsbD (x : F64) : signOf x = x.getLsbD 63 := by
  have h := x.isLt
  rw [signOf, BitVec.getLsbD, Nat.testBit_eq_decide_div_mod_eq]
  exact decide_eq_decide.mpr (by omega)

theorem toNat_withSign {neg : Bool} {m : Nat} (h : m < 2 ^ 63) :
    (withSign neg m).toNat = (if neg then 2 ^ 63 else 0) + m := by
  cases neg
  · simp [toNat_withSign_false (show m < 2 ^ 64 by omega)]
  · simp [toNat_withSign_true h]

theorem getLsbD_63_withSign {neg : Bool} {m : Nat} (h : m < 2 ^ 63) : (withSign neg m).getLsbD 63 = neg := by
  rw [← signOf_eq_getLsbD, signOf, toNat_withSign h]
  cases neg <;> simp
  omega

theorem getLsbD_0_withSign {neg : Bool} {m : Nat} (h : m < 2 ^ 63) (heven : m % 2 = 0) :
    (withSign neg m).getLsbD 0 = false := by
  rw [BitVec.getLsbD, Nat.testBit_eq_decide_div_mod_eq, toNat_withSign h]
  cases neg <;> simp <;> omega

theorem withSign_zero (neg : Bool) :
    withSign neg 0 = if neg then 0x8000000000000000#64 else 0x0000000000000000#64 := by cases neg <;> rfl

/-! ### What a pattern stands for -/

theorem unpack_fin {x : F64} {s : Bool} {m e : Nat} (h : unpack x = .fin s m e) :
    s = x.getLsbD 63 ∧ m < 2 ^ 53 ∧ (m = 0 → exponentField x = 0 ∧ fractionField x = 0) := by
  have hf : fractionField x < 2 ^ 52 := Nat.mod_lt _ (by norm_num)
  rw [← signOf_eq_getLsbD]
  unfold unpack at h
  split at h
  · split at h <;> cases h
  · split at h
    next h0 =>
      cases h
      exact ⟨rfl, by omega, fun hm => ⟨h0, hm⟩⟩
    next =>
      cases h
      exact ⟨rfl, by omega, fun hm => by omega⟩

/-- A pattern of value zero is +0.0 or −0.0. -/
theorem eq_zero_of_unpack_fin_zero {x : F64} {s : Bool} {e : Nat} (h : unpack x = .fin s 0 e) : x = withSign s 0 := by
  obtain ⟨hs, -, h0⟩ := unpack_fin h
  obtain ⟨he, hf⟩ := h0 rfl
  rw [← signOf_eq_getLsbD] at hs
  have hx := x.isLt
  unfold exponentField at he
  unfold fractionField at hf
  apply BitVec.eq_of_toNat_eq
  rw [toNat_withSign (by norm_num), hs, signOf]
  split <;> simp_all <;> omega

theorem unpack_infinity (neg : Bool) : unpack (withSign neg infinityBits) = .inf neg := by cases neg <;> decide

theorem unpack_of_isNaN {x : F64} (h : IsNaN x) : unpack x = .nan := by
  obtain ⟨he, hf⟩ := h
  have he : exponentField x = 2047 := by
    simpa [exponentField, Nat.shiftRight_eq_div_pow] using congrArg BitVec.toNat he
  have hf : fractionField x ≠ 0 := fun h0 => hf (BitVec.eq_of_toNat_eq (by simpa [fractionField] using h0))
  rw [unpack, if_pos he, if_neg hf]

section Field

variable {K : Type} [Field K] [LinearOrder K] [IsStrictOrderedRing K]

/-- The unit 2^(p − 1074) in which the significand of a finite number counts. -/
def unit (K : Type) [Field K] (p : Nat) : K := 2 ^ p / 2 ^ 1074

theorem unit_pos (p : Nat) : 0 < unit K p := div_pos (pow_pos two_pos _) (pow_pos two_pos _)

omit [LinearOrder K] [IsStrictOrderedRing K] in
theorem unit_add (p k : Nat) : unit K (p + k) = unit K p * 2 ^ k := by
  rw [unit, unit, pow_add, mul_div_right_comm]

theorem unit_add_1074 (p : Nat) : unit K (p + 1074) / 2 ^ 1074 = unit K p := by
  rw [unit_add, mul_div_cancel_right₀ _ (pow_ne_zero _ two_ne_zero)]

theorem unit_1074 : unit K 1074 = 1 := div_self (pow_ne_zero _ two_ne_zero)

@[simp] theorem cast_unit (p : Nat) : ((unit ℚ p : ℚ) : K) = unit K p := by simp [unit]

theorem finiteValue_of_unpack {x : F64} {s : Bool} {m e : Nat} (h : unpack x = .fin s m e) :
    finiteValue x = some (signedInt s m * unit ℚ e) := by
  simp only [finiteValue, h, unit, mul_div_assoc]

theorem finiteValue_eq_some {x : F64} {v : ℚ} :
    finiteValue x = some v ↔ ∃ s m e, unpack x = .fin s m e ∧ v = signedInt s m * unit ℚ e := by
  constructor
  · intro h
    cases hx : unpack x with
    | nan => rw [finiteValue, hx] at h; cases h
    | inf s => rw [finiteValue, hx] at h; cases h
    | fin s m e =>
      rw [finiteValue_of_unpack hx, Option.some.injEq] at h
      exact ⟨s, m, e, rfl, h.symm⟩
  · rintro ⟨s, m, e, hx, rfl⟩
    exact finiteValue_of_unpack hx

/-- A significand up to 2^53 and its place, packed as `roundNearest` packs them. -/
theorem finiteValue_withSign {neg : Bool} {p t : Nat} (ht : t ≤ 2 ^ 53) (hp : p = 0 ∨ 2 ^ 52 ≤ t)
    (hfin : p * 2 ^ 52 + t < infinityBits) :
    finiteValue (withSign neg (p * 2 ^ 52 + t)) = some (signedInt neg t * unit ℚ p) := by
  have hu := unpack_withSign (neg := neg) hfin
  split at hu
  · rw [finiteValue_of_unpack hu, show p = 0 by omega]; simp
  · rcases Nat.lt_or_ge t (2 ^ 53) with hlt | hge
    · rw [show (p * 2 ^ 52 + t) % 2 ^ 52 + 2 ^ 52 = t by omega, show (p * 2 ^ 52 + t) / 2 ^ 52 - 1 = p by omega] at hu
      exact finiteValue_of_unpack hu
    · rw [show (p * 2 ^ 52 + t) % 2 ^ 52 + 2 ^ 52 = 2 ^ 52 by omega,
        show (p * 2 ^ 52 + t) / 2 ^ 52 - 1 = p + 1 by omega] at hu
      rw [finiteValue_of_unpack hu, show t = 2 ^ 52 * 2 by omega, unit_add, signedInt_mul_right]
      congr 1
      push_cast
      ring

theorem finiteValue_withSign_zero (neg : Bool) : finiteValue (withSign neg 0) = some 0 := by
  have h := finiteValue_withSign (neg := neg) (p := 0) (t := 0) (by norm_num) (.inl rfl) (by decide)
  simpa using h

/-! ### No finite value is nearer -/

/-- In units of the place p a finite value is an integer, or it lies below the significands of that place. -/
theorem integer_or_below_place (s : Bool) {m : Nat} (hm : m < 2 ^ 53) (e p : Nat) :
    (∃ k : ℤ, (signedInt s m : K) * unit K e = k * unit K p) ∨
    0 < p ∧ |(signedInt s m : K) * unit K e| ≤ (2 ^ 52 - 1 / 2) * unit K p := by
  rcases Nat.le_total p e with h | h
  · obtain ⟨k, rfl⟩ := Nat.exists_eq_add_of_le h
    exact .inl ⟨signedInt s m * 2 ^ k, by rw [unit_add]; push_cast; ring⟩
  · obtain ⟨k, rfl⟩ := Nat.exists_eq_add_of_le h
    cases k with
    | zero => exact .inl ⟨signedInt s m, rfl⟩
    | succ k =>
      have habs : |(signedInt s m : K)| = m := by cases s <;> simp
      have hm' : (m : K) ≤ 2 ^ 53 - 1 := by
        rw [le_sub_iff_add_le]
        exact_mod_cast hm
      have hk : (1 : K) ≤ 2 ^ k := one_le_pow₀ (by norm_num)
      refine .inr ⟨by omega, ?_⟩
      rw [abs_mul, habs, abs_of_pos (unit_pos e), unit_add, pow_succ (2 : K) k]
      calc (m : K) * unit K e ≤ (2 ^ 53 - 1) * (unit K e * 1) := by
            rw [mul_one]; exact mul_le_mul_of_nonneg_right hm' (unit_pos e).le
        _ ≤ (2 ^ 53 - 1) * (unit K e * 2 ^ k) := by
            have := unit_pos (K := K) e
            gcongr
        _ = (2 ^ 52 - 1 / 2) * (unit K e * (2 ^ k * 2)) := by ring

/-- An integer within one half of X is as near to X as any other integer, and nearer than any number below X's binade. -/
theorem near_integer_nearest {t : ℤ} {X U : K} (hclose : |t - X| ≤ 1 / 2)
    (hU : (∃ k : ℤ, U = k) ∨ U ≤ 2 ^ 52 - 1 / 2 ∧ 2 ^ 52 - 1 / 4 < X ∧ 2 ^ 52 ≤ t) :
    |t - X| ≤ |U - X| ∧ (U ≠ t → |t - X| = |U - X| → |t - X| = 1 / 2) := by
  rcases hU with ⟨k, rfl⟩ | ⟨hU, hX, ht⟩
  · rcases eq_or_ne k t with rfl | hk
    · exact ⟨le_rfl, fun h => absurd rfl h⟩
    · have h1 : (1 : K) ≤ |(k : K) - t| := by exact_mod_cast Int.one_le_abs (sub_ne_zero.mpr hk)
      have h2 : |(k : K) - t| ≤ |k - X| + |t - X| := by
        rw [abs_sub_comm (t : K) X]
        exact abs_sub_le _ _ _
      exact ⟨by linarith, fun _ h => by linarith⟩
  · suffices h : |t - X| < |U - X| from ⟨h.le, fun _ he => absurd he h.ne⟩
    rw [abs_sub_comm U, abs_of_pos (by linarith : 0 < X - U), abs_lt]
    have hlow : (2 : K) ^ 52 ≤ t := by exact_mod_cast ht
    have hclose := abs_le.mp hclose
    rcases ht.eq_or_lt with rfl | hgt
    · push_cast
      constructor <;> linarith
    · have hgt : (2 : K) ^ 52 + 1 ≤ t := by exact_mod_cast Int.add_one_le_iff.mpr hgt
      constructor <;> linarith

/-- `t` is the integer nearest to X, and X lies in the binade of the place p: 53 significant bits, or the lowest place.  A
little below the binade the significand 2^52 is still the nearest one. -/
structure IsSignificand (p t : Nat) (X : K) : Prop where
  close : |(t : K) - X| ≤ 1 / 2
  upper : t ≤ 2 ^ 53
  lower : p = 0 ∨ 2 ^ 52 ≤ t ∧ 2 ^ 52 - 1 / 4 < X

/-- No finite value is nearer to X units of the place p than t of them, and another one is as near only at a tie. -/
theorem IsSignificand.nearest_pos {p t : Nat} {X : K} (h : IsSignificand p t X) (s : Bool) {m : Nat} (hm : m < 2 ^ 53)
    (e : Nat) :
    |t * unit K p - X * unit K p| ≤ |signedInt s m * unit K e - X * unit K p| ∧
      (signedInt s m * unit K e ≠ t * unit K p →
        |t * unit K p - X * unit K p| = |signedInt s m * unit K e - X * unit K p| → |(t : K) - X| = 1 / 2) := by
  have hp : 0 < unit K p := unit_pos p
  set U : K := signedInt s m * unit K e / unit K p with hUdef
  have hU : signedInt s m * unit K e = U * unit K p := by rw [hUdef, div_mul_cancel₀ _ hp.ne']
  have hgrid : (∃ k : ℤ, U = k) ∨ U ≤ 2 ^ 52 - 1 / 2 ∧ 2 ^ 52 - 1 / 4 < X ∧ 2 ^ 52 ≤ (t : ℤ) := by
    rcases integer_or_below_place (K := K) s hm e p with ⟨k, hk⟩ | ⟨hp0, hbelow⟩
    · exact .inl ⟨k, mul_right_cancel₀ hp.ne' (hU ▸ hk)⟩
    · obtain ⟨ht, hX⟩ := h.lower.resolve_left hp0.ne'
      rw [hU, abs_mul, abs_of_pos hp] at hbelow
      exact .inr ⟨(le_abs_self U).trans (le_of_mul_le_mul_right hbelow hp), hX, by exact_mod_cast ht⟩
  obtain ⟨hle, htie⟩ := near_integer_nearest (t := t) (by simpa using h.close) hgrid
  rw [hU, ← sub_mul, ← sub_mul, abs_mul, abs_mul, abs_of_pos hp]
  push_cast at hle htie
  exact ⟨mul_le_mul_of_nonneg_right hle hp.le, fun hne heq =>
    htie (fun h => hne (by rw [h])) (mul_right_cancel₀ hp.ne' heq)⟩

/-- The same for either sign. -/
theorem IsSignificand.nearest {p t : Nat} {X : K} (h : IsSignificand p t X) (neg : Bool) {c : F64} {u : ℚ}
    (hu : finiteValue c = some u) :
    |signedInt neg t * unit K p - signedInt neg 1 * X * unit K p| ≤ |(u : K) - signedInt neg 1 * X * unit K p| ∧
      ((u : K) ≠ signedInt neg t * unit K p →
        |signedInt neg t * unit K p - signedInt neg 1 * X * unit K p| = |(u : K) - signedInt neg 1 * X * unit K p| →
        |(t : K) - X| = 1 / 2) := by
  obtain ⟨s, m, e, hc, rfl⟩ := finiteValue_eq_some.mp hu
  obtain ⟨-, hm, -⟩ := unpack_fin hc
  cases neg
  · simpa using h.nearest_pos s hm e
  · have hflip : ((signedInt (!s) m : ℤ) : K) * unit K e = -(signedInt s m * unit K e) := by cases s <;> simp
    have hpos := h.nearest_pos (!s) hm e
    have hv : (signedInt true t : K) * unit K p - signedInt true 1 * X * unit K p =
        -(t * unit K p - X * unit K p) := by simp; ring
    have hu : ((signedInt s m * unit ℚ e : ℚ) : K) - signedInt true 1 * X * unit K p =
        -(-(signedInt s m * unit K e) - X * unit K p) := by simp; ring
    rw [hv, hu, abs_neg, abs_neg]
    rw [hflip] at hpos
    refine ⟨hpos.1, fun hne => hpos.2 fun heq => hne ?_⟩
    rw [signedInt_true, Int.cast_neg, Int.cast_natCast, neg_mul, ← heq]
    simp

/-! ### Rounding to the nearest integer -/

theorem nearestEven_sub_abs_le (m k : Nat) : |(nearestEven m k : K) - m / 2 ^ k| ≤ 1 / 2 := by
  have hp : (0 : K) < 2 ^ k := by positivity
  obtain ⟨h1, h2⟩ := nearestEven_close m k
  have h1 : (2 : K) * m ≤ 2 * (nearestEven m k * 2 ^ k) + 2 ^ k := by exact_mod_cast h1
  have h2 : (2 : K) * (nearestEven m k * 2 ^ k) ≤ 2 * m + 2 ^ k := by exact_mod_cast h2
  rw [abs_le, neg_le_sub_iff_le_add, sub_le_iff_le_add, div_le_iff₀ hp, ← sub_le_iff_le_add', le_div_iff₀ hp]
  constructor <;> linarith

/-- m / 2^k is a tie when twice m is an odd multiple of 2^k. -/
theorem nearestEven_even_of_odd_mul {m k : Nat} {j : ℤ} (h : 2 * (m : ℤ) = (2 * j + 1) * 2 ^ k) :
    nearestEven m k % 2 = 0 := by
  apply nearestEven_tie
  have hm : (m : ℤ) = 2 ^ k * (m / 2 ^ k : ℕ) + (m % 2 ^ k : ℕ) := by exact_mod_cast (Nat.div_add_mod m (2 ^ k)).symm
  have hlt : ((m % 2 ^ k : ℕ) : ℤ) < 2 ^ k := by exact_mod_cast Nat.mod_lt m (Nat.two_pow_pos k)
  have hr : 2 * ((m % 2 ^ k : ℕ) : ℤ) = (2 * (j - (m / 2 ^ k : ℕ)) + 1) * 2 ^ k := by linarith
  have hp : (0 : ℤ) < 2 ^ k := by positivity
  have hj : j - (m / 2 ^ k : ℕ) = 0 := by
    have hlow : -1 < 2 * (j - (m / 2 ^ k : ℕ)) + 1 := by by_contra hc; nlinarith
    have hhigh : 2 * (j - (m / 2 ^ k : ℕ)) + 1 < 2 := by by_contra hc; nlinarith
    omega
  rw [hj] at hr
  exact_mod_cast (by simpa using hr : 2 * ((m % 2 ^ k : ℕ) : ℤ) = 2 ^ k)

theorem nearestEven_even_of_half {m k : Nat} (h : |(nearestEven m k : K) - m / 2 ^ k| = 1 / 2) :
    nearestEven m k % 2 = 0 := by
  have hp : (2 : K) ^ k ≠ 0 := by positivity
  rcases (abs_eq (by norm_num)).mp h with h | h
  · refine nearestEven_even_of_odd_mul (j := nearestEven m k - 1) ?_
    have : 2 * (m : K) = (2 * (nearestEven m k - 1) + 1) * 2 ^ k := by
      field_simp at h
      linarith
    exact_mod_cast this
  · refine nearestEven_even_of_odd_mul (j := nearestEven m k) ?_
    have : 2 * (m : K) = (2 * nearestEven m k + 1) * 2 ^ k := by
      field_simp at h
      linarith
    exact_mod_cast this

/-! ### Rounding to binary64 -/

/-- m · 2^(e − 2148) in units of its last place. -/
def inPlace (K : Type) [Field K] (m e : Nat) : K := m * 2 ^ e / 2 ^ lastPlace m e

theorem inPlace_lt (m e : Nat) : inPlace K m e < 2 ^ 53 := by
  have h : m * 2 ^ e < 2 ^ 53 * 2 ^ lastPlace m e := by
    calc m * 2 ^ e < 2 ^ (m.log2 + 1) * 2 ^ e := Nat.mul_lt_mul_of_pos_right Nat.lt_log2_self (by positivity)
      _ = 2 ^ (m.log2 + 1 + e) := (pow_add ..).symm
      _ ≤ 2 ^ (53 + lastPlace m e) := Nat.pow_le_pow_right (by norm_num) (by unfold lastPlace; omega)
      _ = _ := pow_add ..
  rw [inPlace, div_lt_iff₀ (by positivity)]
  exact_mod_cast h

theorem le_inPlace {m : Nat} (hm : m ≠ 0) (e : Nat) : lastPlace m e = 1074 ∨ 2 ^ 52 ≤ inPlace K m e := by
  refine or_iff_not_imp_left.mpr fun hq => ?_
  have h : 2 ^ 52 * 2 ^ lastPlace m e ≤ m * 2 ^ e := by
    calc 2 ^ 52 * 2 ^ lastPlace m e = 2 ^ (m.log2 + e) := by
          rw [← pow_add]; congr 1; unfold lastPlace at hq ⊢; omega
      _ = 2 ^ m.log2 * 2 ^ e := pow_add ..
      _ ≤ m * 2 ^ e := Nat.mul_le_mul_right _ (Nat.log2_self_le hm)
  rw [inPlace, le_div_iff₀ (by positivity)]
  exact_mod_cast h

/-- The rounded significand is the value itself where nothing lies below the last place, and else the integer nearest to it. -/
theorem roundedSignificand_cases (m e : Nat) :
    (roundedSignificand m e (lastPlace m e) : K) = inPlace K m e ∨
    ∃ k, roundedSignificand m e (lastPlace m e) = nearestEven m k ∧ inPlace K m e = m / 2 ^ k := by
  unfold roundedSignificand inPlace
  generalize lastPlace m e = q
  split
  next h =>
    obtain ⟨k, rfl⟩ := Nat.exists_eq_add_of_le h
    refine .inl ?_
    rw [Nat.add_sub_cancel_left, pow_add]
    push_cast
    field_simp
  next h =>
    obtain ⟨k, rfl⟩ := Nat.exists_eq_add_of_le (Nat.le_of_not_le h)
    refine .inr ⟨_, rfl, ?_⟩
    rw [Nat.add_sub_cancel_left, pow_add]
    field_simp

theorem isSignificand_roundedSignificand {m : Nat} (hm : m ≠ 0) (e : Nat) :
    IsSignificand (lastPlace m e - 1074) (roundedSignificand m e (lastPlace m e)) (inPlace K m e) := by
  have hclose : |(roundedSignificand m e (lastPlace m e) : K) - inPlace K m e| ≤ 1 / 2 := by
    rcases roundedSignificand_cases (K := K) m e with h | ⟨k, h, hX⟩
    · rw [h, sub_self, abs_zero]; norm_num
    · rw [h, hX]; exact nearestEven_sub_abs_le m k
  have hb := abs_le.mp hclose
  have hlt := inPlace_lt (K := K) m e
  refine ⟨hclose, ?_, (le_inPlace (K := K) hm e).imp (fun h => by rw [h]) fun h => ⟨?_, by linarith⟩⟩
  · have : (roundedSignificand m e (lastPlace m e) : K) < (2 ^ 53 : ℕ) + 1 := by push_cast; linarith
    exact Nat.lt_succ_iff.mp (by exact_mod_cast this)
  · have : ((2 ^ 52 : ℕ) : K) < roundedSignificand m e (lastPlace m e) + 1 := by push_cast; linarith
    exact Nat.lt_succ_iff.mp (by exact_mod_cast this)

theorem roundedSignificand_even_of_half {m e : Nat}
    (h : |(roundedSignificand m e (lastPlace m e) : K) - inPlace K m e| = 1 / 2) :
    roundedSignificand m e (lastPlace m e) % 2 = 0 := by
  rcases roundedSignificand_cases (K := K) m e with hr | ⟨k, hr, hX⟩
  · rw [hr, sub_self, abs_zero] at h; norm_num at h
  · rw [hr, hX] at h
    rw [hr]
    exact nearestEven_even_of_half h

theorem unit_place_mul_inPlace (m e : Nat) :
    inPlace K m e * unit K (lastPlace m e - 1074) = m * unit K e / 2 ^ 1074 := by
  obtain ⟨p, hp⟩ := Nat.exists_eq_add_of_le (show 1074 ≤ lastPlace m e from le_max_left _ _)
  rw [inPlace, hp, Nat.add_sub_cancel_left, unit, unit, pow_add]
  have h1 : (2 : K) ^ 1074 ≠ 0 := pow_ne_zero _ two_ne_zero
  generalize (2 : K) ^ 1074 = D at h1
  field_simp

/-- The midpoint past the largest finite value, in units of the highest place. -/
theorem overflow_threshold : (2 : K) ^ 1024 - 2 ^ 970 = (2 ^ 53 - 1 / 2) * unit K 2045 := by
  have h1 : (2 : K) ^ 1074 ≠ 0 := pow_ne_zero _ two_ne_zero
  have h2 : unit K 2045 = 2 ^ 970 * 2 := by
    rw [unit, show (2045 : ℕ) = 970 + 1 + 1074 from rfl, pow_add, pow_add, pow_one, mul_div_cancel_right₀ _ h1]
  rw [h2, show (1024 : ℕ) = 970 + 1 + 53 from rfl, pow_add, pow_add]
  generalize (2 : K) ^ 970 = A
  ring

/-- The packed significand reaches the infinity exactly from the overflow threshold on. -/
theorem IsSignificand.overflow_iff {p t : Nat} {X : K} (h : IsSignificand p t X)
    (heven : |(t : K) - X| = 1 / 2 → t % 2 = 0) :
    infinityBits ≤ p * 2 ^ 52 + t ↔ 2 ^ 1024 - 2 ^ 970 ≤ X * unit K p := by
  obtain ⟨hlow, hhigh⟩ := abs_le.mp h.close
  have hupper := h.upper
  have hupper' : (t : K) ≤ 2 ^ 53 := by exact_mod_cast hupper
  rw [overflow_threshold, infinityBits]
  rcases lt_trichotomy p 2045 with hp | rfl | hp
  · obtain ⟨k, hk⟩ := Nat.exists_eq_add_of_lt hp
    refine iff_of_false (by omega) (not_le.mpr ?_)
    have hk1 : (1 : K) ≤ 2 ^ k := one_le_pow₀ (by norm_num)
    rw [hk, show p + k + 1 = p + (k + 1) from rfl, unit_add, pow_succ (2 : K) k]
    have hu := unit_pos (K := K) p
    calc X * unit K p ≤ (2 ^ 53 + 1 / 2) * (unit K p * 1) := by
          rw [mul_one]; exact mul_le_mul_of_nonneg_right (by linarith) hu.le
      _ ≤ (2 ^ 53 + 1 / 2) * (unit K p * 2 ^ k) := by gcongr
      _ < (2 ^ 53 - 1 / 2) * (unit K p * (2 ^ k * 2)) := by
          have : 0 < unit K p * 2 ^ k := by positivity
          linarith
  · rw [mul_le_mul_iff_left₀ (unit_pos _)]
    constructor
    · intro hb
      have : (2 : K) ^ 53 ≤ t := by exact_mod_cast (show 2 ^ 53 ≤ t by omega)
      linarith
    · intro hX
      by_contra hb
      have ht : (t : K) ≤ 2 ^ 53 - 1 := by
        rw [le_sub_iff_add_le]
        exact_mod_cast (show t + 1 ≤ 2 ^ 53 by omega)
      have htX : X = t + 1 / 2 := by linarith
      have heq : (t : K) + 1 = 2 ^ 53 := by linarith
      have heq : t + 1 = 2 ^ 53 := by exact_mod_cast heq
      have := heven (by rw [htX]; norm_num)
      omega
  · obtain ⟨k, hk⟩ := Nat.exists_eq_add_of_lt hp
    obtain ⟨ht, hX⟩ := h.lower.resolve_left (by omega)
    refine iff_of_true (by omega) ?_
    have hk1 : (1 : K) ≤ 2 ^ k := one_le_pow₀ (by norm_num)
    have hu := unit_pos (K := K) 2045
    rw [hk, show 2045 + k + 1 = 2045 + (k + 1) from rfl, unit_add, pow_succ (2 : K) k]
    calc (2 ^ 53 - 1 / 2) * unit K 2045 = (2 ^ 52 - 1 / 4) * (unit K 2045 * (1 * 2)) := by ring
      _ ≤ X * (unit K 2045 * (2 ^ k * 2)) := by gcongr

/-- A significand rounded with ties to even and packed with its place is the rounded value. -/
theorem IsSignificand.roundsTo {p t : Nat} {X : ℚ} (h : IsSignificand p t X) (heven : |(t : ℚ) - X| = 1 / 2 → t % 2 = 0)
    (hX : 0 ≤ X) (neg : Bool) :
    RoundsTo (signedInt neg 1 * X * unit ℚ p) (withSign neg (min (p * 2 ^ 52 + t) infinityBits)) := by
  have hover := h.overflow_iff heven
  have hnonneg : 0 ≤ X * unit ℚ p := mul_nonneg hX (unit_pos p).le
  have hpos : (0 : ℚ) < 2 ^ 1024 - 2 ^ 970 := by
    rw [overflow_threshold]; exact mul_pos (by norm_num) (unit_pos _)
  have hinf : 2 ^ 1024 - 2 ^ 970 ≤ X * unit ℚ p →
      unpack (withSign neg (min (p * 2 ^ 52 + t) infinityBits)) = .inf neg := fun hle => by
    rw [min_eq_right (hover.mpr hle), unpack_infinity]
  unfold RoundsTo
  generalize (2 : ℚ) ^ 1024 - 2 ^ 970 = B at *
  refine ⟨fun hlt => ?_, fun hle => ?_, fun hle => ?_⟩
  · have habs : |signedInt neg 1 * X * unit ℚ p| = X * unit ℚ p := by
      cases neg <;> simp [abs_mul, abs_of_nonneg hX, abs_of_pos (unit_pos (K := ℚ) p)]
    have hbits : p * 2 ^ 52 + t < infinityBits := not_le.mp fun hge =>
      absurd (hover.mp hge) (by rw [← habs]; exact not_le.mpr hlt)
    rw [min_eq_left hbits.le]
    refine ⟨_, finiteValue_withSign h.upper (h.lower.imp_right And.left) hbits, fun c u hu => ?_⟩
    obtain ⟨hle, htie⟩ := h.nearest neg hu
    refine ⟨hle, fun hne heq => getLsbD_0_withSign (by unfold infinityBits at hbits; omega) ?_⟩
    have := heven (htie hne heq)
    omega
  · cases neg
    · exact hinf (by simpa using hle)
    · simp at hle; linarith
  · cases neg
    · simp at hle; linarith
    · exact hinf (by simp at hle; linarith)

theorem roundsTo_zero (neg : Bool) : RoundsTo 0 (withSign neg 0) := by
  have hpos : (0 : ℚ) < 2 ^ 1024 - 2 ^ 970 := by
    rw [overflow_threshold]; exact mul_pos (by norm_num) (unit_pos _)
  unfold RoundsTo
  generalize (2 : ℚ) ^ 1024 - 2 ^ 970 = B at *
  refine ⟨fun _ => ⟨0, finiteValue_withSign_zero neg, fun c u _ => ⟨by simp, fun hne heq => ?_⟩⟩, fun h => ?_, fun h => ?_⟩
  · exact absurd (by simpa using heq.symm) hne
  · exact absurd h hpos.not_ge
  · exact absurd h (by linarith)

/-- `roundNearest` rounds ± m · 2^(e − 2148) correctly (R11). -/
theorem roundNearest_roundsTo (neg : Bool) (m e : Nat) :
    RoundsTo (signedInt neg m * unit ℚ e / 2 ^ 1074) (roundNearest neg m e) := by
  rcases eq_or_ne m 0 with rfl | hm
  · simpa [roundNearest] using roundsTo_zero neg
  · have h := (isSignificand_roundedSignificand (K := ℚ) hm e).roundsTo roundedSignificand_even_of_half
      (by unfold inPlace; positivity) neg
    rw [mul_assoc, unit_place_mul_inPlace] at h
    have hs : (signedInt neg m : ℚ) = signedInt neg 1 * m := by cases neg <;> simp
    rw [roundNearest, if_neg hm, hs, mul_assoc, mul_div_assoc]
    exact h

theorem getLsbD_63_roundNearest (neg : Bool) (m e : Nat) : (roundNearest neg m e).getLsbD 63 = neg := by
  have hlt : infinityBits < 2 ^ 63 := by decide
  unfold roundNearest
  split
  · exact getLsbD_63_withSign (by norm_num)
  · exact getLsbD_63_withSign (lt_of_le_of_lt (min_le_right _ _) hlt)

/-- A value with nothing below its last place is rounded to itself. -/
theorem finiteValue_roundNearest_of_exact (neg : Bool) {m e : Nat} (hm : m ≠ 0) (hplace : lastPlace m e ≤ e)
    (hfin : e ≤ 3118) : finiteValue (roundNearest neg m e) = some (signedInt neg m * unit ℚ e / 2 ^ 1074) := by
  have hsig := isSignificand_roundedSignificand (K := ℚ) hm e
  have hval := unit_place_mul_inPlace (K := ℚ) m e
  have hexact : (roundedSignificand m e (lastPlace m e) : ℚ) = inPlace ℚ m e := by
    obtain ⟨k, hk⟩ := Nat.exists_eq_add_of_le hplace
    rw [roundedSignificand, if_pos hplace, inPlace]
    generalize lastPlace m e = q at *
    rw [hk, Nat.add_sub_cancel_left, pow_add]
    push_cast
    field_simp
  rw [← hexact] at hval
  have hbits : (lastPlace m e - 1074) * 2 ^ 52 + roundedSignificand m e (lastPlace m e) < infinityBits := by
    have := hsig.upper
    unfold infinityBits
    omega
  rw [roundNearest, if_neg hm, min_eq_left hbits.le,
    finiteValue_withSign hsig.upper (hsig.lower.imp_right And.left) hbits]
  cases neg
  · simpa using hval
  · simp only [signedInt_true, Int.cast_neg, Int.cast_natCast, neg_mul, neg_div, hval]

/-! ### The integer nearest to a finite value -/

/-- The magnitude that `nearestInt` gives. -/
def nearestMagnitude (m e : Nat) : Nat := if 1074 ≤ e then m * 2 ^ (e - 1074) else nearestEven m (1074 - e)

theorem nearestInt_eq_signedInt (neg : Bool) (m e : Nat) : nearestInt neg m e = signedInt neg (nearestMagnitude m e) := rfl

theorem nearestMagnitude_nearest (m e : Nat) :
    |(nearestMagnitude m e : K) - m * unit K e| ≤ 1 / 2 ∧
      (|(nearestMagnitude m e : K) - m * unit K e| = 1 / 2 → nearestMagnitude m e % 2 = 0) := by
  unfold nearestMagnitude
  split
  next h =>
    obtain ⟨k, rfl⟩ := Nat.exists_eq_add_of_le h
    have hzero : ((m * 2 ^ (1074 + k - 1074) : ℕ) : K) - m * unit K (1074 + k) = 0 := by
      rw [unit_add, unit_1074, Nat.add_sub_cancel_left]
      push_cast
      ring
    rw [hzero, abs_zero]
    exact ⟨by norm_num, fun h => by norm_num at h⟩
  next h =>
    obtain ⟨k, hk⟩ := Nat.exists_eq_add_of_le (Nat.le_of_not_le h)
    have hunit : m * unit K e = m / 2 ^ k := by
      rw [eq_div_iff (by positivity), mul_assoc, ← unit_add, ← hk, unit_1074, mul_one]
    rw [hunit, hk, Nat.add_sub_cancel_left]
    exact ⟨nearestEven_sub_abs_le m k, nearestEven_even_of_half⟩

/-- Two integers within one half of a value are equal, but for a tie, where they are neighbours and not both even. -/
theorem nearest_integer_unique {v : K} {a r : ℤ} (ha : |v - a| ≤ 1 / 2) (hr : |v - r| ≤ 1 / 2)
    (haEven : |v - a| = 1 / 2 → Even a) (hrEven : |v - r| = 1 / 2 → Even r) : a = r := by
  by_contra hne
  have htri : |(a : K) - r| ≤ |v - a| + |v - r| := by
    rw [abs_sub_comm v a]
    exact abs_sub_le _ _ _
  have hge : 1 ≤ |a - r| := Int.one_le_abs (sub_ne_zero.mpr hne)
  have hge' : (1 : K) ≤ |(a : K) - r| := by exact_mod_cast hge
  have hle : |(a : K) - r| ≤ 1 := by linarith
  have hle : |a - r| ≤ 1 := by exact_mod_cast hle
  obtain ⟨i, hi⟩ := haEven (by linarith)
  obtain ⟨j, hj⟩ := hrEven (by linarith)
  have := abs_le.mp hle
  omega

end Field

/-! ### Samples -/

/-- Settles O59: no bit of a sample lies below its last place. -/
theorem samplesConvertExactly : Obligations.SamplesConvertExactly := by
  intro v
  rcases eq_or_ne v.toNat 0 with h0 | h0
  · rw [toF64, h0]
    exact finiteValue_withSign_zero false
  · have hlog : v.toNat.log2 < 8 := (Nat.log2_lt h0).mpr v.isLt
    have hplace : lastPlace v.toNat 2148 ≤ 2148 := by unfold lastPlace; omega
    rw [toF64, finiteValue_roundNearest_of_exact false h0 hplace (by norm_num), mul_div_assoc, unit_add_1074 1074,
      unit_1074, mul_one, signedInt_false, Int.cast_natCast]

/-! ### Addition -/

theorem add64_nan {a b : F64} (h : unpack a = .nan ∨ unpack b = .nan) : add64 a b = canonicalNaN := by
  unfold add64
  rcases h with h | h
  · rw [h]
  · rw [h]
    cases unpack a <;> rfl

theorem add64_fin {a b : F64} {s t : Bool} {m n e f : Nat} (ha : unpack a = .fin s m e) (hb : unpack b = .fin t n f) :
    ∃ z : Int, (z : ℚ) * unit ℚ (min e f) = signedInt s m * unit ℚ e + signedInt t n * unit ℚ f ∧
      add64 a b =
        if z = 0 then withSign (s && t) 0 else roundNearest (decide (z < 0)) z.natAbs (min e f + 1074) := by
  refine ⟨signedInt s (m * 2 ^ (e - min e f)) + signedInt t (n * 2 ^ (f - min e f)), ?_, by simp only [add64, ha, hb]⟩
  obtain ⟨i, hi⟩ := Nat.exists_eq_add_of_le (min_le_left e f)
  obtain ⟨j, hj⟩ := Nat.exists_eq_add_of_le (min_le_right e f)
  generalize min e f = g at *
  rw [hi, hj, Nat.add_sub_cancel_left, Nat.add_sub_cancel_left, unit_add, unit_add, signedInt_mul_right,
    signedInt_mul_right]
  push_cast
  ring

theorem add64_fin_roundsTo {a b : F64} {x y : ℚ} (ha : finiteValue a = some x) (hb : finiteValue b = some y) :
    RoundsTo (x + y) (add64 a b) := by
  obtain ⟨s, m, e, hua, rfl⟩ := finiteValue_eq_some.mp ha
  obtain ⟨t, n, f, hub, rfl⟩ := finiteValue_eq_some.mp hb
  obtain ⟨z, hz, hadd⟩ := add64_fin hua hub
  rw [← hz, hadd]
  split
  next h0 => simpa [h0] using roundsTo_zero (s && t)
  next =>
    have h := roundNearest_roundsTo (decide (z < 0)) z.natAbs (min e f + 1074)
    rwa [signedInt_natAbs, mul_div_assoc, unit_add_1074] at h

theorem add64_fin_zero_sum {a b : F64} {x y : ℚ} (ha : finiteValue a = some x) (hb : finiteValue b = some y)
    (h0 : x + y = 0) : add64 a b =
      if a = 0x8000000000000000#64 ∧ b = 0x8000000000000000#64 then 0x8000000000000000#64 else 0x0000000000000000#64 := by
  obtain ⟨s, m, e, hua, rfl⟩ := finiteValue_eq_some.mp ha
  obtain ⟨t, n, f, hub, rfl⟩ := finiteValue_eq_some.mp hb
  obtain ⟨z, hz, hadd⟩ := add64_fin hua hub
  have hz0 : z = 0 := by simpa [h0, (unit_pos (K := ℚ) _).ne'] using hz
  rw [hadd, if_pos hz0, withSign_zero]
  refine if_congr ?_ rfl rfl
  rw [Bool.and_eq_true]
  constructor
  · rintro ⟨rfl, rfl⟩
    have hm : 0 ≤ (m : ℚ) * unit ℚ e := mul_nonneg (Nat.cast_nonneg _) (unit_pos _).le
    have hn : 0 ≤ (n : ℚ) * unit ℚ f := mul_nonneg (Nat.cast_nonneg _) (unit_pos _).le
    simp only [signedInt_true, Int.cast_neg, Int.cast_natCast, neg_mul] at h0
    have hm0 : m = 0 := by
      simpa [(unit_pos (K := ℚ) e).ne'] using (show (m : ℚ) * unit ℚ e = 0 by linarith)
    have hn0 : n = 0 := by
      simpa [(unit_pos (K := ℚ) f).ne'] using (show (n : ℚ) * unit ℚ f = 0 by linarith)
    subst hm0 hn0
    exact ⟨eq_zero_of_unpack_fin_zero hua, eq_zero_of_unpack_fin_zero hub⟩
  · rintro ⟨rfl, rfl⟩
    exact ⟨(unpack_fin hua).1, (unpack_fin hub).1⟩

theorem infinity_cases {i : F64} (h : i = 0x7FF0000000000000#64 ∨ i = 0xFFF0000000000000#64) :
    ∃ s, unpack i = .inf s ∧ withSign s infinityBits = i := by
  rcases h with rfl | rfl
  · exact ⟨false, by decide, rfl⟩
  · exact ⟨true, by decide, rfl⟩

/-- Settles O57: the sum is exact on integers in the smaller operand's place, and is rounded once. -/
theorem additionIsCorrectlyRounded : Obligations.AdditionIsCorrectlyRounded := by
  refine ⟨fun a b x y ha hb => ⟨add64_fin_roundsTo ha hb, add64_fin_zero_sum ha hb⟩,
    fun a b h => add64_nan (h.imp unpack_of_isNaN unpack_of_isNaN), by decide, by decide, fun i hi => ?_⟩
  obtain ⟨s, hs, rfl⟩ := infinity_cases hi
  refine ⟨by simp only [add64, hs, if_true], fun b y hb => ?_⟩
  obtain ⟨t, n, f, hub, -⟩ := finiteValue_eq_some.mp hb
  simp only [add64, hs, hub, and_self]

/-! ### Multiplication -/

theorem mul64_nan {a b : F64} (h : unpack a = .nan ∨ unpack b = .nan) : mul64 a b = canonicalNaN := by
  unfold mul64
  rcases h with h | h
  · rw [h]
  · rw [h]
    cases unpack a <;> rfl

theorem mul64_fin {a b : F64} {s t : Bool} {m n e f : Nat} (ha : unpack a = .fin s m e) (hb : unpack b = .fin t n f) :
    mul64 a b = roundNearest (s != t) (m * n) (e + f) := by simp only [mul64, ha, hb]

theorem mul64_fin_roundsTo {a b : F64} {x y : ℚ} (ha : finiteValue a = some x) (hb : finiteValue b = some y) :
    RoundsTo (x * y) (mul64 a b) ∧ (mul64 a b).getLsbD 63 = (a.getLsbD 63 != b.getLsbD 63) := by
  obtain ⟨s, m, e, hua, rfl⟩ := finiteValue_eq_some.mp ha
  obtain ⟨t, n, f, hub, rfl⟩ := finiteValue_eq_some.mp hb
  rw [mul64_fin hua hub, ← (unpack_fin hua).1, ← (unpack_fin hub).1]
  refine ⟨?_, getLsbD_63_roundNearest _ _ _⟩
  have h := roundNearest_roundsTo (s != t) (m * n) (e + f)
  rw [← signedInt_mul_signedInt, unit_add] at h
  convert h using 1
  unfold unit
  generalize (2 : ℚ) ^ 1074 = D
  push_cast
  ring

/-- An infinity times a finite number: the canonical NaN for a zero, and else an infinity. -/
theorem mul64_infinity_fin {i b : F64} {s t : Bool} {n f : Nat} (hi : unpack i = .inf s) (hb : unpack b = .fin t n f) :
    mul64 i b = (if n = 0 then canonicalNaN else withSign (s != t) infinityBits) ∧ mul64 b i = mul64 i b := by
  simp only [mul64, hi, hb, true_and, bne_comm]

theorem mul64_infinity_infinity {i b : F64} {s t : Bool} (hi : unpack i = .inf s) (hb : unpack b = .inf t) :
    mul64 i b = withSign (s != t) infinityBits ∧ mul64 b i = mul64 i b := by
  simp only [mul64, hi, hb, true_and, bne_comm]

theorem withSign_bne_infinity (s t : Bool) :
    withSign (s != t) infinityBits = if s = t then 0x7FF0000000000000#64 else 0xFFF0000000000000#64 := by
  cases s <;> cases t <;> rfl

theorem zero_cases {z : F64} (h : z = 0x0000000000000000#64 ∨ z = 0x8000000000000000#64) :
    ∃ s, unpack z = .fin s 0 0 := by
  rcases h with rfl | rfl
  · exact ⟨false, by decide⟩
  · exact ⟨true, by decide⟩

theorem getLsbD_63_infinity (s : Bool) : (withSign s infinityBits).getLsbD 63 = s := getLsbD_63_withSign (by decide)

/-- Settles O58: the product of the significands is exact, and is rounded once. -/
theorem multiplicationIsCorrectlyRounded : Obligations.MultiplicationIsCorrectlyRounded := by
  refine ⟨fun a b x y ha hb => mul64_fin_roundsTo ha hb,
    fun a b h => mul64_nan (h.imp unpack_of_isNaN unpack_of_isNaN), fun i hi => ?_⟩
  obtain ⟨s, hs, rfl⟩ := infinity_cases hi
  refine ⟨fun z hz => ?_, fun b hb => ?_⟩
  · obtain ⟨t, ht⟩ := zero_cases hz
    obtain ⟨h1, h2⟩ := mul64_infinity_fin hs ht
    rw [if_pos rfl] at h1
    exact ⟨h1, h2.trans h1⟩
  · rw [getLsbD_63_infinity]
    rcases or_assoc.mpr hb with hb | ⟨y, hy, hne⟩
    · obtain ⟨t, ht, rfl⟩ := infinity_cases hb
      rw [getLsbD_63_infinity, ← withSign_bne_infinity]
      exact mul64_infinity_infinity hs ht
    · obtain ⟨t, n, f, ht, rfl⟩ := finiteValue_eq_some.mp hy
      have hn : n ≠ 0 := by rintro rfl; simp at hne
      obtain ⟨h1, h2⟩ := mul64_infinity_fin hs ht
      rw [if_neg hn] at h1
      rw [← (unpack_fin ht).1, ← withSign_bne_infinity]
      exact ⟨h1, h2⟩

/-! ### The reconstructor -/

theorem nearestInt_eq {v : ℚ} {r : ℤ} {neg : Bool} {m e : Nat} (hv : v = signedInt neg m * unit ℚ e)
    (hclose : |v - r| ≤ 1 / 2) (heven : |v - r| = 1 / 2 → Even r) : nearestInt neg m e = r := by
  obtain ⟨hle, htie⟩ := nearestMagnitude_nearest (K := ℚ) m e
  have habs : |v - nearestInt neg m e| = |(nearestMagnitude m e : ℚ) - m * unit ℚ e| := by
    rw [hv, nearestInt_eq_signedInt]
    cases neg
    · simp [abs_sub_comm]
    · congr 1
      simp
      ring
  refine nearest_integer_unique (v := v) (habs.trans_le hle) hclose (fun h => ?_) heven
  have hmag := htie (habs.symm.trans h)
  rw [nearestInt_eq_signedInt, Int.even_iff]
  cases neg
  · simp; omega
  · simp; omega

/-- Settles O29: two integers within one half of a value are equal, but for a tie, where both would be even. -/
theorem reconstructorRoundsTiesToEven : Obligations.ReconstructorRoundsTiesToEven := by
  intro x
  refine ⟨fun h => by simp only [recon8, h], fun h => by simp [recon8, h], fun h => by simp [recon8, h],
    fun v r hv hclose heven => ?_⟩
  obtain ⟨neg, m, e, hx, hval⟩ := finiteValue_eq_some.mp hv
  simp only [recon8, hx, nearestInt_eq hval hclose heven, BitVec.toNat_ofNat]
  omega

end Sys2Proof.Rounding
end

section
/-! PROOFS. The basis is correctly rounded (spec/00_scope.md R15): the integer square root and the cosine fraction have proved
error bounds, and every element is farther from a midpoint of two binary64 values than these bounds. -/

namespace Sys2Proof.BasisRounding

open Sys2Proof Sys2Proof.Machine Sys2Proof.Rounding

/-! ### The integer square root -/

/-- Newton's step from g ≥ √n does not go below √n. -/
theorem sqrt_le_newton {n g : Nat} (hg : 0 < g) (hlow : n.sqrt ≤ g) : n.sqrt ≤ (g + n / g) / 2 := by
  obtain ⟨d, rfl⟩ := Nat.exists_eq_add_of_le hlow
  have hdiv : n.sqrt - d ≤ n / (n.sqrt + d) := by
    rw [Nat.le_div_iff_mul_le hg]
    calc (n.sqrt - d) * (n.sqrt + d) = n.sqrt * n.sqrt - d * d := by
          rw [mul_comm, ← Nat.mul_self_sub_mul_self_eq]
      _ ≤ n := (Nat.sub_le _ _).trans (Nat.sqrt_le n)
  omega

/-- Each step at least halves the distance to the root, so the fuel is enough. -/
theorem isqrtLoop_eq_sqrt {fuel n g : Nat} (hn : 0 < n.sqrt) (hlow : n.sqrt ≤ g) (hhigh : g < n.sqrt + 2 ^ fuel) :
    isqrtLoop fuel n g = n.sqrt := by
  induction fuel generalizing g with
  | zero => rw [isqrtLoop]; omega
  | succ k ih =>
    have hg : 0 < g := hn.trans_le hlow
    have hnext := sqrt_le_newton hg hlow
    rw [isqrtLoop]
    split
    next hlt =>
      have hdiv : n / g < n.sqrt + 1 := by
        rw [Nat.div_lt_iff_lt_mul hg]
        exact (Nat.lt_succ_sqrt n).trans_le (Nat.mul_le_mul_left _ (by omega))
      exact ih hnext (by omega)
    next hge =>
      have hsq : g * g ≤ n := (Nat.le_div_iff_mul_le hg).mp (by omega)
      exact (Nat.le_sqrt.mpr hsq).antisymm hlow

theorem isqrt_eq_sqrt (n : Nat) : isqrt n = n.sqrt := by
  unfold isqrt
  split
  next h => simp [h]
  next h =>
    have hlow : n.sqrt < 2 ^ (n.log2 / 2 + 1) := by
      rw [Nat.sqrt_lt, ← pow_add]
      exact Nat.lt_log2_self.trans_le (Nat.pow_le_pow_right (by norm_num) (by omega))
    have hhigh : 2 ^ (n.log2 / 2 + 1) < 2 ^ (n.log2 + 2) := Nat.pow_lt_pow_right (by norm_num) (by omega)
    exact isqrtLoop_eq_sqrt (Nat.sqrt_pos.mpr (Nat.pos_of_ne_zero h)) hlow.le (by omega)

/-! ### The square root in fixed point -/

/-- √(a / b) with 121 fraction bits, the last of them sticky: what `sqrtNearest` rounds. -/
def sqrtBits (a b : Nat) : Nat :=
  2 * isqrt (a * 2 ^ 240 / b) +
    if isqrt (a * 2 ^ 240 / b) * isqrt (a * 2 ^ 240 / b) * b = a * 2 ^ 240 then 0 else 1

theorem sqrtNearest_eq_roundNearest (a b : Nat) : sqrtNearest a b = roundNearest false (sqrtBits a b) 2027 := rfl

theorem sqrtBits_close (a : Nat) {b : Nat} (hb : 0 < b) : |√(a / b : ℝ) * 2 ^ 121 - sqrtBits a b| ≤ 1 := by
  have hb' : (0 : ℝ) < b := by exact_mod_cast hb
  have hroot : √(a / b : ℝ) * 2 ^ 121 = 2 * √(a * 2 ^ 240 / b : ℝ) := by
    rw [show (a * 2 ^ 240 / b : ℝ) = a / b * (2 ^ 120) ^ 2 by ring, Real.sqrt_mul (by positivity),
      Real.sqrt_sq (by positivity)]
    ring
  rw [hroot, sqrtBits, isqrt_eq_sqrt]
  have hlow : (a * 2 ^ 240 / b).sqrt * (a * 2 ^ 240 / b).sqrt * b ≤ a * 2 ^ 240 :=
    (Nat.le_div_iff_mul_le hb).mp (Nat.sqrt_le _)
  have hhigh : a * 2 ^ 240 < ((a * 2 ^ 240 / b).sqrt + 1) * ((a * 2 ^ 240 / b).sqrt + 1) * b :=
    (Nat.div_lt_iff_lt_mul hb).mp (Nat.lt_succ_sqrt _)
  generalize (a * 2 ^ 240 / b).sqrt = r at *
  split
  next hexact =>
    have : (a * 2 ^ 240 / b : ℝ) = r ^ 2 := by
      rw [div_eq_iff hb'.ne', sq]
      exact_mod_cast hexact.symm
    rw [this, Real.sqrt_sq (by positivity)]
    simp
  next =>
    have h1 : (r : ℝ) ≤ √(a * 2 ^ 240 / b : ℝ) := by
      refine Real.le_sqrt_of_sq_le ?_
      rw [le_div_iff₀ hb', sq]
      exact_mod_cast hlow
    have h2 : √(a * 2 ^ 240 / b : ℝ) < r + 1 := by
      rw [Real.sqrt_lt' (by positivity), div_lt_iff₀ hb', sq]
      exact_mod_cast hhigh
    push_cast
    rw [abs_le]
    constructor <;> linarith

/-! ### Far from a midpoint -/

/-- A number of 121 fraction bits is at least two units of the last of them away from each midpoint of two significands of 53
bits. -/
def farFromMidpoint (R : Nat) : Bool :=
  decide (56 ≤ R.log2 ∧ R.log2 ≤ 200 ∧
    (2 * (R % 2 ^ (R.log2 - 52)) + 4 ≤ 2 ^ (R.log2 - 52) ∨ 2 ^ (R.log2 - 52) + 4 ≤ 2 * (R % 2 ^ (R.log2 - 52))))

/-- Away from the midpoints rounding leaves room on both sides. -/
theorem nearestEven_room {R k : Nat} (h : 2 * (R % 2 ^ k) + 4 ≤ 2 ^ k ∨ 2 ^ k + 4 ≤ 2 * (R % 2 ^ k)) :
    2 * R + 4 ≤ 2 * (nearestEven R k * 2 ^ k) + 2 ^ k ∧ 2 * (nearestEven R k * 2 ^ k) + 4 ≤ 2 * R + 2 ^ k := by
  have hR := Nat.div_add_mod R (2 ^ k)
  have hlt := Nat.mod_lt R (Nat.two_pow_pos k)
  rw [mul_comm] at hR
  unfold nearestEven
  rcases h with h | h
  · rw [if_pos (by omega)]; omega
  · rw [if_neg (by omega), if_pos (by omega), Nat.add_mul, one_mul]; omega

theorem isSignificand_of_farFromMidpoint {R : Nat} {T : ℝ} (hfar : farFromMidpoint R = true)
    (hT : |T * 2 ^ 121 - R| ≤ 2) :
    IsSignificand (lastPlace R 2027 - 1074) (roundedSignificand R 2027 (lastPlace R 2027))
      (T / unit ℝ (lastPlace R 2027 - 1074)) := by
  obtain ⟨hlow, hhigh, hmid⟩ := of_decide_eq_true hfar
  have hR : R ≠ 0 := by rintro rfl; simp at hlow
  obtain ⟨k, hk⟩ := Nat.exists_eq_add_of_le (show 52 ≤ R.log2 by omega)
  rw [hk, Nat.add_sub_cancel_left] at hmid
  have hplace : lastPlace R 2027 = 2027 + k := by unfold lastPlace; omega
  have hsig := isSignificand_roundedSignificand (K := ℝ) hR 2027
  have hupper := hsig.upper
  obtain ⟨ht, -⟩ := hsig.lower.resolve_left (by omega)
  have hbinade : 2 ^ 52 * 2 ^ k ≤ R := by
    rw [← pow_add, ← hk]
    exact Nat.log2_self_le hR
  obtain ⟨h1, h2⟩ := nearestEven_room hmid
  have hround : roundedSignificand R 2027 (lastPlace R 2027) = nearestEven R k := by
    rw [hplace, roundedSignificand, if_neg (by omega), Nat.add_sub_cancel_left]
  rw [hround] at ht hupper ⊢
  have hunit : T / unit ℝ (lastPlace R 2027 - 1074) = T * 2 ^ 121 / 2 ^ k := by
    have hone : unit ℝ 953 * 2 ^ 121 = 1 := by rw [← unit_add, unit_1074]
    rw [hplace, show 2027 + k - 1074 = 953 + k by omega, unit_add, div_eq_div_iff
      (mul_pos (unit_pos _) (by positivity)).ne' (by positivity)]
    linear_combination (-T * 2 ^ k) * hone
  rw [hunit]
  have hp : (0 : ℝ) < 2 ^ k := by positivity
  have hp16 : (16 : ℝ) ≤ 2 ^ k := by
    exact_mod_cast (show 2 ^ 4 ≤ 2 ^ k from Nat.pow_le_pow_right (by norm_num) (by omega))
  have h1 : (2 : ℝ) * R + 4 ≤ 2 * (nearestEven R k * 2 ^ k) + 2 ^ k := by exact_mod_cast h1
  have h2 : (2 : ℝ) * (nearestEven R k * 2 ^ k) + 4 ≤ 2 * R + 2 ^ k := by exact_mod_cast h2
  have h3 : (2 : ℝ) ^ 52 * 2 ^ k ≤ R := by exact_mod_cast hbinade
  obtain ⟨h4, h5⟩ := abs_le.mp hT
  refine ⟨?_, hupper, .inr ⟨ht, ?_⟩⟩
  · rw [abs_le, neg_le_sub_iff_le_add, sub_le_iff_le_add, div_le_iff₀ hp, ← sub_le_iff_le_add', le_div_iff₀ hp]
    constructor <;> linarith
  · rw [lt_div_iff₀ hp]
    linarith

/-- `z` is a finite value and no finite value is nearer to x. -/
def IsNearest (x : ℝ) (z : F64) : Prop :=
  ∃ v : ℚ, finiteValue z = some v ∧ ∀ (c : F64) (u : ℚ), finiteValue c = some u → |(v : ℝ) - x| ≤ |(u : ℝ) - x|

theorem isNearest_zero : IsNearest 0 plusZero :=
  ⟨0, finiteValue_withSign_zero false, fun _ _ _ => by simp⟩

theorem isNearest_roundNearest {R : Nat} {T : ℝ} (hfar : farFromMidpoint R = true) (hT : |T * 2 ^ 121 - R| ≤ 2)
    (neg : Bool) : IsNearest (signedInt neg 1 * T) (roundNearest neg R 2027) := by
  have hsig := isSignificand_of_farFromMidpoint hfar hT
  obtain ⟨hlow, hhigh, -⟩ := of_decide_eq_true hfar
  have hR : R ≠ 0 := by rintro rfl; simp at hlow
  have hplace : lastPlace R 2027 ≤ 2175 := by unfold lastPlace; omega
  have hbits : (lastPlace R 2027 - 1074) * 2 ^ 52 + roundedSignificand R 2027 (lastPlace R 2027) < infinityBits := by
    have := hsig.upper
    unfold infinityBits
    omega
  rw [roundNearest, if_neg hR, min_eq_left hbits.le]
  refine ⟨_, finiteValue_withSign hsig.upper (hsig.lower.imp_right And.left) hbits, fun c u hu => ?_⟩
  have h := (hsig.nearest neg hu).1
  rw [mul_assoc, div_mul_cancel₀ _ (unit_pos _).ne'] at h
  simpa using h

theorem withSign_true_roundNearest (m e : Nat) : withSign true (roundNearest false m e).toNat = roundNearest true m e := by
  have hlt : infinityBits < 2 ^ 64 := by decide
  unfold roundNearest
  split
  · rfl
  · rw [toNat_withSign_false (lt_of_le_of_lt (min_le_right _ _) hlt)]

/-! ### The cosine series -/

/-- The first k terms of the series of cos √y. -/
noncomputable def cosSeries (y : ℝ) (k : Nat) : ℝ := ∑ i ∈ Finset.range k, (-y) ^ i / (2 * i).factorial

theorem cosSeries_succ (y : ℝ) (k : Nat) : cosSeries y (k + 1) = cosSeries y k + (-y) ^ k / (2 * k).factorial :=
  Finset.sum_range_succ _ _

/-- The series is the real part of the exponential series of ix. -/
theorem re_expSeries (x : ℝ) (k : Nat) :
    (∑ m ∈ Finset.range (2 * k), (x * Complex.I) ^ m / m.factorial : ℂ).re = cosSeries (x ^ 2) k := by
  induction k with
  | zero => simp [cosSeries]
  | succ k ih =>
    have heven : (x * Complex.I) ^ (2 * k) / ((2 * k).factorial : ℂ) = (((-x ^ 2) ^ k / (2 * k).factorial : ℝ) : ℂ) := by
      rw [pow_mul, mul_pow, Complex.I_sq]
      push_cast
      ring
    have hodd : (x * Complex.I) ^ (2 * k + 1) / ((2 * k + 1).factorial : ℂ) =
        (((-x ^ 2) ^ k * x / (2 * k + 1).factorial : ℝ) : ℂ) * Complex.I := by
      rw [pow_succ, pow_mul, mul_pow, Complex.I_sq]
      push_cast
      ring
    rw [show 2 * (k + 1) = 2 * k + 1 + 1 by ring, Finset.sum_range_succ, Finset.sum_range_succ, Complex.add_re,
      Complex.add_re, ih, heven, hodd, cosSeries_succ, Complex.ofReal_re, Complex.re_ofReal_mul, Complex.I_re, mul_zero,
      add_zero]

/-- The remainder of the series after 21 terms. -/
theorem cosSeries_close {x : ℝ} (hx : |x| ≤ 2) : |Real.cos x - cosSeries (x ^ 2) 21| ≤ 1 / 10 ^ 38 := by
  have hnorm : ‖(x * Complex.I : ℂ)‖ = |x| := by simp
  have hbound := Complex.exp_bound' (x := x * Complex.I) (n := 2 * 21)
    (by rw [hnorm, div_le_iff₀ (by positivity)]; push_cast; linarith)
  rw [hnorm] at hbound
  have hre := (Complex.abs_re_le_norm _).trans hbound
  rw [Complex.sub_re, Complex.exp_ofReal_mul_I_re, re_expSeries] at hre
  calc _ ≤ |x| ^ (2 * 21) / ((2 * 21).factorial : ℝ) * 2 := hre
    _ ≤ 2 ^ (2 * 21) / ((2 * 21).factorial : ℝ) * 2 := by gcongr
    _ ≤ 1 / 10 ^ 38 := by
      norm_num [Nat.factorial]

theorem cosHorner_den_pos {a b k : Nat} {r : Nat × Nat} (hb : 0 < b) (hr : 0 < r.2) : 0 < (cosHorner a b k r).2 := by
  induction k generalizing r with
  | zero => exact hr
  | succ k ih => exact ih (by positivity)

/-- Horner's rule gives the series, as long as no subtraction is cut off at 0: only the last could be. -/
theorem cosHorner_eq_cosSeries {a b k : Nat} {r : Nat × Nat} (hb : 0 < b) (hab : a ≤ 12 * b) (hr : 0 < r.2)
    (hr1 : r.1 ≤ r.2) (hpos : 0 < (cosHorner a b k r).1) :
    ((cosHorner a b k r).1 : ℝ) / (cosHorner a b k r).2 =
      cosSeries (a / b) k + (-(a / b : ℝ)) ^ k / (2 * k).factorial * (r.1 / r.2) := by
  induction k generalizing r with
  | zero => simp [cosHorner, cosSeries]
  | succ k ih =>
    have hden : 0 < (2 * k + 1) * (2 * k + 2) * b * r.2 := by positivity
    have hcut : a * r.1 ≤ (2 * k + 1) * (2 * k + 2) * b * r.2 := by
      rcases Nat.eq_zero_or_pos k with rfl | hk
      · exact (Nat.lt_of_sub_pos hpos).le
      · calc a * r.1 ≤ 12 * b * r.2 := Nat.mul_le_mul hab hr1
          _ ≤ (2 * k + 1) * (2 * k + 2) * b * r.2 := by
            gcongr
            nlinarith
    have h := ih (r := ((2 * k + 1) * (2 * k + 2) * b * r.2 - a * r.1, (2 * k + 1) * (2 * k + 2) * b * r.2)) hden
      (Nat.sub_le _ _) hpos
    have hb' : (b : ℝ) ≠ 0 := by exact_mod_cast hb.ne'
    have hr' : (r.2 : ℝ) ≠ 0 := by exact_mod_cast hr.ne'
    have hstep : (((2 * k + 1) * (2 * k + 2) * b * r.2 - a * r.1 : ℕ) : ℝ) / ((2 * k + 1) * (2 * k + 2) * b * r.2 : ℕ) =
        1 - a / b * (r.1 / r.2) / ((2 * k + 1) * (2 * k + 2)) := by
      rw [Nat.cast_sub hcut]
      push_cast
      field_simp
    rw [cosHorner, h, hstep, cosSeries_succ, show 2 * (k + 1) = 2 * k + 1 + 1 by ring, Nat.factorial_succ,
      Nat.factorial_succ]
    generalize (a / b : ℝ) = y
    generalize (r.1 / r.2 : ℝ) = q
    push_cast
    field_simp
    ring

/-! ### π and the cosine fraction -/

/-- The rational number that stands for π. -/
noncomputable def piApprox : ℝ := piScaled / 10 ^ 50

theorem piApprox_bounds : 3 ≤ piApprox ∧ piApprox ≤ 3.2 := by
  unfold piApprox piScaled
  constructor <;> norm_num

theorem cosFraction_eq_cosHorner (n m : Nat) :
    cosFraction n m = cosHorner ((m * piScaled) ^ 2) ((2 * n * 10 ^ 50) ^ 2) 20 (1, 1) := rfl

theorem cosFraction_den_pos {n m : Nat} (hn : 0 < n) : 0 < (cosFraction n m).2 :=
  cosHorner_den_pos (by positivity) one_pos

theorem cosFraction_square_le {n m : Nat} (hm : m ≤ n) : (m * piScaled) ^ 2 ≤ 12 * (2 * n * 10 ^ 50) ^ 2 := by
  have hpi : piScaled ≤ 4 * 10 ^ 50 := by decide
  calc (m * piScaled) ^ 2 ≤ (n * (4 * 10 ^ 50)) ^ 2 := Nat.pow_le_pow_left (Nat.mul_le_mul hm hpi) 2
    _ = 4 * (2 * n * 10 ^ 50) ^ 2 := by ring
    _ ≤ 12 * (2 * n * 10 ^ 50) ^ 2 := Nat.mul_le_mul_right _ (by norm_num)

theorem div_nonneg_le_one {n m : Nat} (hm : m ≤ n) : 0 ≤ (m / n : ℝ) ∧ (m / n : ℝ) ≤ 1 :=
  ⟨by positivity, div_le_one_of_le₀ (by exact_mod_cast hm) (Nat.cast_nonneg n)⟩

theorem cosSeries_close_approx {n m : Nat} (hn : 0 < n) (hm : m ≤ n) :
    |Real.cos (m / n * (piApprox / 2)) -
      cosSeries (((m * piScaled) ^ 2 : ℕ) / ((2 * n * 10 ^ 50) ^ 2 : ℕ)) 21| ≤ 1 / 10 ^ 38 := by
  have hn' : (0 : ℝ) < n := by exact_mod_cast hn
  have hsq : ((((m * piScaled) ^ 2 : ℕ) : ℝ) / ((2 * n * 10 ^ 50) ^ 2 : ℕ)) = (m / n * (piApprox / 2)) ^ 2 := by
    unfold piApprox
    push_cast
    field_simp
    norm_num
  rw [hsq]
  apply cosSeries_close
  obtain ⟨h0, h1⟩ := div_nonneg_le_one hm
  obtain ⟨h2, h3⟩ := piApprox_bounds
  rw [abs_mul, abs_of_nonneg h0, abs_of_nonneg (by linarith)]
  nlinarith

theorem cosFraction_close_approx {n m : Nat} (hn : 0 < n) (hm : m ≤ n) (hpos : 0 < (cosFraction n m).1) :
    |Real.cos (m / n * (piApprox / 2)) - (cosFraction n m).1 / (cosFraction n m).2| ≤ 1 / 10 ^ 38 := by
  have hb : 0 < (2 * n * 10 ^ 50) ^ 2 := by clear hpos; positivity
  have h := cosSeries_close_approx hn hm
  rw [cosFraction_eq_cosHorner] at hpos ⊢
  rw [cosHorner_eq_cosSeries hb (cosFraction_square_le hm) one_pos le_rfl hpos, Nat.cast_one, div_one, mul_one,
    ← cosSeries_succ]
  exact h

/-- The fraction for the angle π / 2 is nearly 0: a check of the digits of π. -/
theorem cosFraction_one_one : 0 < (cosFraction 1 1).1 ∧ (cosFraction 1 1).1 * 10 ^ 38 ≤ (cosFraction 1 1).2 := by
  decide +kernel

/-- The cosine at `piApprox / 2` is nearly 0, so that `piApprox / 2` is near to the zero π / 2. -/
theorem piApprox_close : |piApprox / 2 - Real.pi / 2| ≤ 4 / 10 ^ 38 := by
  obtain ⟨hpos, hsmall⟩ := cosFraction_one_one
  have hden : (0 : ℝ) < (cosFraction 1 1).2 := by exact_mod_cast cosFraction_den_pos (m := 1) one_pos
  have hfrac : ((cosFraction 1 1).1 : ℝ) / (cosFraction 1 1).2 ≤ 1 / 10 ^ 38 := by
    rw [div_le_div_iff₀ hden (by positivity), one_mul]
    exact_mod_cast hsmall
  have hfrac0 : 0 ≤ ((cosFraction 1 1).1 : ℝ) / (cosFraction 1 1).2 := by positivity
  have hcos := cosFraction_close_approx one_pos le_rfl hpos
  simp only [Nat.cast_one, div_one, one_mul] at hcos
  have hcos : |Real.cos (piApprox / 2)| ≤ 2 / 10 ^ 38 := by
    rw [abs_le] at hcos ⊢
    constructor <;> linarith
  obtain ⟨h1, h2⟩ := piApprox_bounds
  have hpi3 := Real.pi_gt_three
  have hpi4 := Real.pi_le_four
  have hjordan := Real.mul_abs_le_abs_sin (x := Real.pi / 2 - piApprox / 2) (abs_le.mpr ⟨by linarith, by linarith⟩)
  rw [Real.sin_pi_div_two_sub] at hjordan
  rw [abs_sub_comm]
  have := hjordan.trans hcos
  rw [div_mul_eq_mul_div, div_le_iff₀ Real.pi_pos] at this
  linarith

theorem cos_angle_close {n m : Nat} (hm : m ≤ n) :
    |Real.cos (m / n * (Real.pi / 2)) - Real.cos (m / n * (piApprox / 2))| ≤ 4 / 10 ^ 38 := by
  obtain ⟨h0, h1⟩ := div_nonneg_le_one hm
  calc _ ≤ |(m / n : ℝ) * (Real.pi / 2) - m / n * (piApprox / 2)| := Real.abs_cos_sub_cos_le _ _
    _ = m / n * |piApprox / 2 - Real.pi / 2| := by rw [← mul_sub, abs_mul, abs_of_nonneg h0, abs_sub_comm]
    _ ≤ 1 * (4 / 10 ^ 38) := mul_le_mul h1 piApprox_close (abs_nonneg _) zero_le_one
    _ = 4 / 10 ^ 38 := one_mul _

theorem cosFraction_close {n m : Nat} (hn : 0 < n) (hm : m ≤ n) (hpos : 0 < (cosFraction n m).1) :
    |Real.cos (m / n * (Real.pi / 2)) - (cosFraction n m).1 / (cosFraction n m).2| ≤ 5 / 10 ^ 38 := by
  have hangle := cos_angle_close hm
  have happrox := cosFraction_close_approx hn hm hpos
  generalize cosFraction n m = c at *
  calc _ ≤ _ := abs_sub_le _ (Real.cos (m / n * (piApprox / 2))) _
    _ ≤ 4 / 10 ^ 38 + 1 / 10 ^ 38 := add_le_add hangle happrox
    _ = 5 / 10 ^ 38 := by ring

/-! ### The elements -/

/-- √(2 / n) · cos(π m / (2n)). -/
noncomputable def scaledCos (n m : Nat) : ℝ := √(2 / n) * Real.cos (m / n * (Real.pi / 2))

/-- What `basisMagnitude` rounds. -/
def cosBits (n m : Nat) : Nat := sqrtBits (2 * (cosFraction n m).1 ^ 2) (n * (cosFraction n m).2 ^ 2)

theorem cosBits_close {n m : Nat} (hn : 0 < n) (hm : m ≤ n) (hpos : 0 < (cosFraction n m).1) :
    |scaledCos n m * 2 ^ 121 - cosBits n m| ≤ 2 := by
  have hn' : (1 : ℝ) ≤ n := by exact_mod_cast hn
  have hden := cosFraction_den_pos (m := m) hn
  have hcos := cosFraction_close hn hm hpos
  unfold cosBits
  generalize cosFraction n m = c at *
  have hbits := sqrtBits_close (2 * c.1 ^ 2) (b := n * c.2 ^ 2) (by positivity)
  have hroot : √(((2 * c.1 ^ 2 : ℕ) : ℝ) / (n * c.2 ^ 2 : ℕ)) =
      √(2 / n) * (c.1 / c.2) := by
    rw [← Real.sqrt_sq (show 0 ≤ (c.1 : ℝ) / c.2 by positivity),
      ← Real.sqrt_mul (by positivity)]
    congr 1
    push_cast
    field_simp
  have hscale : √(2 / n) ≤ 2 := by
    rw [Real.sqrt_le_left (by norm_num), div_le_iff₀ (by linarith)]
    linarith
  rw [hroot] at hbits
  have herr : |scaledCos n m * 2 ^ 121 - √(2 / n) * (c.1 / c.2) * 2 ^ 121| ≤ 1 := by
    rw [scaledCos, ← sub_mul, ← mul_sub, abs_mul, abs_mul, abs_of_nonneg (Real.sqrt_nonneg _),
      abs_of_pos (by positivity : (0 : ℝ) < 2 ^ 121)]
    calc _ ≤ 2 * (5 / 10 ^ 38) * (2 : ℝ) ^ 121 := by gcongr
      _ ≤ 1 := by norm_num
  calc _ ≤ _ := abs_sub_le _ (√(2 / n) * (c.1 / c.2) * 2 ^ 121) _
    _ ≤ 1 + 1 := add_le_add herr hbits
    _ = 2 := by norm_num

/-- No element comes near to a midpoint.  The elements are finitely many algebraic numbers, so each is looked at. -/
theorem elements_farFromMidpoint :
    ∀ n < 33, 0 < n → farFromMidpoint (sqrtBits 1 n) = true ∧
      ∀ m < n, 0 < (cosFraction n m).1 ∧ farFromMidpoint (cosBits n m) = true := by
  decide +kernel

theorem basisMagnitude_eq_roundNearest {n m : Nat} (h : m < n) :
    basisMagnitude n m = roundNearest false (cosBits n m) 2027 := by
  rw [basisMagnitude, if_neg h.ne]
  rfl

theorem isNearest_cosBits {n m : Nat} (hn : 0 < n) (hmax : n ≤ Config.nMax) (hm : m < n) (neg : Bool) :
    IsNearest (signedInt neg 1 * scaledCos n m) (roundNearest neg (cosBits n m) 2027) := by
  obtain ⟨-, hall⟩ := elements_farFromMidpoint n (Nat.lt_succ_of_le hmax) hn
  obtain ⟨hpos, hfar⟩ := hall m hm
  exact isNearest_roundNearest hfar (cosBits_close hn hm.le hpos) neg

theorem scaledCos_self {n : Nat} (hn : 0 < n) : scaledCos n n = 0 := by
  have : (n : ℝ) ≠ 0 := by exact_mod_cast hn.ne'
  rw [scaledCos, div_self this, one_mul, Real.cos_pi_div_two, mul_zero]

theorem isNearest_row_zero {n : Nat} (hn : 0 < n) (hmax : n ≤ Config.nMax) : IsNearest (1 / √n) (sqrtNearest 1 n) := by
  obtain ⟨hfar, -⟩ := elements_farFromMidpoint n (Nat.lt_succ_of_le hmax) hn
  have hclose := sqrtBits_close 1 hn
  have h := isNearest_roundNearest (T := 1 / √n) hfar
    (by rw [Nat.cast_one, Real.sqrt_div zero_le_one, Real.sqrt_one] at hclose; linarith) false
  simpa [sqrtNearest_eq_roundNearest] using h

/-! ### The angle -/

theorem halfAngle_le {n : Nat} (hn : 0 < n) (l j : Nat) : halfAngle n l j ≤ 2 * n := by
  have := Nat.mod_lt (l * (2 * j + 1)) (show 0 < 4 * n by omega)
  simp only [halfAngle]
  split <;> omega

/-- The reduction of the angle keeps the cosine. -/
theorem cos_halfAngle {n : Nat} (hn : 0 < n) (l j : Nat) :
    Real.cos (l * Real.pi * (2 * j + 1) / (2 * n)) = Real.cos (halfAngle n l j / n * (Real.pi / 2)) := by
  have hn' : (n : ℝ) ≠ 0 := by exact_mod_cast hn.ne'
  have hdiv : ((4 * n : ℕ) : ℝ) * (l * (2 * j + 1) / (4 * n) : ℕ) + (l * (2 * j + 1) % (4 * n) : ℕ) = l * (2 * j + 1) := by
    exact_mod_cast Nat.div_add_mod (l * (2 * j + 1)) (4 * n)
  have hlt := Nat.mod_lt (l * (2 * j + 1)) (show 0 < 4 * n by omega)
  simp only [halfAngle]
  generalize l * (2 * j + 1) / (4 * n) = t at *
  generalize l * (2 * j + 1) % (4 * n) = r at *
  have hperiod : Real.cos (l * Real.pi * (2 * j + 1) / (2 * n)) = Real.cos (r / n * (Real.pi / 2)) := by
    rw [← Real.cos_add_nat_mul_two_pi (r / n * (Real.pi / 2)) t]
    congr 1
    push_cast at hdiv
    field_simp
    linear_combination -hdiv
  rw [hperiod]
  split
  · rw [Nat.cast_sub (by omega), ← Real.cos_two_pi_sub]
    congr 1
    push_cast
    field_simp
    ring
  · rfl

/-- An angle in the second quadrant: the cosine is that of the supplement with the sign changed. -/
theorem cos_supplement {n h : Nat} (hn : 0 < n) (hh : h ≤ 2 * n) :
    Real.cos (h / n * (Real.pi / 2)) = -Real.cos ((2 * n - h : ℕ) / n * (Real.pi / 2)) := by
  have hn' : (n : ℝ) ≠ 0 := by exact_mod_cast hn.ne'
  rw [← Real.cos_pi_sub, Nat.cast_sub hh]
  congr 1
  push_cast
  field_simp
  ring

theorem cos_pos_of_lt {n h : Nat} (hh : h < n) : 0 < Real.cos (h / n * (Real.pi / 2)) := by
  have hn : (0 : ℝ) < n := by exact_mod_cast (Nat.zero_le h).trans_lt hh
  have hpi := Real.pi_pos
  have h1 : (h : ℝ) / n < 1 := (div_lt_one hn).mpr (by exact_mod_cast hh)
  have h0 : (0 : ℝ) ≤ h / n := by positivity
  exact Real.cos_pos_of_mem_Ioo ⟨by nlinarith, by nlinarith⟩

/-! ### The statement -/

/-- A row but the first: the element is nearest to √(2 / n) times the cosine of the reduced angle. -/
theorem isNearest_basis {n l : Nat} (hn : 0 < n) (hmax : n ≤ Config.nMax) (hl : l ≠ 0) (j : Nat) :
    IsNearest (scaledCos n (halfAngle n l j)) (basis n l j) := by
  have hle := halfAngle_le hn l j
  rw [basis, if_neg hl]
  generalize halfAngle n l j = h at *
  rcases lt_trichotomy h n with hlt | rfl | hgt
  · rw [if_neg (by omega), basisMagnitude_eq_roundNearest hlt]
    simpa using isNearest_cosBits hn hmax hlt false
  · rw [if_neg (by omega), basisMagnitude, if_pos rfl, scaledCos_self hn]
    exact isNearest_zero
  · have hlt : 2 * n - h < n := by omega
    rw [if_pos hgt, basisMagnitude_eq_roundNearest hlt, withSign_true_roundNearest]
    have := isNearest_cosBits hn hmax hlt true
    rwa [scaledCos, signedInt_true, Int.cast_neg, Nat.cast_one, Int.cast_one, neg_one_mul, ← mul_neg,
      ← cos_supplement hn hle] at this

/-- The cosine is exactly zero only at the quarter circle. -/
theorem basis_eq_zero_of_cos_eq_zero {n l j : Nat} (hn : 0 < n)
    (hcos : Real.cos (l * Real.pi * (2 * j + 1) / (2 * n)) = 0) : basis n l j = 0x0000000000000000#64 := by
  have hl : l ≠ 0 := by rintro rfl; simp at hcos
  have hle := halfAngle_le hn l j
  rw [cos_halfAngle hn] at hcos
  rw [basis, if_neg hl]
  generalize halfAngle n l j = h at *
  rcases lt_trichotomy h n with hlt | rfl | hgt
  · exact absurd hcos (cos_pos_of_lt hlt).ne'
  · rw [if_neg (by omega), basisMagnitude, if_pos rfl]
    rfl
  · rw [cos_supplement hn hle, neg_eq_zero] at hcos
    exact absurd hcos (cos_pos_of_lt (by omega)).ne'

/-- Settles O60: the error of the fixed-point value is below the distance of the exact one from every midpoint. -/
theorem basisIsCorrectlyRounded : Obligations.BasisIsCorrectlyRounded := by
  intro n l j hn hmax hl hj
  have hnear : IsNearest ((if l = 0 then 1 / √n else √(2 / n)) * Real.cos (l * Real.pi * (2 * j + 1) / (2 * n)))
      (basis n l j) := by
    rcases eq_or_ne l 0 with rfl | hl0
    · simpa [basis] using isNearest_row_zero hn hmax
    · rw [if_neg hl0, cos_halfAngle hn]
      exact isNearest_basis hn hmax hl0 j
  obtain ⟨v, hv, hbest⟩ := hnear
  exact ⟨v, hv, hbest, basis_eq_zero_of_cos_eq_zero hn⟩

end Sys2Proof.BasisRounding
end

section
/-! PROOFS. The registers as a host reads them: STATUS, ERR_CODE, BLK_GRID, the event bits, and what a register write leaves of
the fields they show. -/

namespace Sys2Proof.HostRegisters

open Sys2Proof Sys2Proof.Machine

/-! ### Fields of a register word -/

/-- The bits of a field of `k` bits that stands at bit `n` of a register word. -/
theorem getLsbD_field {k n : Nat} (h : n + k ≤ 32) (x : BitVec k) (i : Nat) :
    (x.zeroExtend 32 <<< n).getLsbD i = (decide (n ≤ i) && x.getLsbD (i - n)) := by
  have hx := BitVec.getLsbD_of_ge x (i - n)
  rw [BitVec.getLsbD_shiftLeft, BitVec.getLsbD_setWidth]
  grind

theorem bit_eq_zeroExtend (b : Bool) : bit b = (BitVec.ofBool b).zeroExtend 32 := by
  cases b <;> rfl

/-- A flag at bit `n` of a register word is that bit alone. -/
theorem getLsbD_flag {n : Nat} (h : n < 32) (b : Bool) (i : Nat) :
    (bit b <<< n).getLsbD i = (b && decide (i = n)) := by
  rw [bit_eq_zeroExtend, getLsbD_field h, BitVec.getLsbD_ofBool]
  grind

/-! ### ERR_CODE -/

theorem errCodeWord_of_none {s : State} (h : s.errCode = none) : s.errCodeWord = 0#32 := by
  simp [State.errCodeWord, h]

/-- The three fields of an error word do not overlap, so that their union is their concatenation (R28). -/
theorem errorFields_eq_append (k d : BitVec 4) (o : Byte) :
    k.zeroExtend 32 ||| (d.zeroExtend 32 <<< 4) ||| (o.zeroExtend 32 <<< 8) = 0#16 ++ o ++ d ++ k := by
  refine BitVec.eq_of_getLsbD_eq fun i hi => ?_
  have hk := BitVec.getLsbD_of_ge k i
  have hd := BitVec.getLsbD_of_ge d (i - 4)
  have ho := BitVec.getLsbD_of_ge o (i - 8)
  rw [← BitVec.shiftLeft_zero (k.zeroExtend 32)]
  simp (disch := decide) only [BitVec.getLsbD_or, getLsbD_field, BitVec.getLsbD_append]
  grind

/-- Settles O9: the fields of a recorded error side by side; the table is finite. -/
theorem errorWordFollowsTheTable : Obligations.ErrorWordFollowsTheTable := by
  refine ⟨fun s h => errCodeWord_of_none h, fun s c o h => ?_, by decide⟩
  simp only [readReg, State.errCodeWord, h]
  exact errorFields_eq_append _ _ o

/-! ### STATUS -/

/-- The six flags and the field CUR_CMD of STATUS, each at its place (R27). -/
theorem getLsbD_statusWord (s : State) (i : Nat) :
    s.statusWord.getLsbD i = (s.ctl.busy && decide (i = 0) || s.errFlag && decide (i = 1) ||
      s.errMulti && decide (i = 2) || s.basisValid && decide (i = 3) || s.ctl.abortPending && decide (i = 4) ||
      s.lockedWrite && decide (i = 5) || decide (8 ≤ i) && s.ctl.curCmd.getLsbD (i - 8)) := by
  rw [State.statusWord, ← BitVec.shiftLeft_zero (bit s.ctl.busy)]
  simp (disch := decide) only [BitVec.getLsbD_or, getLsbD_flag, getLsbD_field]

/-- Settles O10: each flag is its bit, and the reserved bits lie between the flags and CUR_CMD and above it. -/
theorem statusWordLayout : Obligations.StatusWordLayout := by
  intro s
  simp only [readReg, getLsbD_statusWord]
  refine ⟨by simp, by simp [State.errFlag], by simp, by simp, by simp, by simp, ?_, ?_, ?_⟩
  all_goals
    refine BitVec.eq_of_getLsbD_eq fun i hi => ?_
    have hcmd := BitVec.getLsbD_of_ge s.ctl.curCmd (16 + i - 8)
    rw [BitVec.getLsbD_extractLsb', getLsbD_statusWord]
    grind

/-! ### The events and the interrupt -/

/-- Settles O49: the events are the one field a write of IRQ_STATUS reaches, and it is not locked. -/
theorem eventBitsAreWriteOneToClear : Obligations.EventBitsAreWriteOneToClear := by
  intro v s
  refine ⟨{ s with irqStatus := clearEvents s.irqStatus v }, rfl, ?_, ?_, ?_, ?_, rfl, ⟨rfl, rfl, rfl, rfl⟩,
    ⟨rfl, rfl, rfl, rfl, rfl, rfl, rfl⟩, ⟨fun _ _ => rfl, fun _ _ => rfl, fun _ _ => rfl⟩, rfl, fun _ => rfl,
    ⟨rfl, rfl, rfl, rfl, rfl⟩⟩
  all_goals
    intro hbit
    simp only [clearEvents, hbit, Bool.not_true, Bool.not_false, Bool.and_true, Bool.and_false]

/-- Two words of event bits have a 1 in the same place exactly when some event is in both (R45). -/
theorem irqWord_and_irqWord (a b : IrqBits) :
    ((irqWord a &&& irqWord b).extractLsb' 0 2 != 0#2) = (a.done && b.done || a.err && b.err) := by
  obtain ⟨ad, ae⟩ := a
  obtain ⟨bd, be⟩ := b
  revert ad ae bd be
  decide

/-- Settles O50: the two registers read as the two words of event bits. -/
theorem interruptFollowsEnabledEvents : Obligations.InterruptFollowsEnabledEvents :=
  fun s => (irqWord_and_irqWord s.irqStatus s.irqEnable).symm

/-! ### BLK_GRID -/

/-- Both counts fit their fields (R35), so that neither field is truncated. -/
theorem blkGridWord_fields {s : State} (hlow : 1 ≤ s.fInt) (hhigh : s.fInt ≤ Config.nMax) :
    (s.blkGridWord.extractLsb' 0 16).toNat = s.br ∧ (s.blkGridWord.extractLsb' 16 16).toNat = s.bc := by
  obtain ⟨hbr, hbc, -⟩ := grid_lt s
  have hword : s.blkGridWord.toNat = s.bc * 2 ^ 16 + s.br := by
    rw [State.blkGridWord, if_pos ⟨hlow, hhigh⟩]
    exact Nat.mod_eq_of_lt (by omega)
  constructor <;> rw [BitVec.extractLsb'_toNat, hword, Nat.shiftRight_eq_div_pow] <;> omega

/-- Settles O52: the fields are the counts, and 0 when the block size is outside its range. -/
theorem blockGridIsComputedAtTheRead : Obligations.BlockGridIsComputedAtTheRead := by
  refine fun s => ⟨blkGridWord_fields, fun hout => ?_, rfl, fun _ => rfl⟩
  exact if_neg (by omega)

/-! ### Writes of the buffer window -/

/-- A write of BUF_DATA_LO reaches no register but BUF_INDEX and WHOLD (R114). -/
theorem writeBufLo_frame (v : Word) (s : State) :
    (writeBufLo v s).cfg = s.cfg ∧ (writeBufLo v s).basisValid = s.basisValid ∧
      (writeBufLo v s).irqStatus = s.irqStatus := by
  unfold writeBufLo
  cases s.bufIndex.sel
  case p =>
    dsimp only
    rw [autoinc_eq]
    split <;> exact ⟨rfl, rfl, rfl⟩
  all_goals exact ⟨rfl, rfl, rfl⟩

/-- A write of BUF_DATA_HI reaches no register but BUF_INDEX (R114). -/
theorem writeBufHi_frame (v : Word) (s : State) :
    (writeBufHi v s).cfg = s.cfg ∧ (writeBufHi v s).basisValid = s.basisValid ∧
      (writeBufHi v s).irqStatus = s.irqStatus := by
  unfold writeBufHi
  cases s.bufIndex.sel
  case w =>
    dsimp only
    rw [autoinc_eq]
    split <;> exact ⟨rfl, rfl, rfl⟩
  all_goals exact ⟨rfl, rfl, rfl⟩

/-! ### Writes of memory -/

/-- A host write of memory that is answered replaces the byte and nothing else (R57). -/
theorem hostMemWrite_eq {s t : State} {a : Word} {v : Byte} (h : hostMemWrite a v s = .next t) :
    t = { s with mem := s.mem.write a.toNat v, resp := some .written } := by
  unfold hostMemWrite at h
  split at h
  · cases h
  · exact (Host.Outcome.next.inj h).symm

end Sys2Proof.HostRegisters
end

section
/-! PROOFS. What a step runs, and what it can do to the events. -/

namespace Sys2Proof.CommandSteps

open Sys2Proof Sys2Proof.Machine Sys2Proof.HostRegisters

variable {s t : State}

/-! ### The decoded command is run -/

theorem decode_encode (i : Instr) : decode (encode i) = .command i := by
  simp [decode, opcodeField_encode, reservedField_encode]

/-- The 32 low bits of a command's word are the word. -/
theorem ofNat_encode (i : Instr) : BitVec.ofNat 32 ((encode i).toNat % 2 ^ 32) = encode i := by
  rw [Nat.mod_eq_of_lt (encode i).isLt, BitVec.ofNat_toNat, BitVec.setWidth_eq]

/-- A CMD write is one input whose effect is the issue of its word (R107). -/
theorem takeInput_hostWr_cmd (w : Word) (s : State) :
    takeInput (hostWr .cmd w) s = issue w { s with resp := some .written } := by
  have hreg : regAt (offsetOf .cmd) = .cmd := by decide
  simp only [takeInput, takeInputWith, hostWr, hostAccess, hreg, writeReg, if_true]
  exact if_pos (by decide)

theorem issue_instant {w : Word} {i : Instr} (hd : decode w = .command i) (hi : isInstant i = true) :
    issue w s = exec i s := by
  simp [issue, hd, hi]

theorem engineTurn_busy {i : Instr} (hbusy : s.ctl.busy = true) (hcmd : s.ctl.curCmd = opcodeOf i)
    (hi : isInstant i = false) : engineTurn s = exec i s := by
  simp [engineTurn, hbusy, hcmd, hi]

theorem step_cons {e : Input} {rest : List Input} (h : s.inputs = e :: rest) :
    step s = takeInput e { s with inputs := rest } := by
  rw [step_eq, h]

theorem step_nil (h : s.inputs = []) : step s = engineTurn s := by
  rw [step_eq, h]

theorem withFetchWord_instant {i : Instr} (hi : isInstant i = true) :
    s.withFetchWord 32 (encode i).toNat = { s with inputs := hostWr .cmd (encode i) :: s.inputs } := by
  simp only [State.withFetchWord, loadCommand, ofNat_encode, decode_encode, hi, if_true]
  rfl

theorem withFetchWord_accepted {i : Instr} (hi : isInstant i = false) :
    s.withFetchWord 32 (encode i).toNat = { accept i s with inputs := .engine :: s.inputs } := by
  simp only [State.withFetchWord, loadCommand, ofNat_encode, decode_encode, hi, Bool.false_eq_true, if_false]

/-- Settles O4: the oldest input is a CMD write or the engine's turn, and each is the meaning of its command. -/
theorem stepRunsTheDecodedCommand : Obligations.StepRunsTheDecodedCommand := by
  refine ⟨fun s w i rest hin hd hi => ?_, fun s i rest hin hbusy hcmd hi => ?_, fun s i hin hbusy hcmd hi => ?_,
    fun s i hi => ?_, fun s i hi => ?_⟩
  · rw [step_cons hin, takeInput_hostWr_cmd, issue_instant hd hi]
  · rw [step_cons hin]
    exact engineTurn_busy hbusy hcmd hi
  · rw [step_nil hin, engineTurn_busy hbusy hcmd hi]
  · rw [withFetchWord_instant hi, step_cons rfl, takeInput_hostWr_cmd, issue_instant (decode_encode i) hi]
  · rw [withFetchWord_accepted hi, step_cons rfl]
    exact engineTurn_busy (s := accept i s) rfl rfl hi

/-! ### Who sets DONE -/

/-- The one register write that reaches the events is that of IRQ_STATUS, which clears them (R39). -/
theorem done_of_storeReg {r : Reg} {v : Word} (h : (storeReg r v s).irqStatus.done = true) :
    s.irqStatus.done = true := by
  cases r
  case irqStatus =>
    have h' : (s.irqStatus.done && !v.getLsbD 0) = true := h
    exact (Bool.and_eq_true_iff.mp h').1
  case bufDataLo =>
    obtain ⟨-, -, hirq⟩ := writeBufLo_frame v s
    exact hirq ▸ h
  case bufDataHi =>
    obtain ⟨-, -, hirq⟩ := writeBufHi_frame v s
    exact hirq ▸ h
  all_goals exact h

/-- No instant command sets a completion event; SOFT_RESET clears it (R103 to R106). -/
theorem done_of_instant {i : Instr} (hi : isInstant i = true) (he : exec i s = .next t) (h : t.irqStatus.done = true) :
    s.irqStatus.done = true := by
  cases i
  case nop | clearErr =>
    obtain rfl := Host.Outcome.next.inj he
    exact h
  case abort =>
    obtain rfl := Host.Outcome.next.inj he
    split at h <;> exact h
  case softReset =>
    obtain rfl := Host.Outcome.next.inj he
    exact absurd h (by simp [resetEngine])
  all_goals exact absurd hi (by decide)

theorem done_of_issue {w : Word} (hw : issue w s = .next t) (h : t.irqStatus.done = true) :
    s.irqStatus.done = true := by
  obtain ⟨why, -, rfl⟩ | ⟨i, -, hi, he⟩ | ⟨i, -, -, -, rfl⟩ | ⟨i, -, -, -, rfl⟩ := issue_cases hw
  · simpa [signalError] using h
  · exact done_of_instant hi he h
  · simpa [signalError] using h
  · exact h

theorem done_of_hostAccess {a : HostAccess} (ha : hostAccess a s = .next t) (h : t.irqStatus.done = true) :
    s.irqStatus.done = true := by
  obtain ⟨-, rfl⟩ | ⟨-, rfl⟩ | ⟨-, hw⟩ := hostAccess_cases ha
  · exact h
  · rw [readReg_state] at h
    exact h
  · obtain ⟨-, hissue⟩ | ⟨-, -, -, rfl⟩ | ⟨-, -, rfl⟩ := writeReg_cases hw
    · exact done_of_issue (s := { s with resp := some .written }) hissue h
    · exact h
    · exact done_of_storeReg (s := { s with resp := some .written }) h

/-- The host's accesses to memory and the reset input set no event either. -/
theorem done_of_takeInput {e : Input} (hne : e ≠ .engine) (ht : takeInput e s = .next t)
    (h : t.irqStatus.done = true) : s.irqStatus.done = true := by
  cases e with
  | engine => exact absurd rfl hne
  | access a => exact done_of_hostAccess ht h
  | rst =>
    obtain rfl := Host.Outcome.next.inj ht
    exact absurd h (by simp [resetEngine])
  | memWrite a v =>
    obtain rfl := hostMemWrite_eq ht
    exact h
  | memRead a =>
    obtain ⟨-, rfl⟩ | ⟨-, v, rfl, -⟩ := hostMemRead_cases ht <;> exact h

/-- A step that turns DONE on is the engine's (R39). -/
theorem engineTurn_of_done_set (ht : step s = .next t) (h0 : s.irqStatus.done = false) (h1 : t.irqStatus.done = true) :
    ∃ rest, engineTurn { s with inputs := rest } = .next t := by
  cases hin : s.inputs with
  | nil =>
    refine ⟨[], ?_⟩
    rw [step_nil hin] at ht
    exact hin ▸ ht
  | cons e rest =>
    rw [step_cons hin] at ht
    obtain rfl : e = .engine := by
      by_contra hne
      exact absurd (done_of_takeInput hne ht h1) (by simp [h0])
    exact ⟨rest, ht⟩

/-- A work step that turns DONE on ran to the end of its command: every other end sets no DONE (R120, R122). -/
theorem completed_of_done_set (ht : engineTurn s = .next t) (h0 : s.irqStatus.done = false)
    (h1 : t.irqStatus.done = true) :
    s.ctl.busy = true ∧ s.ctl.abortPending = false ∧ ∃ u, SameOutside s u ∧ t = complete u := by
  obtain ⟨-, rfl⟩ | ⟨hbusy, i, -, hi, he⟩ := engineTurn_cases ht
  · simp [h0] at h1
  rw [exec_eq_workStep hi] at he
  have hframe := bodyOf_framed i s
  obtain ⟨-, rfl⟩ | ⟨-, c, -, rfl⟩ | ⟨ha, -, ⟨u, hb, rfl⟩ | hb | ⟨e, u, hb, rfl⟩⟩ := workStep_cases he
  · simp [h0] at h1
  · simp [h0] at h1
  · rw [hb] at hframe
    obtain ⟨ho, -⟩ := hframe
    exact ⟨hbusy, ha, u, ho, rfl⟩
  · rw [hb] at hframe
    obtain ⟨ho, -⟩ := hframe
    simp [ho.irqStatus, h0] at h1
  · rw [hb] at hframe
    obtain ⟨ho, -⟩ := hframe
    simp [ho.irqStatus, h0] at h1

/-- Settles O13: DONE is set by `complete` alone, which records no error and leaves the engine idle. -/
theorem doneIsSetOnlyByCompletion : Obligations.DoneIsSetOnlyByCompletion := by
  intro s t ht h0 h1
  obtain ⟨rest, hturn⟩ := engineTurn_of_done_set ht h0 h1
  obtain ⟨hbusy, habort, u, hframe, rfl⟩ := completed_of_done_set hturn h0 h1
  refine ⟨hbusy, habort, rfl, hframe.errCode, hframe.errMulti, ?_⟩
  rw [complete_irqStatus, hframe.irqStatus]

end Sys2Proof.CommandSteps
end

section
/-! PROOFS. The invariant of the machine is kept by every step: its part that names no control state first, then the work step
of a command, then what the host and the reset input do. -/

namespace Sys2Proof.InvariantKept

open Sys2Proof Sys2Proof.Machine Sys2Proof.HostRegisters

variable {s t u : State}

/-! ### What the invariant depends on -/

/-- The two states agree in every field the invariant speaks of. -/
structure SameForInv (s t : State) : Prop where
  cfg : t.cfg = s.cfg
  cursor : t.cursor = s.cursor
  blocksDone : t.blocksDone = s.blocksDone
  errCode : t.errCode = s.errCode
  errAddr : t.errAddr = s.errAddr
  errMulti : t.errMulti = s.errMulti
  basisValid : t.basisValid = s.basisValid
  ctl : t.ctl = s.ctl
  d : t.d = s.d
  mem : t.mem = s.mem
  memBefore : t.memBefore = s.memBefore

/-- BASIS_VALID = 1 means that D holds the basis of the current block size (R72): the clause `Inv.basis_built`. -/
def BasisBuilt (s : State) : Prop :=
  s.basisValid = true → 1 ≤ s.fInt ∧ s.fInt ≤ Config.nMax ∧ ∀ l j, l < s.f → j < s.f → s.d.elem l j = basis s.f l j

/-- The error record is coherent (R27, R29): the clauses `Inv.no_error` and `Inv.error_address`. -/
structure ErrorsCoherent (s : State) : Prop where
  no_error : s.errCode = none → s.errAddr = 0#32 ∧ s.errMulti = false
  error_address : ∀ r, s.errCode = some r → isBusError r.cause = false → s.errAddr = 0#32

/-- The clauses of the invariant that name no control state: all there is to show of an idle engine. -/
structure InvData (s : State) : Prop where
  memory : s.mem.wf = true
  before : s.memBefore.wf = true
  basis : BasisBuilt s
  errors : ErrorsCoherent s

/-- The clause `Inv.run_blocks`: RUN's block phase. -/
def RunBlocks (s : State) : Prop :=
  s.ctl.busy = true ∧ s.ctl.curCmd = opcodeOf .run ∧ validateAll s = none ∧ s.basisValid = true ∧
    s.cursor.row.toNat < s.br ∧ s.cursor.col.toNat < s.bc ∧
    s.blocksDone.toNat = s.cursor.row.toNat * s.bc + s.cursor.col.toNat

theorem data_of_inv (h : Inv s) : InvData s :=
  ⟨h.memory_canonical, h.before_canonical, h.basis_built, h.no_error, h.error_address⟩

theorem InvData.toInv (h : InvData s) (hidle : s.ctl.busy = false → s.ctl = Ctl.idle)
    (hbusy : s.ctl.busy = true → ∃ i, instrOfOpcode s.ctl.curCmd = some i ∧ isInstant i = false)
    (hrun : s.ctl.phase = .blocks → RunBlocks s) : Inv s :=
  ⟨h.memory, h.before, hidle, hbusy, h.basis, hrun, h.errors.no_error, h.errors.error_address⟩

theorem InvData.inv_of_idle (h : InvData s) (hidle : s.ctl = Ctl.idle) : Inv s :=
  h.toInv (fun _ => hidle) (by simp [hidle, Ctl.idle]) (by simp [hidle, Ctl.idle])

/-- The clause about D depends on the configuration, BASIS_VALID and D. -/
theorem BasisBuilt.congr (h : BasisBuilt s) (hcfg : t.cfg = s.cfg) (hvalid : t.basisValid = s.basisValid)
    (hd : t.d = s.d) : BasisBuilt t := by
  simpa only [BasisBuilt, hvalid, hd, fInt_congr hcfg, f_congr hcfg] using h

theorem ErrorsCoherent.congr (h : ErrorsCoherent s) (hcode : t.errCode = s.errCode) (haddr : t.errAddr = s.errAddr)
    (hmulti : t.errMulti = s.errMulti) : ErrorsCoherent t :=
  ⟨by simpa only [hcode, haddr, hmulti] using h.no_error, by simpa only [hcode, haddr] using h.error_address⟩

theorem inv_congr (h : Inv s) (e : SameForInv s t) : Inv t := by
  have hdata : InvData t :=
    ⟨by simpa only [e.mem] using h.memory_canonical, by simpa only [e.memBefore] using h.before_canonical,
      (data_of_inv h).basis.congr e.cfg e.basisValid e.d, (data_of_inv h).errors.congr e.errCode e.errAddr e.errMulti⟩
  refine hdata.toInv (by simpa only [e.ctl] using h.idle_control) (by simpa only [e.ctl] using h.busy_command) ?_
  simpa only [RunBlocks, e.ctl, e.basisValid, e.cursor, e.blocksDone, validateAll_congr e.cfg, br_congr e.cfg,
    bc_congr e.cfg] using h.run_blocks

/-! ### Recording an error, ending a command, reset -/

/-- The first error brings its address, which is 0 unless it is a bus error; a later one leaves code and address (R120). -/
theorem ErrorsCoherent.record (h : ErrorsCoherent s) {c : Cause} {o : Byte} {a : Nat}
    (ha : isBusError c = false → a = 0) : ErrorsCoherent (record c o a s) := by
  cases hcode : s.errCode with
  | none =>
    obtain ⟨h1, h2, -⟩ := record_first s c o a hcode
    refine ⟨by simp [h1], fun r hr hbus => ?_⟩
    obtain rfl : (⟨c, o⟩ : ErrRecord) = r := by simpa [h1] using hr
    rw [h2, ha hbus]
  | some r =>
    obtain ⟨h1, h2, -⟩ := record_later s c o a r hcode
    exact ⟨by simp [h1, hcode], by simpa only [h1, h2] using h.error_address⟩

theorem InvData.errorEnd (h : InvData s) (e : Raised) : InvData (errorEnd e s) := by
  have herr : ErrorsCoherent (record e.cause s.ctl.curCmd (if isBusError e.cause then e.addr else 0) s) :=
    h.errors.record fun hbus => by simp [hbus]
  exact ⟨by simpa using h.memory, by simpa using h.before, h.basis.congr (by simp) (by simp) (by simp),
    herr.congr (by simp) (by simp) (by simp)⟩

theorem InvData.complete (h : InvData s) : InvData (complete s) :=
  ⟨h.memory, h.before, h.basis, h.errors.congr rfl rfl rfl⟩

/-- After a reset BASIS_VALID is 0 and no error is recorded, so that memory is all the invariant asks about (R140). -/
theorem inv_resetEngine (h : Inv s) : Inv (resetEngine s) :=
  have hdata : InvData (resetEngine s) :=
    ⟨h.memory_canonical, h.before_canonical, by simp [BasisBuilt, resetEngine], by simp [resetEngine],
      by simp [resetEngine]⟩
  hdata.inv_of_idle (resetEngine_ctl s)

/-! ### The body of a command -/

/-- Every state in which a body leaves the machine has a property. -/
def EndsIn (P : State → Prop) : Work → Prop
  | .done u => P u
  | .more u => P u
  | .raised _ u => P u
  | .stopped _ => True

theorem EndsIn.andThen {P : State → Prop} {first : Work} {rest : State → Work} (h : EndsIn P first)
    (hrest : ∀ u, P u → EndsIn P (rest u)) : EndsIn P (first.andThen rest) := by
  cases first with
  | done u => exact hrest u h
  | more u => exact h
  | raised e u => exact h
  | stopped f => trivial

theorem endsIn_withBlock {P : State → Prop} {body : State → Work} (h : EndsIn P (body s)) :
    EndsIn P (withBlock body s) := by
  unfold withBlock
  split
  · trivial
  · exact h

theorem endsIn_withBlock_done {P : State → Prop} {g : State → State} (h : P (g s)) :
    EndsIn P (withBlock (fun t => .done (g t)) s) :=
  endsIn_withBlock (body := fun t => .done (g t)) h

/-- What no body but those that build the basis writes: the configuration, BASIS_VALID, D, and the note of memory. -/
structure KeepsBasis (s u : State) : Prop where
  cfg : u.cfg = s.cfg
  basisValid : u.basisValid = s.basisValid
  d : u.d = s.d
  memBefore : u.memBefore = s.memBefore

theorem KeepsBasis.trans (h : KeepsBasis s t) (h' : KeepsBasis t u) : KeepsBasis s u :=
  ⟨h'.cfg.trans h.cfg, h'.basisValid.trans h.basisValid, h'.d.trans h.d, h'.memBefore.trans h.memBefore⟩

theorem loadBlockOn_keepsBasis (s : State) : EndsIn (KeepsBasis s) (loadBlockOn s) := by
  unfold loadBlockOn
  dsimp only
  split
  · exact ⟨rfl, rfl, rfl, rfl⟩
  · exact ⟨rfl, rfl, rfl, rfl⟩
  · trivial

theorem storeBlockOn_keepsBasis (s : State) : EndsIn (KeepsBasis s) (storeBlockOn s) := by
  unfold storeBlockOn
  dsimp only
  split
  · exact ⟨rfl, rfl, rfl, rfl⟩
  · exact ⟨rfl, rfl, rfl, rfl⟩
  · trivial

theorem runCountOn_keepsBasis (s : State) : EndsIn (KeepsBasis s) (runCountOn s) := by
  unfold runCountOn
  dsimp only
  split <;> exact ⟨rfl, rfl, rfl, rfl⟩

theorem pipelineOn_keepsBasis (s : State) : KeepsBasis s (pipelineOn s) := by constructor <;> simp

theorem EndsIn.mono {P Q : State → Prop} {w : Work} (h : EndsIn P w) (hPQ : ∀ u, P u → Q u) : EndsIn Q w := by
  cases w with
  | done u => exact hPQ u h
  | more u => exact hPQ u h
  | raised e u => exact hPQ u h
  | stopped f => trivial

/-- A block step of RUN is a load, the arithmetic, a store and the count (R97); none of them touches the basis. -/
theorem runBlockOn_keepsBasis (s : State) : EndsIn (KeepsBasis s) (runBlockOn s) :=
  (loadBlockOn_keepsBasis s).andThen fun u hu =>
    EndsIn.andThen ((storeBlockOn_keepsBasis (pipelineOn u)).mono fun _ hv => (hu.trans (pipelineOn_keepsBasis u)).trans hv)
      fun v hv => (runCountOn_keepsBasis v).mono fun _ hw => hv.trans hw

/-- BUILD_BASIS and step 0 of RUN write the basis of the current block size, the one BASIS_VALID then speaks of (R73, R96). -/
theorem basisBuilt_of_setBlock (hlow : 1 ≤ s.fInt) (hhigh : s.fInt ≤ Config.nMax) (hcfg : u.cfg = s.cfg)
    (hd : u.d = s.d.setBlock s.f (basis s.f)) : BasisBuilt u := by
  intro _
  rw [fInt_congr hcfg, f_congr hcfg, hd]
  refine ⟨hlow, hhigh, fun l j hl hj => ?_⟩
  rw [Mat.elem_setBlock (f_le_nMax hhigh), if_pos ⟨hl, hj⟩]

/-- Whatever a command does after its checks, D is still the basis that BASIS_VALID claims, and the note of memory stands. -/
theorem bodyOf_basisBuilt {i : Instr} (hc : allOf (checksOf i s.ctl.phase) s = none) (h : BasisBuilt s) :
    EndsIn (fun u => BasisBuilt u ∧ u.memBefore = s.memBefore) (bodyOf i s.ctl.phase s) := by
  have kept : ∀ u, KeepsBasis s u → BasisBuilt u ∧ u.memBefore = s.memBefore :=
    fun u hu => ⟨h.congr hu.cfg hu.basisValid hu.d, hu.memBefore⟩
  cases i
  case buildBasis =>
    obtain ⟨hlow, hhigh⟩ := checkFSize_none.mp ((allOf_one checkFSize).symm.trans hc)
    exact ⟨basisBuilt_of_setBlock hlow hhigh (by simp) (by simp), by simp⟩
  case run =>
    cases hp : s.ctl.phase with
    | validate =>
      rw [hp] at hc
      obtain ⟨hfull, -⟩ := validateAll_none.mp hc
      obtain ⟨hlow, -, -, hhigh⟩ := checkFFull_none.mp hfull
      exact ⟨basisBuilt_of_setBlock hlow hhigh (by simp) (by simp), by simp⟩
    | blocks => exact endsIn_withBlock ((runBlockOn_keepsBasis s).mono kept)
  case loadBlock => exact (loadBlockOn_keepsBasis s).mono kept
  case storeBlock => exact (storeBlockOn_keepsBasis s).mono kept
  case mask => exact kept _ (by constructor <;> simp)
  case recon => exact kept _ (by constructor <;> simp)
  case fdctCols | fdctRows | fdct | idctCols | idctRows | idct =>
    exact endsIn_withBlock_done (kept _ (by constructor <;> simp))
  case validate | cursorNext | nop | clearErr | abort | softReset => exact kept _ ⟨rfl, rfl, rfl, rfl⟩

/-- A body leaves memory canonical and the error record as it was: the work step around it records the errors (R10). -/
theorem bodyOf_data {i : Instr} (hc : allOf (checksOf i s.ctl.phase) s = none) (h : InvData s) :
    EndsIn InvData (bodyOf i s.ctl.phase s) := by
  have hframe := bodyOf_framed i s
  have hbasis := bodyOf_basisBuilt hc h.basis
  have combine : ∀ u, SameOutside s u → (s.mem.wf = true → u.mem.wf = true) →
      BasisBuilt u ∧ u.memBefore = s.memBefore → InvData u :=
    fun u ho hm ⟨hb, hn⟩ => ⟨hm h.memory, hn ▸ h.before, hb, h.errors.congr ho.errCode ho.errAddr ho.errMulti⟩
  generalize bodyOf i s.ctl.phase s = w at hframe hbasis ⊢
  cases w with
  | done u =>
    obtain ⟨ho, -, hm⟩ := hframe
    exact combine u ho hm hbasis
  | more u =>
    obtain ⟨ho, -, hm⟩ := hframe
    exact combine u ho hm hbasis
  | raised e u =>
    obtain ⟨ho, -, hm, -⟩ := hframe
    exact combine u ho hm hbasis
  | stopped f => trivial

/-! ### The block phase of RUN -/

/-- Step 0 of RUN starts the count at the first block (R96). -/
theorem runBlocks_runStartOn (hbusy : s.ctl.busy = true) (hcmd : s.ctl.curCmd = opcodeOf .run)
    (hv : validateAll s = none) : RunBlocks (runStartOn s) := by
  have hcfg : (runStartOn s).cfg = s.cfg := runStartOn_cfg s
  obtain ⟨hfull, -⟩ := validateAll_none.mp hv
  obtain ⟨-, -, -, -, hbr, hbc⟩ := checkFFull_block hfull
  rw [RunBlocks, validateAll_congr hcfg, br_congr hcfg, bc_congr hcfg]
  simp [hbusy, hcmd, hv, hbr, hbc]

/-- A block step that goes on has counted a block that is not the last, so CURSOR has moved to the next index (R88, R97). -/
theorem runBlocks_runBlockOn (h : RunBlocks s) (hmore : runBlockOn s = .more u)
    (hctl : u.ctl = s.ctl) : RunBlocks u := by
  obtain ⟨hbusy, hcmd, hv, hvalid, hrow, hcol, hcount⟩ := h
  obtain ⟨ho, -, hvalid', hdone, hcursor, hiff⟩ := runBlockOn_counts (.inl hmore)
  obtain ⟨hbr, hbc, hnb⟩ := grid_lt s
  have hidx : s.cursor.row.toNat * s.bc + s.cursor.col.toNat < s.nb := index_lt hrow hcol
  have hsucc : (s.blocksDone + 1#32).toNat = s.cursor.row.toNat * s.bc + s.cursor.col.toNat + 1 := by
    rw [BitVec.toNat_add, hcount, BitVec.toNat_ofNat]; omega
  have hne : s.cursor.row.toNat * s.bc + s.cursor.col.toNat + 1 ≠ s.br * s.bc := hsucc ▸ hiff.mp hmore
  obtain ⟨hrow', hcol', hnext⟩ := nextBlock_index hrow hcol hne
  have hrowNat : u.cursor.row.toNat = (nextBlock s.br s.bc s.cursor.row.toNat s.cursor.col.toNat).1 := by
    rw [hcursor]; exact Nat.mod_eq_of_lt (by omega)
  have hcolNat : u.cursor.col.toNat = (nextBlock s.br s.bc s.cursor.row.toNat s.cursor.col.toNat).2 := by
    rw [hcursor]; exact Nat.mod_eq_of_lt (by omega)
  rw [RunBlocks, validateAll_congr ho.cfg, br_congr ho.cfg, bc_congr ho.cfg, hctl, hrowNat, hcolNat, hdone, hsucc]
  exact ⟨hbusy, hcmd, hv, hvalid'.trans hvalid, hrow', hcol', hnext.symm⟩

/-- A work step after which RUN goes on leaves it in its block phase (R96, R97). -/
theorem runBlocks_of_more (h : Inv s) (hbusy : s.ctl.busy = true) (hcmd : s.ctl.curCmd = opcodeOf .run)
    (hc : allOf (checksOf .run s.ctl.phase) s = none) (hmore : bodyOf .run s.ctl.phase s = .more u)
    (hctl : u.ctl = { s.ctl with phase := .blocks }) : RunBlocks u := by
  cases hp : s.ctl.phase with
  | validate =>
    rw [hp] at hc hmore
    obtain rfl : runStartOn s = u := Work.more.inj hmore
    exact runBlocks_runStartOn hbusy hcmd hc
  | blocks =>
    rw [hp] at hmore
    have hrun : RunBlocks s := h.run_blocks hp
    have ⟨_, _, hv, _⟩ := hrun
    obtain ⟨hfull, -⟩ := validateAll_none.mp hv
    obtain ⟨-, -, -, hfits, -⟩ := checkFFull_block hfull
    exact runBlocks_runBlockOn hrun ((withBlock_fits hfits).symm.trans hmore) (by rw [hctl, ← hp])

/-! ### The engine's turn -/

/-- One work step of the command in flight: it ends with an error, completes, or goes on as RUN does (R44). -/
theorem inv_workStep {i : Instr} (h : Inv s) (hbusy : s.ctl.busy = true) (hcmd : instrOfOpcode s.ctl.curCmd = some i)
    (hi : isInstant i = false) (ht : exec i s = .next t) : Inv t := by
  have hdata := data_of_inv h
  rw [exec_eq_workStep hi] at ht
  obtain ⟨-, rfl⟩ | ⟨-, c, -, rfl⟩ | ⟨-, hc, ⟨u, hb, rfl⟩ | hb | ⟨e, u, hb, rfl⟩⟩ := workStep_cases ht
  · have hcleared : InvData { s with ctl := { s.ctl with abortPending := false } } :=
      ⟨hdata.memory, hdata.before, hdata.basis, hdata.errors.no_error, hdata.errors.error_address⟩
    exact (hcleared.errorEnd _).inv_of_idle rfl
  · exact (hdata.errorEnd _).inv_of_idle rfl
  · have hu := bodyOf_data hc hdata
    rw [hb] at hu
    exact (InvData.complete hu).inv_of_idle rfl
  · obtain rfl := run_of_more hb
    have hu := bodyOf_data hc hdata
    have hframe := bodyOf_framed .run s
    rw [hb] at hu hframe
    obtain ⟨-, hctl, -⟩ := hframe
    refine InvData.toInv hu (by simp [hctl, hbusy]) (fun _ => ⟨.run, by simpa [hctl] using hcmd, hi⟩) fun _ => ?_
    exact runBlocks_of_more h hbusy (instrOfOpcode_eq_some.mp hcmd) hc hb hctl
  · have hu := bodyOf_data hc hdata
    rw [hb] at hu
    exact (InvData.errorEnd hu _).inv_of_idle rfl

theorem inv_engineTurn (h : Inv s) (ht : engineTurn s = .next t) : Inv t := by
  obtain ⟨-, rfl⟩ | ⟨hbusy, i, hcmd, hi, he⟩ := engineTurn_cases ht
  · exact h
  · exact inv_workStep h hbusy hcmd hi he

/-! ### Host accesses -/

/-- An error of the command-issue path carries no address and leaves the engine control state (R121). -/
theorem inv_signalError (h : Inv s) (c : Cause) (o : Byte) : Inv (signalError c o s) := by
  have hdata : InvData (signalError c o s) :=
    ⟨by simpa [signalError] using h.memory_canonical, by simpa [signalError] using h.before_canonical,
      (data_of_inv h).basis.congr (by simp [signalError]) (by simp [signalError]) (by simp [signalError]),
      (data_of_inv h).errors.record fun _ => rfl⟩
  have hcfg : (signalError c o s).cfg = s.cfg := by simp [signalError]
  refine hdata.toInv (by simpa [signalError] using h.idle_control) (by simpa [signalError] using h.busy_command) ?_
  rw [RunBlocks, validateAll_congr hcfg, br_congr hcfg, bc_congr hcfg]
  simpa [signalError] using h.run_blocks

theorem inv_clearError (h : Inv s) : Inv (clearError s) :=
  ⟨h.memory_canonical, h.before_canonical, h.idle_control, h.busy_command, h.basis_built, h.run_blocks, by simp, by simp⟩

/-- ABORT changes the control state of a busy engine alone, and nothing but ABORT_PENDING in it (R105). -/
theorem inv_execAbort (h : Inv s) (ht : execAbort s = .next t) : Inv t := by
  obtain rfl := Host.Outcome.next.inj ht
  split
  next hbusy =>
    exact ⟨h.memory_canonical, h.before_canonical, by simp [hbusy], h.busy_command, h.basis_built, h.run_blocks, h.no_error,
      h.error_address⟩
  next => exact h

theorem inv_instant {i : Instr} (h : Inv s) (hi : isInstant i = true) (ht : exec i s = .next t) : Inv t := by
  cases i
  case nop => exact Host.Outcome.next.inj ht ▸ h
  case clearErr => exact Host.Outcome.next.inj ht ▸ inv_clearError h
  case abort => exact inv_execAbort h ht
  case softReset => exact Host.Outcome.next.inj ht ▸ inv_resetEngine h
  all_goals exact absurd hi (by decide)

/-- An accepted command starts in the phase of validation, with memory noted as it is (R108). -/
theorem inv_accept {i : Instr} (h : Inv s) (hi : isInstant i = false) : Inv (accept i s) :=
  have hdata : InvData (accept i s) := ⟨h.memory_canonical, h.memory_canonical, h.basis_built, h.no_error, h.error_address⟩
  hdata.toInv (by simp) (fun _ => ⟨i, by simp, hi⟩) (by simp)

theorem inv_issue {w : Word} (h : Inv s) (ht : issue w s = .next t) : Inv t := by
  obtain ⟨why, -, rfl⟩ | ⟨i, -, hi, he⟩ | ⟨i, -, -, -, rfl⟩ | ⟨i, -, hi, -, rfl⟩ := issue_cases ht
  · exact inv_signalError h _ _
  · exact inv_instant h hi he
  · exact inv_signalError h _ _
  · exact inv_accept h hi

/-- A register that is not locked while a command runs holds nothing the invariant speaks of (R112). -/
theorem sameForInv_storeReg_unlocked {r : Reg} (hr : isLocked r = false) (v : Word) : SameForInv s (storeReg r v s) := by
  cases r
  case id | caps | cmd | status | errCode | errAddr | blkGrid | blocksDone | irqEnable | irqStatus | reserved =>
    constructor <;> rfl
  all_goals exact absurd hr (by decide)

/-- A register write keeps BASIS_VALID and the block size, or clears BASIS_VALID with the block size (R111). -/
theorem storeReg_basisValid (r : Reg) (v : Word) (s : State) :
    (storeReg r v s).basisValid = false ∨
      ((storeReg r v s).basisValid = s.basisValid ∧ (storeReg r v s).cfg.blockSize = s.cfg.blockSize) := by
  cases r
  case blockSize => exact .inl rfl
  case bufDataLo =>
    obtain ⟨hcfg, hvalid, -⟩ := writeBufLo_frame v s
    exact .inr ⟨hvalid, congrArg Cfg.blockSize hcfg⟩
  case bufDataHi =>
    obtain ⟨hcfg, hvalid, -⟩ := writeBufHi_frame v s
    exact .inr ⟨hvalid, congrArg Cfg.blockSize hcfg⟩
  all_goals exact .inr ⟨rfl, rfl⟩

/-- No register write changes D, and one that changes the block size clears BASIS_VALID (R72, R111). -/
theorem basisBuilt_storeReg (h : BasisBuilt s) (r : Reg) (v : Word) : BasisBuilt (storeReg r v s) := by
  have hd : (storeReg r v s).d = s.d := by
    obtain ⟨-, -, -, -, -, -, hd, -⟩ := storeReg_frame r v s
    exact hd
  obtain hclear | ⟨hvalid, hsize⟩ := storeReg_basisValid r v s
  · simp [BasisBuilt, hclear]
  · simpa only [BasisBuilt, State.f, State.fInt, hvalid, hsize, hd] using h

theorem inv_storeReg {r : Reg} {v : Word} (h : Inv s) (hr : isLocked r = false ∨ s.ctl.busy = false) :
    Inv (storeReg r v s) := by
  obtain hr | hidle := hr
  · exact inv_congr h (sameForInv_storeReg_unlocked hr v)
  · obtain ⟨hctl, hcode, haddr, hmulti, -, -, -, hmem, -, -, -, -, -, hnote⟩ := storeReg_frame r v s
    have hdata : InvData (storeReg r v s) :=
      ⟨hmem ▸ h.memory_canonical, hnote ▸ h.before_canonical, basisBuilt_storeReg h.basis_built r v,
        (data_of_inv h).errors.congr hcode haddr hmulti⟩
    exact hdata.inv_of_idle (hctl.trans (h.idle_control hidle))

theorem inv_writeReg {r : Reg} {v : Word} (h : Inv s) (ht : writeReg r v s = .next t) : Inv t := by
  obtain ⟨-, hissue⟩ | ⟨-, -, -, rfl⟩ | ⟨-, hr, rfl⟩ := writeReg_cases ht
  · exact inv_issue h hissue
  · exact inv_congr h (by constructor <;> rfl)
  · exact inv_storeReg h hr

theorem inv_hostAccess {a : HostAccess} (h : Inv s) (ht : hostAccess a s = .next t) : Inv t := by
  obtain ⟨-, rfl⟩ | ⟨-, rfl⟩ | ⟨-, hw⟩ := hostAccess_cases ht
  · exact inv_congr h (by constructor <;> rfl)
  · rw [readReg_state]
    exact inv_congr h (by constructor <;> rfl)
  · exact inv_writeReg (inv_congr h (by constructor <;> rfl)) hw

/-! ### The host's accesses to memory -/

theorem inv_hostMemWrite {a : Word} {v : Byte} (h : Inv s) (ht : hostMemWrite a v s = .next t) : Inv t := by
  have hmem := wf_hostMemWrite h.memory_canonical ht
  obtain rfl := hostMemWrite_eq ht
  exact ⟨hmem, h.before_canonical, h.idle_control, h.busy_command, h.basis_built, h.run_blocks, h.no_error,
    h.error_address⟩

theorem inv_hostMemRead {a : Word} (h : Inv s) (ht : hostMemRead a s = .next t) : Inv t := by
  obtain ⟨-, rfl⟩ | ⟨-, v, rfl, -⟩ := hostMemRead_cases ht
  · exact inv_congr h (by constructor <;> rfl)
  · exact inv_congr h (by constructor <;> rfl)

/-! ### The statement -/

theorem inv_takeInput {e : Input} (h : Inv s) (ht : takeInput e s = .next t) : Inv t := by
  cases e with
  | engine => exact inv_engineTurn h ht
  | access a => exact inv_hostAccess h ht
  | rst => exact Host.Outcome.next.inj ht ▸ inv_resetEngine h
  | memWrite a v => exact inv_hostMemWrite h ht
  | memRead a => exact inv_hostMemRead h ht

/-- Settles O45: by the kinds of inputs, and for the engine's turn by what a work step can do. -/
theorem stepKeepsTheInvariant : Obligations.StepKeepsTheInvariant := by
  intro s t h ht
  rw [step_eq] at ht
  cases hin : s.inputs with
  | nil =>
    rw [hin] at ht
    exact inv_engineTurn h ht
  | cons e rest =>
    rw [hin] at ht
    exact inv_takeInput (inv_congr h (by constructor <;> rfl)) ht

end Sys2Proof.InvariantKept
end

section
/-! PROOFS. What the engine writes in memory (spec/20_memory.md R48): the store loop is followed up to the whole turn. -/

namespace Sys2Proof.MemoryWrites

open Sys2Proof Sys2Proof.Machine Sys2Proof.InvariantKept

variable {s t u : State}

/-! ### The writes of the block at CURSOR -/

/-- Every byte but the output pixels of the block at CURSOR of `s` reads in `m` as it does in `s`. -/
def SameOffBlock (s : State) (m : Memory) : Prop :=
  ∀ a, (∀ i j, i < s.f → j < s.f → a ≠ s.dstElem i j) → m.read a = s.mem.read a

theorem sameOffBlock_self (s : State) : SameOffBlock s s.mem := fun _ _ => rfl

/-- A run of DMA writes, also one that an error response cuts short, leaves every byte that no cell names. -/
theorem read_writeBytes_other {m : Memory} (h : m.wf) {cells : List (Nat × Byte)} {a : Nat}
    (ha : ∀ c ∈ cells, c.1 ≠ a) : (s.writeBytes cells m).1.read a = m.read a := by
  obtain ⟨-, hr⟩ | ⟨xs, c, ys, e, hsplit, -, -, hr⟩ := writeBytes_cases s cells m
  · rw [hr]
    exact read_writeAll_other h ha
  · rw [hr]
    exact read_writeAll_other h fun b hb => ha b (by simp [hsplit, hb])

theorem writeBytes_dstCells_sameOffBlock (h : s.mem.wf = true) : SameOffBlock s (s.writeBytes s.dstCells s.mem).1 := by
  refine fun a ha => read_writeBytes_other h fun c hc => ?_
  obtain ⟨e, he, rfl⟩ := List.mem_map.mp hc
  obtain ⟨hi, hj⟩ := mem_blockPairs.mp he
  exact (ha _ _ hi hj).symm

theorem storeBlockOn_sameOffBlock (h : s.mem.wf = true) :
    EndsIn (fun u => SameOffBlock s u.mem) (storeBlockOn s) := by
  have hmem := writeBytes_dstCells_sameOffBlock h
  unfold storeBlockOn
  dsimp only
  split
  · exact hmem
  · exact hmem
  · trivial

/-! ### A block step of RUN -/

/-- The two states hold the same memory and name the same block. -/
structure SameBlock (s u : State) : Prop where
  cfg : u.cfg = s.cfg
  cursor : u.cursor = s.cursor
  mem : u.mem = s.mem

theorem SameBlock.trans (h : SameBlock s t) (h' : SameBlock t u) : SameBlock s u :=
  ⟨h'.cfg.trans h.cfg, h'.cursor.trans h.cursor, h'.mem.trans h.mem⟩

theorem SameBlock.sameOffBlock (h : SameBlock s u) {m : Memory} (hm : SameOffBlock u m) : SameOffBlock s m := by
  simpa only [SameOffBlock, f_congr h.cfg, dstElem_congr h.cfg h.cursor, h.mem] using hm

theorem loadBlockOn_sameBlock (s : State) : EndsIn (SameBlock s) (loadBlockOn s) := by
  unfold loadBlockOn
  dsimp only
  split
  · exact ⟨rfl, rfl, rfl⟩
  · exact ⟨rfl, rfl, rfl⟩
  · trivial

theorem pipelineOn_sameBlock (s : State) : SameBlock s (pipelineOn s) := by constructor <;> simp

theorem runCountOn_mem (s : State) : EndsIn (fun u => u.mem = s.mem) (runCountOn s) := by
  unfold runCountOn
  dsimp only
  split <;> exact rfl

/-- The second piece of a work step may start from more than the whole of it promises. -/
theorem endsIn_andThen_of_imp {P Q : State → Prop} {first : Work} {rest : State → Work} (h : EndsIn P first)
    (hPQ : ∀ u, P u → Q u) (hrest : ∀ u, P u → EndsIn Q (rest u)) : EndsIn Q (first.andThen rest) := by
  cases first with
  | done u => exact hrest u h
  | more u => exact hPQ u h
  | raised e u => exact hPQ u h
  | stopped f => trivial

/-- Of the load, the arithmetic, the store and the count, only the store writes memory, while CURSOR still names the block
loaded (R97). -/
theorem runBlockOn_sameOffBlock (h : s.mem.wf = true) : EndsIn (fun u => SameOffBlock s u.mem) (runBlockOn s) := by
  refine endsIn_andThen_of_imp (loadBlockOn_sameBlock s) (fun u hu => hu.sameOffBlock (sameOffBlock_self u)) fun u hu => ?_
  have hblock : SameBlock s (pipelineOn u) := hu.trans (pipelineOn_sameBlock u)
  have hstore : EndsIn (fun v => SameOffBlock s v.mem) (storeBlockOn (pipelineOn u)) :=
    (storeBlockOn_sameOffBlock (by simpa only [hblock.mem] using h)).mono fun _ hv => hblock.sameOffBlock hv
  refine hstore.andThen fun v hv => (runCountOn_mem v).mono fun w hw => ?_
  simpa only [hw] using hv

/-! ### The body of a command -/

/-- No command but STORE_BLOCK and RUN writes memory (R48). -/
theorem bodyOf_mem {i : Instr} (hstore : i ≠ .storeBlock) (hrun : i ≠ .run) :
    EndsIn (fun u => u.mem = s.mem) (bodyOf i s.ctl.phase s) := by
  cases i
  case storeBlock => exact absurd rfl hstore
  case run => exact absurd rfl hrun
  case loadBlock => exact (loadBlockOn_sameBlock s).mono fun _ hu => hu.mem
  case buildBasis => exact buildBasisOn_mem s
  case mask => exact maskOn_mem s
  case recon => exact reconOn_mem s
  case fdctCols => exact endsIn_withBlock_done (fdctColsOn_mem s)
  case fdctRows => exact endsIn_withBlock_done (fdctRowsOn_mem s)
  case fdct => exact endsIn_withBlock_done (fdctOn_mem s)
  case idctCols => exact endsIn_withBlock_done (idctColsOn_mem s)
  case idctRows => exact endsIn_withBlock_done (idctRowsOn_mem s)
  case idct => exact endsIn_withBlock_done (idctOn_mem s)
  case validate | cursorNext | nop | clearErr | abort | softReset => exact rfl

theorem bodyOf_sameOffBlock (i : Instr) (h : s.mem.wf = true) :
    EndsIn (fun u => SameOffBlock s u.mem) (bodyOf i s.ctl.phase s) := by
  obtain rfl | hstore := eq_or_ne i .storeBlock
  · exact storeBlockOn_sameOffBlock h
  obtain rfl | hrun := eq_or_ne i .run
  · cases s.ctl.phase with
    | validate => exact fun a _ => by rw [runStartOn_mem]
    | blocks => exact endsIn_withBlock (runBlockOn_sameOffBlock h)
  · refine (bodyOf_mem hstore hrun).mono fun u hu => ?_
    simpa only [hu] using sameOffBlock_self s

/-! ### The engine's turn -/

/-- Recording an error and completing write no memory: what holds of memory before a work step, and wherever the body ends,
holds after the step. -/
theorem workStep_mem {P : Memory → Prop} {checks : State → Option Cause} {body : State → Work}
    (ht : workStep checks body s = .next t) (hs : P s.mem) (hb : EndsIn (fun u => P u.mem) (body s)) : P t.mem := by
  obtain ⟨-, rfl⟩ | ⟨-, c, -, rfl⟩ | ⟨-, -, ⟨u, he, rfl⟩ | he | ⟨e, u, he, rfl⟩⟩ := workStep_cases ht
  · simpa using hs
  · simpa using hs
  · simpa [he, EndsIn] using hb
  · simpa [he, EndsIn] using hb
  · simpa [he, EndsIn] using hb

theorem engineTurn_mem {P : Memory → Prop} (ht : engineTurn s = .next t) (hs : P s.mem)
    (hb : ∀ i, s.ctl.curCmd = opcodeOf i → EndsIn (fun u => P u.mem) (bodyOf i s.ctl.phase s)) : P t.mem := by
  obtain ⟨-, rfl⟩ | ⟨-, i, hcmd, hi, he⟩ := engineTurn_cases ht
  · exact hs
  · rw [exec_eq_workStep hi] at he
    exact workStep_mem he hs (hb i (instrOfOpcode_eq_some.mp hcmd))

/-- Settles O42: only the store loop writes memory, and its cells are the output pixels of the block at CURSOR. -/
theorem engineWritesOnlyTheOutputBlock : Obligations.EngineWritesOnlyTheOutputBlock := by
  intro s t h ht
  refine ⟨engineTurn_mem ht (sameOffBlock_self s) fun i _ => bodyOf_sameOffBlock i h.memory_canonical,
    fun hstore hrun => ?_⟩
  have hmem : t.mem = s.mem := engineTurn_mem (P := fun m => m = s.mem) ht rfl fun i hcmd =>
    bodyOf_mem (fun hi => hstore (hi ▸ hcmd)) (fun hi => hrun (hi ▸ hcmd))
  exact fun a => by rw [hmem]

end Sys2Proof.MemoryWrites
end

section
/-! PROOFS. The host accesses that have no effect on the engine (spec/20_memory.md R50, spec/10_state.md R23). -/

namespace Sys2Proof.AccessesWithoutEffect

open Sys2Proof Sys2Proof.Machine

/-- The register map ends below 0x58 (R22, R23). -/
theorem regAt_reserved {off : BitVec 8} (h : 0x58 ≤ off.toNat) : regAt off = .reserved := by
  have hmap : ∀ e ∈ regMap, e.1.toNat < 0x58 := by decide
  have hnone : regMap.find? (fun e => e.1 == off) = none := by
    refine List.find?_eq_none.mpr fun e he heq => ?_
    have hlt := hmap e he
    rw [eq_of_beq heq] at hlt
    omega
  rw [regAt, hnone]
  rfl

theorem hostAccess_malformed {a : HostAccess} (h : a.width ≠ 32 ∨ a.offset.toNat % 4 ≠ 0) (s : State) :
    hostAccess a s = .next { s with resp := some .busError } :=
  if_neg (by omega)

/-- A 32-bit access at a multiple of 4 reaches the register at its offset (R50). -/
theorem hostAccess_read {off : BitVec 8} (h : off.toNat % 4 = 0) (v : Word) (s : State) :
    hostAccess ⟨.read, 32, off, v⟩ s =
      .next { (readReg (regAt off) s).2 with resp := some (.data (readReg (regAt off) s).1) } :=
  if_pos ⟨rfl, h⟩

theorem hostAccess_write {off : BitVec 8} (h : off.toNat % 4 = 0) (v : Word) (s : State) :
    hostAccess ⟨.write, 32, off, v⟩ s = writeReg (regAt off) v { s with resp := some .written } :=
  if_pos ⟨rfl, h⟩

/-- Settles O51: a malformed access never reaches a register, and a reserved offset reaches one that holds nothing. -/
theorem malformedAndReservedAccessesChangeNothing : Obligations.MalformedAndReservedAccessesChangeNothing := by
  refine ⟨fun a s h => hostAccess_malformed h s, fun off v s hoff haligned => ⟨?_, ?_⟩⟩
  · rw [hostAccess_read haligned, regAt_reserved hoff]
    rfl
  · rw [hostAccess_write haligned, regAt_reserved hoff]
    rfl

end Sys2Proof.AccessesWithoutEffect
end

section
/-! PROOFS. Command words: which words are commands, and that writing an illegal one to CMD only records its error. -/

namespace Sys2Proof.CommandWords

open Sys2Proof Sys2Proof.Machine Sys2Proof.CommandSteps

variable {w : Word}

/-! ### Which words are commands -/

/-- A word is fixed by its two fields (R64), and a command's word has its opcode below a zero field RSVD (R70). -/
theorem eq_encode_of_fields {i : Instr} (hop : opcodeField w = opcodeOf i) (hrsvd : reservedField w = 0#24) :
    w = encode i := by
  rw [word_eq_fields w, word_eq_fields (encode i), hop, hrsvd, opcodeField_encode, reservedField_encode]

theorem decode_eq_command_iff {i : Instr} : decode w = .command i ↔ w = encode i := by
  constructor
  · intro hd
    obtain ⟨-, hill⟩ | ⟨-, -, hill⟩ | ⟨j, hop, hrsvd, hcmd⟩ := decode_cases w
    · exact absurd (hd.symm.trans hill) nofun
    · exact absurd (hd.symm.trans hill) nofun
    · obtain rfl := Decoded.command.inj (hd.symm.trans hcmd)
      exact eq_encode_of_fields hop hrsvd
  · rintro rfl
    exact decode_encode i

/-- Settles O2: the two fields of a word fix it, and the decoder reads nothing else. -/
theorem decodeAcceptsExactlyEncodedWords : Obligations.DecodeAcceptsExactlyEncodedWords :=
  fun _ _ => decode_eq_command_iff

/-- Settles O1: each word of the opcode map is the one the encoder gives for its row. -/
theorem opcodeMapWordsDecode : Obligations.OpcodeMapWordsDecode := by
  simp only [Obligations.OpcodeMapWordsDecode, decode_eq_command_iff]
  decide

/-! ### What is wrong with an illegal word -/

theorem opcodeOf_mem_assignedOpcodes (i : Instr) : opcodeOf i ∈ assignedOpcodes :=
  mem_assignedOpcodes.mpr ⟨i, instrOfOpcode_opcodeOf i⟩

theorem decode_of_unassigned (h : opcodeField w ∉ assignedOpcodes) : decode w = .illegal .unassignedOpcode := by
  obtain ⟨-, hd⟩ | ⟨hin, -, -⟩ | ⟨i, hop, -, -⟩ := decode_cases w
  · exact hd
  · exact absurd hin h
  · exact absurd (hop ▸ opcodeOf_mem_assignedOpcodes i) h

theorem decode_of_reserved (hin : opcodeField w ∈ assignedOpcodes) (hne : reservedField w ≠ 0#24) :
    decode w = .illegal .reservedNonzero := by
  obtain ⟨hout, -⟩ | ⟨-, -, hd⟩ | ⟨i, -, hrsvd, -⟩ := decode_cases w
  · exact absurd hin hout
  · exact hd
  · exact absurd hrsvd hne

theorem decode_of_legal (hin : opcodeField w ∈ assignedOpcodes) (hrsvd : reservedField w = 0#24) :
    ∃ i, decode w = .command i ∧ opcodeOf i = opcodeField w := by
  obtain ⟨hout, -⟩ | ⟨-, hne, -⟩ | ⟨i, hop, -, hd⟩ := decode_cases w
  · exact absurd hin hout
  · exact absurd hrsvd hne
  · exact ⟨i, hd, hop.symm⟩

/-! ### Recording an error of the command-issue path -/

/-- `record` keeps the first error and marks a later one (R120). -/
theorem recorded_record (c : Cause) (o : Byte) (a : Nat) (s : State) :
    Recorded c o (BitVec.ofNat 32 a) s (record c o a s) := by
  refine ⟨record_irqStatus s c o a, record_lockedWrite s c o a, record_first s c o a, fun hne => ?_⟩
  obtain ⟨r, hr⟩ := Option.ne_none_iff_exists'.mp hne
  exact record_later s c o a r hr

/-- `signal_error` records its error and changes nothing else (R121). -/
theorem signalError_only_records (c : Cause) (o : Byte) (s : State) :
    Recorded c o 0#32 s (signalError c o s) ∧ (signalError c o s).ctl = s.ctl ∧ SameRegisters s (signalError c o s) ∧
      SameBuffers s (signalError c o s) ∧ (signalError c o s).basisValid = s.basisValid ∧
      SameMemory s (signalError c o s) ∧ SameWorld s (signalError c o s) := by
  refine ⟨recorded_record c o 0 s, ?_⟩
  simp [signalError, SameRegisters, SameBuffers, SameMemory, SameWorld]

/-- A CMD write of an illegal word signals its error, busy or idle (R65, R107). -/
theorem writeReg_cmd_illegal {why : IllegalWord} (hd : decode w = .illegal why) (s : State) :
    writeReg .cmd w s = .next (signalError (illegalCause why) (opcodeField w) s) := by
  simp [writeReg, issue, hd]

/-- Settles O3: the two checks of R65 in order, each with the error it signals. -/
theorem illegalWordOnlyRecordsItsError : Obligations.IllegalWordOnlyRecordsItsError := by
  refine fun w s => ⟨fun hout => ?_, fun hin hne => ?_, decode_of_legal⟩
  · obtain ⟨hrec, hframe⟩ := signalError_only_records .illegalOpcode (opcodeField w) s
    exact ⟨_, writeReg_cmd_illegal (decode_of_unassigned hout) s, hrec, rfl, rfl, hframe⟩
  · obtain ⟨hrec, hframe⟩ := signalError_only_records .illegalReserved (opcodeField w) s
    exact ⟨_, writeReg_cmd_illegal (decode_of_reserved hin hne) s, hrec, rfl, rfl, hframe⟩

end Sys2Proof.CommandWords
end

section
/-! PROOFS. BUILD_BASIS and the transforms (spec/40_basis_forward.md): a command whose check fails changes nothing but the error
record, and a transform command computes its pass into the F × F block of W and changes nothing else. -/

namespace Sys2Proof.BasisForward

open Sys2Proof Sys2Proof.Machine Sys2Proof.CommandWords

variable {s : State}

/-! ### A check that fails -/

/-- The error end of a command, for an error without an address, records it and changes nothing else (R120, R123). -/
theorem endedWith_errorEnd {c : Cause} (hbus : isBusError c = false) (s : State) :
    EndedWith c s (errorEnd (Raised.of c) s) := by
  have hrec : Recorded c s.ctl.curCmd 0#32 s (errorEnd (Raised.of c) s) := by
    rw [errorEnd, Raised.of, hbus]
    exact recorded_record c s.ctl.curCmd 0 s
  refine ⟨hrec, ?_⟩
  simp [SameRegisters, SameBuffers, SameMemory, SameWorld]

/-- A work step whose checks fail ends its command with the error they give (R126). -/
theorem workStep_endedWith {checks : State → Option Cause} {body : State → Work} {c : Cause}
    (habort : s.ctl.abortPending = false) (hcheck : checks s = some c) (hbus : isBusError c = false) :
    ∃ t, workStep checks body s = .next t ∧ EndedWith c s t :=
  ⟨_, workStep_check habort hcheck, endedWith_errorEnd hbus s⟩

theorem checkFSize_of_notPositive (h : s.fInt ≤ 0) : checkFSize s = some .blockSizeNotPositive := if_pos h

theorem checkFSize_of_aboveMax (h : (Config.nMax : Int) < s.fInt) : checkFSize s = some .blockSizeAboveMax := by
  have hpos : ¬s.fInt ≤ 0 := by omega
  rw [checkFSize, if_neg hpos, if_pos h]

/-! ### BUILD_BASIS -/

/-- For 1 ≤ F ≤ N_MAX BUILD_BASIS completes with its body done (R73). -/
theorem exec_buildBasis (habort : s.ctl.abortPending = false) (hlow : 1 ≤ s.fInt) (hhigh : s.fInt ≤ Config.nMax) :
    exec .buildBasis s = .next (complete (buildBasisOn s)) :=
  workStep_done (body := fun t => .done (buildBasisOn t)) habort (checkFSize_none.mpr ⟨hlow, hhigh⟩) rfl

theorem exec_buildBasis_endedWith {c : Cause} (habort : s.ctl.abortPending = false) (hcheck : checkFSize s = some c)
    (hbus : isBusError c = false) : ∃ t, exec .buildBasis s = .next t ∧ EndedWith c s t :=
  workStep_endedWith (body := fun t => .done (buildBasisOn t)) habort hcheck hbus

/-- The elements of D that BUILD_BASIS leaves (R73). -/
theorem elem_buildBasisOn_d (hf : s.f ≤ Config.nMax) (l j : Nat) :
    (buildBasisOn s).d.elem l j = if l < s.f ∧ j < s.f then basis s.f l j else s.d.elem l j := by
  rw [buildBasisOn_d, Mat.elem_setBlock hf]

/-- The values R73 names: F = 1, the exact zero of F = 6, and the example F = 2. -/
theorem basis_examples :
    basis 1 0 0 = 0x3FF0000000000000#64 ∧ basis 6 2 1 = 0x0000000000000000#64 ∧
    basis 2 0 0 = 0x3FE6A09E667F3BCD#64 ∧ basis 2 0 1 = 0x3FE6A09E667F3BCD#64 ∧
    basis 2 1 0 = 0x3FE6A09E667F3BCD#64 ∧ basis 2 1 1 = 0xBFE6A09E667F3BCD#64 := by
  decide +kernel

/-- Settles O20: the check of F splits the block sizes in three, and the body writes the F × F block of D alone. -/
theorem buildBasisWritesTheBasis : Obligations.BuildBasisWritesTheBasis := by
  refine ⟨decode_eq_command_iff.mpr (by decide), fun s habort => ⟨fun hlow hhigh => ?_, fun hlow => ?_, fun hhigh => ?_⟩,
    basis_examples⟩
  · have hd := elem_buildBasisOn_d (f_le_nMax hhigh)
    refine ⟨_, exec_buildBasis habort hlow hhigh, ⟨rfl, rfl⟩, rfl, fun l j hl hj => ?_, fun l j hout => ?_, ?_⟩
    · exact (hd l j).trans (if_pos ⟨hl, hj⟩)
    · exact (hd l j).trans (if_neg hout)
    · simp [SameErrors, SameRegisters, SameMemory, SameWorld]
  · exact exec_buildBasis_endedWith habort (checkFSize_of_notPositive hlow) rfl
  · exact exec_buildBasis_endedWith habort (checkFSize_of_aboveMax hhigh) rfl

/-! ### What the transform commands have in common (R72) -/

/-- A transform command with its body: check_basis, then a body that writes W alone, within the F × F block. -/
structure IsTransform (i : Instr) (body : State → State) : Prop where
  exec_eq : ∀ s, exec i s = workStep checkBasis (withBlock fun t => .done (body t)) s
  writes_w : ∀ s, body s = { s with w := (body s).w }
  outside : ∀ s, s.f ≤ Config.nMax → ∀ i j, ¬(i < s.f ∧ j < s.f) → (body s).w.elem i j = s.w.elem i j

/-- A body that writes W alone, followed by the completion, leaves what R72 says. -/
theorem transformFrame_complete {w : Mat F64} (hout : ∀ i j, ¬(i < s.f ∧ j < s.f) → w.elem i j = s.w.elem i j) :
    TransformFrame s (complete { s with w := w }) := by
  refine ⟨⟨rfl, rfl⟩, hout, ?_⟩
  simp [SameErrors, SameRegisters, SameMemory, SameWorld]

namespace IsTransform

variable {i j k : Instr} {body body' : State → State}

theorem body_f (h : IsTransform i body) (s : State) : (body s).f = s.f := by rw [h.writes_w]; rfl

theorem body_basisValid (h : IsTransform i body) (s : State) : (body s).basisValid = s.basisValid := by rw [h.writes_w]

/-- A command whose body is those of two transform commands in turn is a transform command (R76, R83). -/
theorem comp (h : IsTransform i body) (h' : IsTransform j body')
    {both : State → State} (hboth : both = fun s => body' (body s))
    (hexec : ∀ s, exec k s = workStep checkBasis (withBlock fun t => .done (both t)) s) : IsTransform k both where
  exec_eq := hexec
  writes_w s := by
    subst hboth
    calc body' (body s)
      _ = { body s with w := (body' (body s)).w } := h'.writes_w (body s)
      _ = { s with w := (body' (body s)).w } :=
        congrArg (fun t : State => { t with w := (body' (body s)).w }) (h.writes_w s)
  outside s hf a b hout := by
    have hf' : (body s).f ≤ Config.nMax := (h.body_f s).trans_le hf
    have hout' : ¬(a < (body s).f ∧ b < (body s).f) := by rwa [h.body_f]
    rw [hboth, h'.outside (body s) hf' a b hout', h.outside s hf a b hout]

/-- With a valid basis a transform command completes with its body done. -/
theorem exec_next (h : IsTransform i body) (habort : s.ctl.abortPending = false) (hbasis : s.basisValid = true)
    (hf : s.f ≤ Config.nMax) : exec i s = .next (complete (body s)) :=
  (h.exec_eq s).trans (workStep_done habort (checkBasis_none.mpr hbasis) (withBlock_fits hf))

theorem frame (h : IsTransform i body) (hf : s.f ≤ Config.nMax) : TransformFrame s (complete (body s)) := by
  rw [h.writes_w s]
  exact transformFrame_complete (h.outside s hf)

/-- A transform command that the idle engine accepts and runs, in front of other commands. -/
theorem issueAll_cons (h : IsTransform i body) (is : List Instr) (habort : s.ctl.abortPending = false)
    (hbasis : s.basisValid = true) (hf : s.f ≤ Config.nMax) :
    issueAll (i :: is) s = issueAll is (complete (body (accept i s))) := by
  have hexec : exec i (accept i s) = .next (complete (body (accept i s))) := h.exec_next habort hbasis hf
  rw [issueAll, hexec]

/-- Two transform commands, one after the other (R76, R83): the first leaves no abort, the valid basis and F. -/
theorem issueAll_pair (h : IsTransform i body) (h' : IsTransform j body') (habort : s.ctl.abortPending = false)
    (hbasis : s.basisValid = true) (hf : s.f ≤ Config.nMax) :
    issueAll [i, j] s = .next (complete (body' (accept j (complete (body (accept i s)))))) := by
  have hvalid : (complete (body (accept i s))).basisValid = true := (h.body_basisValid _).trans hbasis
  have hfits : (complete (body (accept i s))).f ≤ Config.nMax := (h.body_f (accept i s)).trans_le hf
  rw [h.issueAll_cons _ habort hbasis hf, h'.issueAll_cons _ rfl hvalid hfits, issueAll]

end IsTransform

/-! ### The six transform commands -/

section
variable (a : Nat → Nat → F64) (w : Mat F64) {f : Nat} (hf : f ≤ Config.nMax) {i j : Nat}
include hf

theorem elem_colPass_inside (hi : i < f) (hj : j < f) :
    (colPass f a w).elem i j = dot f (fun t => a i t) (fun t => w.elem t j) :=
  (elem_colPass hf a w i j).trans (if_pos ⟨hi, hj⟩)

theorem elem_colPass_outside (hout : ¬(i < f ∧ j < f)) : (colPass f a w).elem i j = w.elem i j :=
  (elem_colPass hf a w i j).trans (if_neg hout)

theorem elem_rowPass_inside (hi : i < f) (hj : j < f) :
    (rowPass f a w).elem i j = dot f (fun t => w.elem i t) (fun t => a t j) :=
  (elem_rowPass hf a w i j).trans (if_pos ⟨hi, hj⟩)

theorem elem_rowPass_outside (hout : ¬(i < f ∧ j < f)) : (rowPass f a w).elem i j = w.elem i j :=
  (elem_rowPass hf a w i j).trans (if_neg hout)

end

theorem isTransform_fdctCols : IsTransform .fdctCols fdctColsOn where
  exec_eq _ := rfl
  writes_w s := by rw [fdctColsOn]
  outside s hf i j hout := by rw [fdctColsOn_w, elem_colPass_outside _ _ hf hout]

theorem isTransform_fdctRows : IsTransform .fdctRows fdctRowsOn where
  exec_eq _ := rfl
  writes_w s := by rw [fdctRowsOn]
  outside s hf i j hout := by rw [fdctRowsOn_w, elem_rowPass_outside _ _ hf hout]

theorem isTransform_idctCols : IsTransform .idctCols idctColsOn where
  exec_eq _ := rfl
  writes_w s := by rw [idctColsOn]
  outside s hf i j hout := by rw [idctColsOn_w, elem_colPass_outside _ _ hf hout]

theorem isTransform_idctRows : IsTransform .idctRows idctRowsOn where
  exec_eq _ := rfl
  writes_w s := by rw [idctRowsOn]
  outside s hf i j hout := by rw [idctRowsOn_w, elem_rowPass_outside _ _ hf hout]

theorem isTransform_fdct : IsTransform .fdct fdctOn :=
  isTransform_fdctCols.comp isTransform_fdctRows rfl fun _ => rfl

theorem isTransform_idct : IsTransform .idct idctOn :=
  isTransform_idctCols.comp isTransform_idctRows rfl fun _ => rfl

/-! ### The statements -/

/-- Settles O21: every element of the column pass is a dot product over the W before the command, from
+0.0 also for F = 1 (notes/assumptions/14.md). -/
theorem fdctColsAppliesBasisToColumns : Obligations.FdctColsAppliesBasisToColumns :=
  fun _ habort hbasis hf => ⟨_, isTransform_fdctCols.exec_next habort hbasis hf, isTransform_fdctCols.frame hf,
    fun _ _ hk hj => by rw [complete_w, fdctColsOn_w, elem_colPass_inside _ _ hf hk hj]; rfl⟩

/-- Settles O22: every element of the row pass is a dot product over the W before the command, from
+0.0 also for F = 1 (notes/assumptions/14.md). -/
theorem fdctRowsAppliesBasisToRows : Obligations.FdctRowsAppliesBasisToRows :=
  fun _ habort hbasis hf => ⟨_, isTransform_fdctRows.exec_next habort hbasis hf, isTransform_fdctRows.frame hf,
    fun _ _ hi hl => by rw [complete_w, fdctRowsOn_w, elem_rowPass_inside _ _ hf hi hl]; rfl⟩

/-- Settles O25: the passes read F, D and W alone, and neither the completion of the first command nor the acceptance of the
second changes these. -/
theorem twoPassTransformsEqualTheirPasses : Obligations.TwoPassTransformsEqualTheirPasses := by
  refine fun s habort hbasis hf => ⟨?_, ?_⟩
  · exact ⟨_, _, isTransform_fdct.exec_next habort hbasis hf, isTransform_fdct.frame hf,
      isTransform_fdctCols.issueAll_pair isTransform_fdctRows habort hbasis hf, fun _ _ => rfl⟩
  · exact ⟨_, _, isTransform_idct.exec_next habort hbasis hf, isTransform_idct.frame hf,
      isTransform_idctCols.issueAll_pair isTransform_idctRows habort hbasis hf, fun _ _ => rfl⟩

end Sys2Proof.BasisForward
end

section
/-! PROOFS. The frequency mask (spec/41_mask.md): MASK checks F and then d, keeps the coefficients with k + l < d, and these are
counted row by row. -/

namespace Sys2Proof.FrequencyMask

open Sys2Proof Sys2Proof.Machine Sys2Proof.CommandWords Sys2Proof.BasisForward

variable {s t : State} {c : Cause}

/-! ### The checks of MASK (R126) -/

theorem checkThreshold_of_negative (h : s.dInt < 0) : checkThreshold s = some .thresholdNegative := if_pos h

theorem checkThreshold_of_tooLarge (hlow : 0 ≤ s.dInt) (hhigh : 2 * s.fInt - 2 < s.dInt) :
    checkThreshold s = some .thresholdTooLarge := by
  rw [checkThreshold, if_neg (not_lt.mpr hlow), if_pos hhigh]

theorem maskChecks_of_checkFSize (h : checkFSize s = some c) : maskChecks s = some c := by
  rw [maskChecks, allOf_cons, h]

theorem maskChecks_of_checkThreshold (hsize : checkFSize s = none) (h : checkThreshold s = some c) :
    maskChecks s = some c := by
  rw [maskChecks, allOf_cons, hsize, allOf_one, h]

/-! ### The command -/

/-- A failing check ends MASK with its error (R126). -/
theorem exec_mask_endedWith (habort : s.ctl.abortPending = false) (hcheck : maskChecks s = some c)
    (hbus : isBusError c = false) : ∃ t, exec .mask s = .next t ∧ EndedWith c s t :=
  workStep_endedWith (body := fun t => .done (maskOn t)) habort hcheck hbus

/-- For a legal F and d MASK completes with its body done (R79). -/
theorem exec_mask (habort : s.ctl.abortPending = false) (hsize : checkFSize s = none) (hthresh : checkThreshold s = none) :
    exec .mask s = .next (complete (maskOn s)) :=
  workStep_done (body := fun t => .done (maskOn t)) habort (maskChecks_none.mpr ⟨hsize, hthresh⟩) rfl

/-- The elements of W that MASK leaves (R79). -/
theorem elem_maskOn (hf : s.f ≤ Config.nMax) (k l : Nat) :
    (maskOn s).w.elem k l =
      if k < s.f ∧ l < s.f then (if s.dInt ≤ (k : Int) + l then plusZero else s.w.elem k l) else s.w.elem k l := by
  rw [maskOn_w, Mat.elem_setBlock hf]

theorem elem_maskOn_inside (hf : s.f ≤ Config.nMax) {k l : Nat} (hk : k < s.f) (hl : l < s.f) :
    (maskOn s).w.elem k l = if s.dInt ≤ (k : Int) + l then plusZero else s.w.elem k l :=
  (elem_maskOn hf k l).trans (if_pos ⟨hk, hl⟩)

theorem transformFrame_maskOn (hf : s.f ≤ Config.nMax) : TransformFrame s (complete (maskOn s)) :=
  transformFrame_complete fun k l hout => (elem_maskOn hf k l).trans (if_neg hout)

/-- Settles O26: the two checks split F and d as stated, and past them the body writes the F × F block of W alone. -/
theorem maskZeroesHighIndexSums : Obligations.MaskZeroesHighIndexSums := by
  refine ⟨decode_eq_command_iff.mpr (by decide), fun s habort => ⟨?legal, ?notPositive, ?aboveMax, ?negative, ?tooLarge⟩⟩
  case legal =>
    intro hF hFmax hd hdmax
    have hf := f_le_nMax hFmax
    refine ⟨_, exec_mask habort (checkFSize_none.mpr ⟨hF, hFmax⟩) (checkThreshold_none.mpr ⟨hd, hdmax⟩),
      transformFrame_maskOn hf, fun k l hk hl => ?_⟩
    rw [complete_w, elem_maskOn_inside hf hk hl]
    exact ⟨fun hge => if_pos hge, fun hlt => if_neg (not_le.mpr hlt)⟩
  case notPositive =>
    exact fun hF => exec_mask_endedWith habort (maskChecks_of_checkFSize (checkFSize_of_notPositive hF)) rfl
  case aboveMax =>
    exact fun hF => exec_mask_endedWith habort (maskChecks_of_checkFSize (checkFSize_of_aboveMax hF)) rfl
  case negative =>
    intro hF hFmax hd
    exact exec_mask_endedWith habort
      (maskChecks_of_checkThreshold (checkFSize_none.mpr ⟨hF, hFmax⟩) (checkThreshold_of_negative hd)) rfl
  case tooLarge =>
    intro hF hFmax hlarge hd
    exact exec_mask_endedWith habort
      (maskChecks_of_checkThreshold (checkFSize_none.mpr ⟨hF, hFmax⟩) (checkThreshold_of_tooLarge hd hlarge)) rfl

/-! ### The number of index pairs below the threshold (R80) -/

/-- Row k of the block has min F (d − k) elements with k + l < d. -/
theorem countP_range_add_lt (k d n : Nat) : (List.range n).countP (fun l => k + l < d) = min n (d - k) := by
  induction n with
  | zero => simp
  | succ n ih =>
    rw [List.range_succ, List.countP_append, ih, List.countP_singleton]
    by_cases h : k + n < d
    · simp only [h, decide_true, if_true]; omega
    · simp only [h, decide_false, Bool.false_eq_true, if_false]; omega

/-- The pairs of a block with a property, counted row by row. -/
theorem countP_blockPairs (p : Nat × Nat → Bool) (n : Nat) :
    (blockPairs n).countP p = ∑ k ∈ Finset.range n, (List.range n).countP fun l => p (k, l) := by
  simp only [blockPairs, List.countP_flatMap, Function.comp_def, List.countP_map]
  rfl

theorem countP_blockPairs_add_lt (n d : Nat) :
    (blockPairs n).countP (fun e => e.1 + e.2 < d) = ∑ k ∈ Finset.range n, min n (d - k) := by
  simp only [countP_blockPairs, countP_range_add_lt]

/-- The staircase 0, …, 0, 0, 1, …, n − 1 that starts after m zeros. -/
theorem sum_range_sub_mul_two (m n : Nat) : (∑ k ∈ Finset.range (m + n), (k - m)) * 2 = n * (n - 1) := by
  have hzeros : ∑ k ∈ Finset.range m, (k - m) = 0 :=
    Finset.sum_eq_zero fun k hk => Nat.sub_eq_zero_of_le (Finset.mem_range.mp hk).le
  rw [Finset.sum_range_add, hzeros, zero_add]
  simp only [Nat.add_sub_cancel_left]
  exact Finset.sum_range_id_mul_two n

/-- The staircase d, d − 1, …, 1, 0, …, 0, cut off in its zeros. -/
theorem sum_range_sub_left_mul_two {d n : Nat} (h : d ≤ n) : (∑ k ∈ Finset.range n, (d - k)) * 2 = d * (d + 1) := by
  induction d generalizing n with
  | zero => simp
  | succ d ih =>
    obtain ⟨n, rfl⟩ := Nat.exists_eq_add_of_lt (Nat.zero_lt_of_lt h)
    have hsum := ih (n := n) (by omega)
    rw [Nat.zero_add, Finset.sum_range_succ']
    simp only [Nat.add_sub_add_right, Nat.sub_zero]
    linarith

/-- Up to the antidiagonal of the block the kept pairs form a triangle (R80). -/
theorem countP_blockPairs_of_le {n d : Nat} (h : d ≤ n) :
    (blockPairs n).countP (fun e => e.1 + e.2 < d) * 2 = d * (d + 1) := by
  have hrow : ∀ k ∈ Finset.range n, min n (d - k) = d - k := fun k _ => by omega
  rw [countP_blockPairs_add_lt, Finset.sum_congr rfl hrow, sum_range_sub_left_mul_two h]

/-- Past the antidiagonal the pairs that are not kept form a triangle of side 2F − d − 1 (R80). -/
theorem countP_blockPairs_of_ge {n d : Nat} (h : n ≤ d) (hd : d ≤ 2 * n) :
    (blockPairs n).countP (fun e => e.1 + e.2 < d) * 2 + (2 * n - d) * (2 * n - d - 1) = n * n * 2 := by
  have hrow : ∀ k ∈ Finset.range n, min n (d - k) + (k - (d - n)) = n := fun k hk => by
    have := Finset.mem_range.mp hk
    omega
  have hall : (∑ k ∈ Finset.range n, min n (d - k)) + ∑ k ∈ Finset.range n, (k - (d - n)) = n * n := by
    rw [← Finset.sum_add_distrib, Finset.sum_congr rfl hrow, Finset.sum_const, Finset.card_range, smul_eq_mul]
  have hdropped := sum_range_sub_mul_two (d - n) (2 * n - d)
  rw [show d - n + (2 * n - d) = n by omega] at hdropped
  rw [countP_blockPairs_add_lt, ← hdropped, ← Nat.add_mul, hall]

/-- The number of pairs of an F × F block with k + l < d, for a legal d (R80). -/
theorem countP_blockPairs_eq {n d : Nat} (hd : (d : Int) ≤ 2 * n - 2) :
    ((blockPairs n).countP (fun e => e.1 + e.2 < d) : Int) =
      if (d : Int) ≤ n then (d : Int) * (d + 1) / 2
      else (n : Int) * n - (2 * n - d) * (2 * n - d - 1) / 2 := by
  split
  next hle =>
    have h := congrArg (Nat.cast (R := Int)) (countP_blockPairs_of_le (Nat.cast_le.mp hle))
    push_cast at h
    omega
  next hgt =>
    have h := congrArg (Nat.cast (R := Int)) (countP_blockPairs_of_ge (n := n) (d := d) (by omega) (by omega))
    rw [show 2 * n - d - 1 = 2 * n - (d + 1) by omega] at h
    push_cast [show d ≤ 2 * n by omega, show d + 1 ≤ 2 * n by omega] at h
    rw [← sub_sub] at h
    omega

/-! ### The coefficients kept (R80) -/

/-- After MASK an element of a W without +0.0 is different from +0.0 exactly below the threshold. -/
theorem elem_maskOn_ne_plusZero_iff (hf : s.f ≤ Config.nMax) {k l : Nat} (hk : k < s.f) (hl : l < s.f)
    (hw : s.w.elem k l ≠ plusZero) : (maskOn s).w.elem k l ≠ plusZero ↔ (k : Int) + l < s.dInt := by
  rw [elem_maskOn_inside hf hk hl]
  split
  next hge => simp [not_lt.mpr hge]
  next hlt => simp [hw, not_le.mp hlt]

/-- Settles O27: the coefficients left are those of the index pairs below the threshold. -/
theorem maskKeepsTheCountedCoefficients : Obligations.MaskKeepsTheCountedCoefficients := by
  intro s t habort hF hFmax hd hdmax hw hexec
  have hf := f_le_nMax hFmax
  have hcast := f_cast hF
  obtain ⟨d, hdNat⟩ := Int.eq_ofNat_of_zero_le hd
  obtain rfl : complete (maskOn s) = t := Host.Outcome.next.inj <|
    (exec_mask habort (checkFSize_none.mpr ⟨hF, hFmax⟩) (checkThreshold_none.mpr ⟨hd, hdmax⟩)).symm.trans hexec
  have hkept : ∀ e ∈ blockPairs s.f,
      ((complete (maskOn s)).w.elem e.1 e.2 != plusZero) = decide (e.1 + e.2 < d) := fun e he => by
    obtain ⟨hk, hl⟩ := mem_blockPairs.mp he
    have hiff := elem_maskOn_ne_plusZero_iff hf hk hl (hw e.1 e.2 hk hl)
    rw [complete_w, Bool.eq_iff_iff, bne_iff_ne, hiff, hdNat, decide_eq_true_iff]
    omega
  rw [← hcast, hdNat] at hdmax ⊢
  calc (((blockPairs s.f).filter fun e => (complete (maskOn s)).w.elem e.1 e.2 != plusZero).length : Int)
    _ = (blockPairs s.f).countP fun e => e.1 + e.2 < d := by rw [List.filter_congr hkept, List.countP_eq_length_filter]
    _ = _ := countP_blockPairs_eq hdmax

end Sys2Proof.FrequencyMask
end

section
/-! PROOFS. The inverse transform and the reconstructor (spec/42_inverse_recon.md): IDCT_COLS and IDCT_ROWS are transform
commands, RECON checks F and writes P alone, and a zero coefficient stays a zero or becomes a NaN until RECON makes it 0. -/

namespace Sys2Proof.InverseRecon

open Sys2Proof Sys2Proof.Machine Sys2Proof.CommandWords Sys2Proof.Rounding Sys2Proof.BasisForward Sys2Proof.FrequencyMask

variable {s : State} {a b x : F64}

/-! ### The two passes -/

/-- Settles O23: every element of the column pass is a dot product over the W before the command, from
+0.0 also for F = 1 (notes/assumptions/14.md). -/
theorem idctColsAppliesTransposeToColumns : Obligations.IdctColsAppliesTransposeToColumns :=
  fun _ habort hbasis hf => ⟨_, isTransform_idctCols.exec_next habort hbasis hf, isTransform_idctCols.frame hf,
    fun _ _ hi hj => by rw [complete_w, idctColsOn_w, elem_colPass_inside _ _ hf hi hj]; rfl⟩

/-- Settles O24: every element of the row pass is a dot product over the W before the command, from
+0.0 also for F = 1 (notes/assumptions/14.md). -/
theorem idctRowsAppliesTransposeToRows : Obligations.IdctRowsAppliesTransposeToRows :=
  fun _ habort hbasis hf => ⟨_, isTransform_idctRows.exec_next habort hbasis hf, isTransform_idctRows.frame hf,
    fun _ _ hi hj => by rw [complete_w, idctRowsOn_w, elem_rowPass_inside _ _ hf hi hj]; rfl⟩

/-! ### RECON -/

/-- For 1 ≤ F ≤ N_MAX RECON completes with its body done (R85). -/
theorem exec_recon (habort : s.ctl.abortPending = false) (hsize : checkFSize s = none) :
    exec .recon s = .next (complete (reconOn s)) :=
  workStep_done (body := fun t => .done (reconOn t)) habort hsize rfl

/-- A failing check ends RECON with its error (R126). -/
theorem exec_recon_endedWith {c : Cause} (habort : s.ctl.abortPending = false) (hcheck : checkFSize s = some c)
    (hbus : isBusError c = false) : ∃ t, exec .recon s = .next t ∧ EndedWith c s t :=
  workStep_endedWith (body := fun t => .done (reconOn t)) habort hcheck hbus

/-- The elements of P that RECON leaves (R85). -/
theorem elem_reconOn_p (hf : s.f ≤ Config.nMax) (i j : Nat) :
    (reconOn s).p.elem i j = if i < s.f ∧ j < s.f then recon8 (s.w.elem i j) else s.p.elem i j := by
  rw [reconOn_p, Mat.elem_setBlock hf]

/-- The corner values and the example of R85. -/
theorem recon8_examples :
    recon8 0xBFD999999999999A#64 = 0#8 ∧ recon8 0x406FF00000000000#64 = 255#8 ∧ recon8 0x406FD00000000000#64 = 254#8 ∧
    recon8 0x3FE0000000000000#64 = 0#8 ∧ recon8 0x3FF8000000000000#64 = 2#8 ∧ recon8 0xFFF0000000000000#64 = 0#8 ∧
    recon8 0x7FF0000000000000#64 = 255#8 ∧ recon8 0x7FF8000000000000#64 = 0#8 ∧ recon8 0x4004000000000002#64 = 3#8 := by
  decide +kernel

/-- Settles O28: the check of F splits the block sizes in three, and the body writes the F × F block of P alone. -/
theorem reconRoundsWIntoP : Obligations.ReconRoundsWIntoP := by
  refine ⟨decode_eq_command_iff.mpr (by decide), fun s habort => ⟨?legal, ?notPositive, ?aboveMax⟩, recon8_examples⟩
  case legal =>
    intro hlow hhigh
    have hp := elem_reconOn_p (f_le_nMax hhigh)
    refine ⟨_, exec_recon habort (checkFSize_none.mpr ⟨hlow, hhigh⟩), ⟨rfl, rfl⟩, fun i j hi hj => ?_,
      fun i j hout => ?_, ?_⟩
    · exact (hp i j).trans (if_pos ⟨hi, hj⟩)
    · exact (hp i j).trans (if_neg hout)
    · simp [SameErrors, SameRegisters, SameMemory, SameWorld]
  case notPositive => exact fun hlow => exec_recon_endedWith habort (checkFSize_of_notPositive hlow) rfl
  case aboveMax => exact fun hhigh => exec_recon_endedWith habort (checkFSize_of_aboveMax hhigh) rfl

/-! ### Zeros and NaNs

A product with a zero is a zero, or a NaN when the other factor is an infinity or a NaN; so the inverse transform of a zero
block holds nothing else, whatever D is. -/

/-- A pattern of value zero, of either sign, or a NaN. -/
def IsZeroOrNaN (x : F64) : Prop := unpack x = .nan ∨ ∃ neg e, unpack x = .fin neg 0 e

theorem isZeroOrNaN_canonicalNaN : IsZeroOrNaN canonicalNaN := .inl (by decide)

theorem isZeroOrNaN_withSign_zero (neg : Bool) : IsZeroOrNaN (withSign neg 0) :=
  .inr ⟨neg, 0, unpack_withSign (by decide)⟩

theorem isZeroOrNaN_plusZero : IsZeroOrNaN plusZero := isZeroOrNaN_withSign_zero false

/-- RECON makes every such element 0 (R16). -/
theorem IsZeroOrNaN.recon8_eq_zero (hx : IsZeroOrNaN x) : recon8 x = 0#8 := by
  obtain hnan | ⟨neg, e, hzero⟩ := hx
  · simp only [recon8, hnan]
  · have hint : nearestInt neg 0 e = 0 := by simp [nearestInt, nearestEven]
    simp [recon8, hzero, hint]

theorem mul64_comm (a b : F64) : mul64 a b = mul64 b a := by
  unfold mul64
  cases unpack a <;> cases unpack b <;> simp [bne_comm, Nat.mul_comm, Nat.add_comm]

theorem IsZeroOrNaN.mul64_right (ha : IsZeroOrNaN a) (b : F64) : IsZeroOrNaN (mul64 a b) := by
  obtain hnan | ⟨neg, e, hzero⟩ := ha
  · rw [mul64_nan (.inl hnan)]
    exact isZeroOrNaN_canonicalNaN
  · cases hb : unpack b with
    | nan =>
      rw [mul64_nan (.inr hb)]
      exact isZeroOrNaN_canonicalNaN
    | inf t =>
      rw [(mul64_infinity_fin hb hzero).2, (mul64_infinity_fin hb hzero).1, if_pos rfl]
      exact isZeroOrNaN_canonicalNaN
    | fin t n f =>
      rw [mul64_fin hzero hb, Nat.zero_mul, roundNearest, if_pos rfl]
      exact isZeroOrNaN_withSign_zero _

theorem IsZeroOrNaN.mul64_left (hb : IsZeroOrNaN b) (a : F64) : IsZeroOrNaN (mul64 a b) :=
  mul64_comm b a ▸ hb.mul64_right a

theorem isZeroOrNaN_add64 (ha : IsZeroOrNaN a) (hb : IsZeroOrNaN b) : IsZeroOrNaN (add64 a b) := by
  obtain hnan | ⟨s, e, hzeroA⟩ := ha
  · rw [add64_nan (.inl hnan)]
    exact isZeroOrNaN_canonicalNaN
  obtain hnan | ⟨t, f, hzeroB⟩ := hb
  · rw [add64_nan (.inr hnan)]
    exact isZeroOrNaN_canonicalNaN
  · have hsum : add64 a b = withSign (s && t) 0 := by simp [add64, hzeroA, hzeroB]
    exact hsum ▸ isZeroOrNaN_withSign_zero _

/-- A dot product of such terms is one again, from the +0.0 it starts with on (R12). -/
theorem isZeroOrNaN_dot {n : Nat} {u v : Nat → F64} (h : ∀ t < n, IsZeroOrNaN (mul64 (u t) (v t))) :
    IsZeroOrNaN (dot n u v) :=
  List.foldlRecOn (List.range n) _ isZeroOrNaN_plusZero fun _ hacc t ht => isZeroOrNaN_add64 hacc (h t (List.mem_range.mp ht))

/-! ### A block of zeros and NaNs through the inverse transform -/

/-- The F × F block holds zeros and NaNs alone. -/
def BlankBlock (f : Nat) (w : Mat F64) : Prop := ∀ i j, i < f → j < f → IsZeroOrNaN (w.elem i j)

theorem blankBlock_colPass {f : Nat} {w : Mat F64} (h : BlankBlock f w) (hf : f ≤ Config.nMax) (m : Nat → Nat → F64) :
    BlankBlock f (colPass f m w) := fun i j hi hj => by
  rw [elem_colPass_inside m w hf hi hj]
  exact isZeroOrNaN_dot fun t ht => (h t j ht hj).mul64_left _

theorem blankBlock_rowPass {f : Nat} {w : Mat F64} (h : BlankBlock f w) (hf : f ≤ Config.nMax) (m : Nat → Nat → F64) :
    BlankBlock f (rowPass f m w) := fun i j hi hj => by
  rw [elem_rowPass_inside m w hf hi hj]
  exact isZeroOrNaN_dot fun t ht => (h i t hi ht).mul64_right _

/-! ### The sequence of commands -/

/-- What the sequence of R86 needs of a state: no pending abort, a valid basis, a legal block of F rows and columns, d = 0. -/
structure Ready (f : Nat) (s : State) : Prop where
  noAbort : s.ctl.abortPending = false
  basis : s.basisValid = true
  size : checkFSize s = none
  f_eq : s.f = f
  d_eq : s.dInt = 0

namespace Ready

variable {f : Nat}

theorem congr {t : State} (h : Ready f s) (hcfg : t.cfg = s.cfg) (hvalid : t.basisValid = s.basisValid)
    (habort : t.ctl.abortPending = false) : Ready f t :=
  ⟨habort, hvalid.trans h.basis, (checkFSize_congr hcfg).trans h.size, (f_congr hcfg).trans h.f_eq,
    (dInt_congr hcfg).trans h.d_eq⟩

theorem fits (h : Ready f s) : s.f ≤ Config.nMax := f_le_nMax (checkFSize_none.mp h.size).2

theorem threshold (h : Ready f s) : checkThreshold s = none := by
  obtain ⟨hF, -⟩ := checkFSize_none.mp h.size
  have hd := h.d_eq
  exact checkThreshold_none.mpr (by omega)

/-- The idle engine accepts a command and runs it to its completion, and neither touches what the next one needs (R108, R122). -/
theorem issue {i : Instr} {body : State → State} (h : Ready f s)
    (hexec : ∀ u, Ready f u → exec i u = .next (complete (body u))) (hcfg : ∀ u, (body u).cfg = u.cfg)
    (hvalid : ∀ u, (body u).basisValid = u.basisValid) (is : List Instr) :
    ∃ u, Ready f u ∧ u.w = s.w ∧ issueAll (i :: is) s = issueAll is (complete (body u)) ∧ Ready f (complete (body u)) := by
  have haccept : Ready f (accept i s) := h.congr rfl rfl h.noAbort
  refine ⟨accept i s, haccept, rfl, ?_, haccept.congr (hcfg _) (hvalid _) rfl⟩
  rw [issueAll, hexec _ haccept]

/-- With d = 0 MASK keeps no coefficient (R79). -/
theorem blankBlock_maskOn (h : Ready f s) : BlankBlock f (maskOn s).w := fun k l hk hl => by
  have hd := h.d_eq
  rw [elem_maskOn_inside h.fits (h.f_eq ▸ hk) (h.f_eq ▸ hl), if_pos (by omega)]
  exact isZeroOrNaN_plusZero

theorem blankBlock_idctOn (h : Ready f s) (hw : BlankBlock f s.w) : BlankBlock f (idctOn s).w := by
  obtain rfl := h.f_eq
  rw [idctOn, idctRowsOn_w, idctColsOn_w, f_congr (idctColsOn_cfg s)]
  exact blankBlock_rowPass (blankBlock_colPass hw h.fits _) h.fits _

/-- RECON turns a block of zeros and NaNs black. -/
theorem elem_reconOn_p_eq_zero (h : Ready f s) (hw : BlankBlock f s.w) {i j : Nat} (hi : i < f) (hj : j < f) :
    (reconOn s).p.elem i j = 0#8 := by
  rw [elem_reconOn_p h.fits, h.f_eq, if_pos ⟨hi, hj⟩, (hw i j hi hj).recon8_eq_zero]

end Ready

/-- Settles O30: whatever FDCT leaves in W, MASK with d = 0 leaves zeros alone, and the inverse transform turns these into
nothing but zeros and NaNs. -/
theorem zeroThresholdGivesBlackBlock : Obligations.ZeroThresholdGivesBlackBlock := by
  intro s habort hbasis hF hFmax hd
  have h : Ready s.f s := ⟨habort, hbasis, checkFSize_none.mpr ⟨hF, hFmax⟩, rfl, hd⟩
  obtain ⟨u1, -, -, hfdct, h1⟩ := h.issue (fun _ hu => isTransform_fdct.exec_next hu.noAbort hu.basis hu.fits) fdctOn_cfg
    fdctOn_basisValid [.mask, .idct, .recon]
  obtain ⟨u2, hu2, -, hmask, h2⟩ := h1.issue (fun _ hu => exec_mask hu.noAbort hu.size hu.threshold) maskOn_cfg
    maskOn_basisValid [.idct, .recon]
  obtain ⟨u3, hu3, hw3, hidct, h3⟩ := h2.issue (fun _ hu => isTransform_idct.exec_next hu.noAbort hu.basis hu.fits)
    idctOn_cfg idctOn_basisValid [.recon]
  obtain ⟨u4, hu4, hw4, hrecon, -⟩ := h3.issue (fun _ hu => exec_recon hu.noAbort hu.size) reconOn_cfg
    reconOn_basisValid []
  have hmasked : BlankBlock s.f u3.w := by
    rw [hw3]
    exact hu2.blankBlock_maskOn
  have hinverse : BlankBlock s.f u4.w := by
    rw [hw4]
    exact hu3.blankBlock_idctOn hmasked
  exact ⟨complete (reconOn u4), hfdct.trans <| hmask.trans <| hidct.trans hrecon,
    fun i j hi hj => hu4.elem_reconOn_p_eq_zero hinverse hi hj⟩

end Sys2Proof.InverseRecon
end

section
/-! PROOFS. LOAD_BLOCK and STORE_BLOCK (spec/43_block_io.md): what their loops have done after the first accesses, whether these
are the whole block or what comes before a bus error, in the command itself or in a block step of RUN (spec/44_pipeline.md R97). -/

namespace Sys2Proof.BlockTransfer

open Sys2Proof Sys2Proof.Machine Sys2Proof.CommandWords Sys2Proof.InvariantKept Sys2Proof.MemoryWrites

variable {s t u : State} {c : Instr} {f n i j k l : Nat}

/-! ### Row-major positions (R54) -/

theorem rowMajor_div_mod {r q : Nat} (hq : q < n) : (r * n + q) / n = r ∧ (r * n + q) % n = q :=
  (Nat.div_mod_unique (by omega)).mpr ⟨by ring, hq⟩

/-- A position of a row-major order names its row and column. -/
theorem rowMajor_inj {r r' q q' : Nat} (hq : q < n) (hq' : q' < n) (h : r * n + q = r' * n + q') : r = r' ∧ q = q' := by
  obtain ⟨hdiv, hmod⟩ := rowMajor_div_mod (r := r) hq
  obtain ⟨hdiv', hmod'⟩ := rowMajor_div_mod (r := r') hq'
  exact ⟨by rw [← hdiv, h, hdiv'], by rw [← hmod, h, hmod']⟩

theorem blockPairs_getElem?_rowMajor (hi : i < f) (hj : j < f) : (blockPairs f)[i * f + j]? = some (i, j) := by
  obtain ⟨hdiv, hmod⟩ := rowMajor_div_mod (r := i) hj
  rw [blockPairs_getElem? (index_lt hi hj), hdiv, hmod]

/-- The first n index pairs of a block are those at a row-major position below n. -/
theorem mem_take_blockPairs {e : Nat × Nat} :
    e ∈ (blockPairs f).take n ↔ e.1 < f ∧ e.2 < f ∧ e.1 * f + e.2 < n := by
  constructor
  · intro he
    obtain ⟨h1, h2⟩ := mem_blockPairs.mp (List.mem_of_mem_take he)
    obtain ⟨m, hm, rfl⟩ := List.mem_take_iff_getElem.mp he
    have hlen : m < f * f := by rw [← blockPairs_length f]; omega
    obtain ⟨_, hget⟩ := List.getElem?_eq_some_iff.mp (blockPairs_getElem? hlen)
    refine ⟨h1, h2, ?_⟩
    rw [hget, Nat.div_add_mod']
    omega
  · rintro ⟨h1, h2, hn⟩
    refine List.mem_of_getElem? (i := e.1 * f + e.2) ?_
    rw [List.getElem?_take, if_pos hn, blockPairs_getElem?_rowMajor h1 h2]

/-- The index pairs of a block before (i, j), the pair itself, and those after it. -/
theorem blockPairs_split (hi : i < f) (hj : j < f) :
    ∃ rest, blockPairs f = (blockPairs f).take (i * f + j) ++ (i, j) :: rest := by
  obtain ⟨hlt, hget⟩ := List.getElem?_eq_some_iff.mp (blockPairs_getElem?_rowMajor hi hj)
  refine ⟨(blockPairs f).drop (i * f + j + 1), ?_⟩
  rw [← hget, ← List.drop_eq_getElem_cons hlt, List.take_append_drop]

theorem take_blockPairs_all (f : Nat) : (blockPairs f).take (f * f) = blockPairs f :=
  List.take_of_length_le (blockPairs_length f).le

/-! ### The block at CURSOR, once the checks have passed -/

/-- The block at CURSOR fits the buffers, and its source pixels have addresses (R55). -/
structure SrcBlock (s : State) : Prop where
  fits : s.f ≤ Config.nMax
  row : s.cursor.row.toNat < s.br
  col : s.cursor.col.toNat < s.bc
  range : s.srcEnd < 2 ^ Config.addrW

/-- The output pixels of the block at CURSOR have addresses (R55), and no two rows of the output share one. -/
structure DstBlock (s : State) : Prop where
  row : s.cursor.row.toNat < s.br
  col : s.cursor.col.toNat < s.bc
  stride : s.ct ≤ s.cfg.dstStride.toNat
  range : s.dstEnd < 2 ^ Config.addrW

theorem srcBlock_of_loadChecks (h : loadChecks s = none) : SrcBlock s := by
  obtain ⟨hfull, -, hrange, hcursor⟩ := loadChecks_none.mp h
  obtain ⟨-, -, -, hfits, -⟩ := checkFFull_block hfull
  obtain ⟨hrow, hcol⟩ := checkCursor_none.mp hcursor
  exact ⟨hfits, hrow, hcol, checkSrcRange_none.mp hrange⟩

theorem dstBlock_of_storeChecks (h : storeChecks s = none) : DstBlock s := by
  obtain ⟨-, hstride, hrange, hcursor⟩ := storeChecks_none.mp h
  obtain ⟨hrow, hcol⟩ := checkCursor_none.mp hcursor
  exact ⟨hrow, hcol, checkDstStride_none.mp hstride, checkDstRange_none.mp hrange⟩

theorem blocks_of_validateAll (h : validateAll s = none) (hrow : s.cursor.row.toNat < s.br)
    (hcol : s.cursor.col.toNat < s.bc) : SrcBlock s ∧ DstBlock s := by
  obtain ⟨hfull, -, -, hstride, hsrc, hdst, -⟩ := validateAll_none.mp h
  obtain ⟨-, -, -, hfits, -⟩ := checkFFull_block hfull
  exact ⟨⟨hfits, hrow, hcol, checkSrcRange_none.mp hsrc⟩,
    ⟨hrow, hcol, checkDstStride_none.mp hstride, checkDstRange_none.mp hdst⟩⟩

theorem DstBlock.congr (h : DstBlock s) (hcfg : t.cfg = s.cfg) (hcursor : t.cursor = s.cursor) : DstBlock t := by
  refine ⟨?_, ?_, ?_, ?_⟩
  · rw [hcursor, br_congr hcfg]; exact h.row
  · rw [hcursor, bc_congr hcfg]; exact h.col
  · rw [hcfg, ct_congr hcfg]; exact h.stride
  · rw [dstEnd_congr hcfg]; exact h.range

/-- An access to an address of `Mem` fails exactly when it gets an error response. -/
theorem dmaStop_of_lt {a : Nat} (h : a < 2 ^ Config.addrW) (kind : AccessKind) :
    s.dmaStop kind a = if s.busError kind a then some (.busError a) else none :=
  if_neg (not_le.mpr h)

theorem SrcBlock.dmaStop_read (h : SrcBlock s) (hi : i < s.f) (hj : j < s.f) :
    s.dmaStop .read (s.srcElem i j) = if s.busError .read (s.srcElem i j) then some (.busError (s.srcElem i j)) else none :=
  dmaStop_of_lt ((srcElem_le h.row h.col hi hj).trans_lt h.range) _

theorem DstBlock.dmaStop_write (h : DstBlock s) (hi : i < s.f) (hj : j < s.f) :
    s.dmaStop .write (s.dstElem i j) = if s.busError .write (s.dstElem i j) then some (.busError (s.dstElem i j)) else none :=
  dmaStop_of_lt ((dstElem_le h.row h.col hi hj).trans_lt h.range) _

/-- Two pixels of the truncated output image have different addresses when the stride covers a row (R125). -/
theorem dstPixel_inj (hstride : s.ct ≤ s.cfg.dstStride.toNat) {r r' q q' : Nat} (hq : q < s.ct) (hq' : q' < s.ct)
    (h : s.dstPixel r q = s.dstPixel r' q') : r = r' ∧ q = q' := by
  simp only [State.dstPixel] at h
  exact rowMajor_inj (hq.trans_le hstride) (hq'.trans_le hstride) (by omega)

theorem DstBlock.dstElem_inj (h : DstBlock s) (hj : j < s.f) (hl : l < s.f) (heq : s.dstElem i j = s.dstElem k l) :
    i = k ∧ j = l := by
  obtain ⟨hrow, hcol⟩ := dstPixel_inj h.stride (index_lt h.col hj) (index_lt h.col hl) heq
  exact ⟨Nat.add_left_cancel hrow, Nat.add_left_cancel hcol⟩

/-! ### The first reads of a block (R89) -/

/-- The state after the first n reads of the block at CURSOR, none of which failed. -/
def loadFirst (n : Nat) (s : State) : State :=
  let bytes := ((blockPairs s.f).take n).map fun e => s.mem.read (s.srcElem e.1 e.2)
  { s with
    p := s.p.fillBlock s.f bytes
    w := s.w.fillBlock s.f (bytes.map toF64) }

@[simp] theorem loadFirst_cfg (n : Nat) (s : State) : (loadFirst n s).cfg = s.cfg := by simp only [loadFirst]
@[simp] theorem loadFirst_cursor (n : Nat) (s : State) : (loadFirst n s).cursor = s.cursor := by simp only [loadFirst]
@[simp] theorem loadFirst_blocksDone (n : Nat) (s : State) : (loadFirst n s).blocksDone = s.blocksDone := by simp only [loadFirst]
@[simp] theorem loadFirst_bufIndex (n : Nat) (s : State) : (loadFirst n s).bufIndex = s.bufIndex := by simp only [loadFirst]
@[simp] theorem loadFirst_irqEnable (n : Nat) (s : State) : (loadFirst n s).irqEnable = s.irqEnable := by simp only [loadFirst]
@[simp] theorem loadFirst_irqStatus (n : Nat) (s : State) : (loadFirst n s).irqStatus = s.irqStatus := by simp only [loadFirst]
@[simp] theorem loadFirst_errCode (n : Nat) (s : State) : (loadFirst n s).errCode = s.errCode := by simp only [loadFirst]
@[simp] theorem loadFirst_errAddr (n : Nat) (s : State) : (loadFirst n s).errAddr = s.errAddr := by simp only [loadFirst]
@[simp] theorem loadFirst_errMulti (n : Nat) (s : State) : (loadFirst n s).errMulti = s.errMulti := by simp only [loadFirst]
@[simp] theorem loadFirst_basisValid (n : Nat) (s : State) : (loadFirst n s).basisValid = s.basisValid := by simp only [loadFirst]
@[simp] theorem loadFirst_lockedWrite (n : Nat) (s : State) : (loadFirst n s).lockedWrite = s.lockedWrite := by simp only [loadFirst]
@[simp] theorem loadFirst_ctl (n : Nat) (s : State) : (loadFirst n s).ctl = s.ctl := by simp only [loadFirst]
@[simp] theorem loadFirst_whold (n : Nat) (s : State) : (loadFirst n s).whold = s.whold := by simp only [loadFirst]
@[simp] theorem loadFirst_rhold (n : Nat) (s : State) : (loadFirst n s).rhold = s.rhold := by simp only [loadFirst]
@[simp] theorem loadFirst_d (n : Nat) (s : State) : (loadFirst n s).d = s.d := by simp only [loadFirst]
@[simp] theorem loadFirst_mem (n : Nat) (s : State) : (loadFirst n s).mem = s.mem := by simp only [loadFirst]
@[simp] theorem loadFirst_busErrors (n : Nat) (s : State) : (loadFirst n s).busErrors = s.busErrors := by simp only [loadFirst]
@[simp] theorem loadFirst_inputs (n : Nat) (s : State) : (loadFirst n s).inputs = s.inputs := by simp only [loadFirst]
@[simp] theorem loadFirst_resp (n : Nat) (s : State) : (loadFirst n s).resp = s.resp := by simp only [loadFirst]
@[simp] theorem loadFirst_draw (n : Nat) (s : State) : (loadFirst n s).draw = s.draw := by simp only [loadFirst]
@[simp] theorem loadFirst_memBefore (n : Nat) (s : State) : (loadFirst n s).memBefore = s.memBefore := by simp only [loadFirst]

/-- A buffer whose block is filled with the values of g at the first n index pairs. -/
theorem elem_fillBlock_take {m : Nat} (hf : f ≤ Config.nMax) (g : Nat → Nat → BitVec m) (b : Mat (BitVec m)) (i j : Nat) :
    (b.fillBlock f (((blockPairs f).take n).map fun e => g e.1 e.2)).elem i j =
      if i < f ∧ j < f ∧ i * f + j < n then g i j else b.elem i j := by
  rw [Mat.elem_fillBlock hf]
  by_cases hin : i < f ∧ j < f
  · rw [if_pos hin, List.map_take, List.getElem?_take]
    by_cases hn : i * f + j < n
    · rw [if_pos hn, if_pos ⟨hin.1, hin.2, hn⟩, getD_map_blockPairs g hin.1 hin.2]
    · rw [if_neg hn, if_neg fun h => hn h.2.2, Option.getD_none]
  · rw [if_neg hin, if_neg fun h => hin ⟨h.1, h.2.1⟩]

theorem elem_loadFirst_p (hf : s.f ≤ Config.nMax) (n i j : Nat) :
    (loadFirst n s).p.elem i j =
      if i < s.f ∧ j < s.f ∧ i * s.f + j < n then s.mem.read (s.srcElem i j) else s.p.elem i j :=
  elem_fillBlock_take hf (fun i j => s.mem.read (s.srcElem i j)) s.p i j

theorem elem_loadFirst_w (hf : s.f ≤ Config.nMax) (n i j : Nat) :
    (loadFirst n s).w.elem i j =
      if i < s.f ∧ j < s.f ∧ i * s.f + j < n then toF64 (s.mem.read (s.srcElem i j)) else s.w.elem i j := by
  rw [loadFirst, List.map_map]
  exact elem_fillBlock_take hf (fun i j => toF64 (s.mem.read (s.srcElem i j))) s.w i j

/-- Without an error response the loop of LOAD_BLOCK reads the whole block. -/
theorem SrcBlock.loadBlockOn_done (h : SrcBlock s)
    (hread : ∀ i j, i < s.f → j < s.f → s.busError .read (s.srcElem i j) = false) :
    loadBlockOn s = .done (loadFirst (s.f * s.f) s) := by
  rw [loadBlockOn_all h.row h.col h.range hread, loadFirst, take_blockPairs_all, State.srcAddrs, List.map_map]
  rfl

/-- The first error response ends the loop of LOAD_BLOCK with the elements before it read. -/
theorem SrcBlock.loadBlockOn_raised (h : SrcBlock s) (hi : i < s.f) (hj : j < s.f)
    (hbefore : ∀ k l, k < s.f → l < s.f → k * s.f + l < i * s.f + j → s.busError .read (s.srcElem k l) = false)
    (hfail : s.busError .read (s.srcElem i j) = true) :
    loadBlockOn s = .raised ⟨.busRead, s.srcElem i j⟩ (loadFirst (i * s.f + j) s) := by
  obtain ⟨rest, hsplit⟩ := blockPairs_split hi hj
  have hok : ∀ a ∈ ((blockPairs s.f).take (i * s.f + j)).map (fun e => s.srcElem e.1 e.2), s.dmaStop .read a = none := by
    intro a ha
    obtain ⟨e, he, rfl⟩ := List.mem_map.mp ha
    obtain ⟨h1, h2, hn⟩ := mem_take_blockPairs.mp he
    rw [h.dmaStop_read h1 h2, hbefore _ _ h1 h2 hn]
    rfl
  have hstop : s.dmaStop .read (s.srcElem i j) = some (.busError (s.srcElem i j)) := by
    rw [h.dmaStop_read hi hj, if_pos hfail]
  have hbytes := readBytes_stop (bs := rest.map fun e => s.srcElem e.1 e.2) hok hstop
  rw [List.map_map] at hbytes
  unfold loadBlockOn State.srcAddrs
  rw [hsplit, List.map_append, List.map_cons, hbytes]
  rfl

/-! ### The first writes of a block (R90) -/

/-- The state after the first n writes of the block at CURSOR, none of which failed. -/
def storeFirst (n : Nat) (s : State) : State :=
  { s with mem := writeAll (((blockPairs s.f).take n).map fun e => (s.dstElem e.1 e.2, s.p.elem e.1 e.2)) s.mem }

@[simp] theorem storeFirst_cfg (n : Nat) (s : State) : (storeFirst n s).cfg = s.cfg := rfl
@[simp] theorem storeFirst_cursor (n : Nat) (s : State) : (storeFirst n s).cursor = s.cursor := rfl
@[simp] theorem storeFirst_blocksDone (n : Nat) (s : State) : (storeFirst n s).blocksDone = s.blocksDone := rfl
@[simp] theorem storeFirst_bufIndex (n : Nat) (s : State) : (storeFirst n s).bufIndex = s.bufIndex := rfl
@[simp] theorem storeFirst_irqEnable (n : Nat) (s : State) : (storeFirst n s).irqEnable = s.irqEnable := rfl
@[simp] theorem storeFirst_irqStatus (n : Nat) (s : State) : (storeFirst n s).irqStatus = s.irqStatus := rfl
@[simp] theorem storeFirst_errCode (n : Nat) (s : State) : (storeFirst n s).errCode = s.errCode := rfl
@[simp] theorem storeFirst_errAddr (n : Nat) (s : State) : (storeFirst n s).errAddr = s.errAddr := rfl
@[simp] theorem storeFirst_errMulti (n : Nat) (s : State) : (storeFirst n s).errMulti = s.errMulti := rfl
@[simp] theorem storeFirst_basisValid (n : Nat) (s : State) : (storeFirst n s).basisValid = s.basisValid := rfl
@[simp] theorem storeFirst_lockedWrite (n : Nat) (s : State) : (storeFirst n s).lockedWrite = s.lockedWrite := rfl
@[simp] theorem storeFirst_ctl (n : Nat) (s : State) : (storeFirst n s).ctl = s.ctl := rfl
@[simp] theorem storeFirst_whold (n : Nat) (s : State) : (storeFirst n s).whold = s.whold := rfl
@[simp] theorem storeFirst_rhold (n : Nat) (s : State) : (storeFirst n s).rhold = s.rhold := rfl
@[simp] theorem storeFirst_p (n : Nat) (s : State) : (storeFirst n s).p = s.p := rfl
@[simp] theorem storeFirst_w (n : Nat) (s : State) : (storeFirst n s).w = s.w := rfl
@[simp] theorem storeFirst_d (n : Nat) (s : State) : (storeFirst n s).d = s.d := rfl
@[simp] theorem storeFirst_busErrors (n : Nat) (s : State) : (storeFirst n s).busErrors = s.busErrors := rfl
@[simp] theorem storeFirst_inputs (n : Nat) (s : State) : (storeFirst n s).inputs = s.inputs := rfl
@[simp] theorem storeFirst_resp (n : Nat) (s : State) : (storeFirst n s).resp = s.resp := rfl
@[simp] theorem storeFirst_draw (n : Nat) (s : State) : (storeFirst n s).draw = s.draw := rfl
@[simp] theorem storeFirst_memBefore (n : Nat) (s : State) : (storeFirst n s).memBefore = s.memBefore := rfl

/-- The first n elements stand in the output image. -/
theorem DstBlock.read_storeFirst (h : DstBlock s) (hwf : s.mem.wf = true) (hi : i < s.f) (hj : j < s.f)
    (hn : i * s.f + j < n) : (storeFirst n s).mem.read (s.dstElem i j) = s.p.elem i j := by
  have hnodup : ((((blockPairs s.f).take n).map fun e => (s.dstElem e.1 e.2, s.p.elem e.1 e.2)).map (·.1)).Nodup := by
    rw [List.map_map]
    refine List.Nodup.map_on (fun e he e' he' heq => ?_) ((blockPairs_nodup s.f).sublist (List.take_sublist _ _))
    obtain ⟨-, h2, -⟩ := mem_take_blockPairs.mp he
    obtain ⟨-, h2', -⟩ := mem_take_blockPairs.mp he'
    exact Prod.ext_iff.mpr (h.dstElem_inj h2 h2' heq)
  have hpair : (i, j) ∈ (blockPairs s.f).take n := mem_take_blockPairs.mpr ⟨hi, hj, hn⟩
  exact read_writeAll_mem hwf hnodup (List.mem_map_of_mem (f := fun e => (s.dstElem e.1 e.2, s.p.elem e.1 e.2)) hpair)

/-- No other byte of memory is written. -/
theorem read_storeFirst_other (hwf : s.mem.wf = true) {a : Nat}
    (ha : ∀ i j, i < s.f → j < s.f → i * s.f + j < n → a ≠ s.dstElem i j) : (storeFirst n s).mem.read a = s.mem.read a := by
  refine read_writeAll_other hwf fun cell hcell => ?_
  obtain ⟨e, he, rfl⟩ := List.mem_map.mp hcell
  obtain ⟨h1, h2, hn⟩ := mem_take_blockPairs.mp he
  exact (ha _ _ h1 h2 hn).symm

theorem wf_storeFirst (hwf : s.mem.wf = true) (n : Nat) : (storeFirst n s).mem.wf = true := wf_writeAll hwf _

/-- Without an error response the loop of STORE_BLOCK writes the whole block. -/
theorem DstBlock.storeBlockOn_done (h : DstBlock s)
    (hwrite : ∀ i j, i < s.f → j < s.f → s.busError .write (s.dstElem i j) = false) :
    storeBlockOn s = .done (storeFirst (s.f * s.f) s) := by
  rw [storeBlockOn_all h.row h.col h.range hwrite, storeFirst, take_blockPairs_all, State.dstCells]

/-- Writes up to the first that fails leave the bytes before it written. -/
theorem writeBytes_stop {xs ys : List (Nat × Byte)} {a : Nat} {v : Byte} {e : DmaStop} (m : Memory)
    (h : ∀ b ∈ xs, s.dmaStop .write b.1 = none) (he : s.dmaStop .write a = some e) :
    s.writeBytes (xs ++ (a, v) :: ys) m = (writeAll xs m, some e) := by
  induction xs generalizing m with
  | nil => simp [State.writeBytes, he]
  | cons b xs ih =>
    obtain ⟨hb, hxs⟩ := List.forall_mem_cons.mp h
    simp only [List.cons_append, State.writeBytes, hb, writeAll_cons, ih _ hxs]

/-- The first error response ends the loop of STORE_BLOCK with the elements before it written. -/
theorem DstBlock.storeBlockOn_raised (h : DstBlock s) (hi : i < s.f) (hj : j < s.f)
    (hbefore : ∀ k l, k < s.f → l < s.f → k * s.f + l < i * s.f + j → s.busError .write (s.dstElem k l) = false)
    (hfail : s.busError .write (s.dstElem i j) = true) :
    storeBlockOn s = .raised ⟨.busWrite, s.dstElem i j⟩ (storeFirst (i * s.f + j) s) := by
  obtain ⟨rest, hsplit⟩ := blockPairs_split hi hj
  have hok : ∀ b ∈ ((blockPairs s.f).take (i * s.f + j)).map (fun e => (s.dstElem e.1 e.2, s.p.elem e.1 e.2)),
      s.dmaStop .write b.1 = none := by
    intro b hb
    obtain ⟨e, he, rfl⟩ := List.mem_map.mp hb
    obtain ⟨h1, h2, hn⟩ := mem_take_blockPairs.mp he
    rw [h.dmaStop_write h1 h2, hbefore _ _ h1 h2 hn]
    rfl
  have hstop : s.dmaStop .write (s.dstElem i j) = some (.busError (s.dstElem i j)) := by
    rw [h.dmaStop_write hi hj, if_pos hfail]
  have hcells := writeBytes_stop (v := s.p.elem i j) (ys := rest.map fun e => (s.dstElem e.1 e.2, s.p.elem e.1 e.2))
    s.mem hok hstop
  unfold storeBlockOn State.dstCells
  rw [hsplit, List.map_append, List.map_cons, hcells]
  rfl

/-! ### LOAD_BLOCK and STORE_BLOCK to the end -/

/-- LOAD_BLOCK without a pending abort, a failing check or an error response (R89). -/
theorem exec_loadBlock (habort : s.ctl.abortPending = false) (hchecks : loadChecks s = none)
    (hread : ∀ i j, i < s.f → j < s.f → s.busError .read (s.srcElem i j) = false) :
    exec .loadBlock s = .next (complete (loadFirst (s.f * s.f) s)) :=
  workStep_done habort hchecks ((srcBlock_of_loadChecks hchecks).loadBlockOn_done hread)

/-- STORE_BLOCK without a pending abort, a failing check or an error response (R90). -/
theorem exec_storeBlock (habort : s.ctl.abortPending = false) (hchecks : storeChecks s = none)
    (hwrite : ∀ i j, i < s.f → j < s.f → s.busError .write (s.dstElem i j) = false) :
    exec .storeBlock s = .next (complete (storeFirst (s.f * s.f) s)) :=
  workStep_done habort hchecks ((dstBlock_of_storeChecks hchecks).storeBlockOn_done hwrite)

/-- Settles O31: every element of the block is among the first F · F reads. -/
theorem loadBlockReadsTheBlockAtCursor : Obligations.LoadBlockReadsTheBlockAtCursor := by
  intro s habort hchecks hread
  have hf := (srcBlock_of_loadChecks hchecks).fits
  refine ⟨_, exec_loadBlock habort hchecks hread, ⟨rfl, rfl⟩, fun i j hi hj a ha => ?_, fun i j hout => ?_,
    ?_⟩
  · have hin : i < s.f ∧ j < s.f ∧ i * s.f + j < s.f * s.f := ⟨hi, hj, index_lt hi hj⟩
    have haddr : a = s.srcElem i j := ha
    rw [haddr, complete_p, complete_w, elem_loadFirst_p hf, elem_loadFirst_w hf, if_pos hin, if_pos hin]
    exact ⟨rfl, rfl⟩
  · have hout' : ¬(i < s.f ∧ j < s.f ∧ i * s.f + j < s.f * s.f) := fun h => hout ⟨h.1, h.2.1⟩
    rw [complete_p, complete_w, elem_loadFirst_p hf, elem_loadFirst_w hf, if_neg hout', if_neg hout']
    exact ⟨rfl, rfl⟩
  · simp [SameErrors, SameRegisters, SameMemory, SameWorld]

/-- Settles O33: every element of the block is among the first F · F writes. -/
theorem storeBlockWritesTheBlockAtCursor : Obligations.StoreBlockWritesTheBlockAtCursor := by
  intro s hwf habort hchecks hwrite
  refine ⟨_, exec_storeBlock habort hchecks hwrite, ⟨rfl, rfl⟩, fun i j hi hj a ha => ?_, fun a ha => ?_,
    ?_⟩
  · have haddr : a = s.dstElem i j := ha
    rw [haddr]
    exact (dstBlock_of_storeChecks hchecks).read_storeFirst hwf hi hj (index_lt hi hj)
  · exact read_storeFirst_other hwf fun i j hi hj _ => ha i j hi hj
  · simp [SameBuffers, SameErrors, SameRegisters, SameWorld]

/-! ### A bus error (R120, R123) -/

/-- The state after a command has ended with a bus error at an address, P, W and memory aside. -/
def EndedAtAddress (cause : Cause) (a : Nat) (s t : State) : Prop :=
  Recorded cause s.ctl.curCmd (BitVec.ofNat 32 a) s t ∧ t.ctl = Ctl.idle ∧ (∀ k l, t.d.elem k l = s.d.elem k l) ∧
    t.basisValid = s.basisValid ∧ SameRegisters s t ∧ SameWorld s t

theorem recorded_errorEnd_of_isBusError {cause : Cause} (hbus : isBusError cause = true) (a : Nat) (u : State) :
    Recorded cause u.ctl.curCmd (BitVec.ofNat 32 a) u (errorEnd ⟨cause, a⟩ u) := by
  rw [errorEnd_eq, if_pos hbus]
  exact recorded_record cause u.ctl.curCmd a u

/-- The error end records against the state before the command, whose error record and events the body left alone. -/
theorem recorded_of_sameOutside {cause : Cause} {o : Byte} {a : Word} (h : SameOutside s u) (hrec : Recorded cause o a u t) :
    Recorded cause o a s t := by
  simpa only [Recorded, h.irqStatus, h.lockedWrite, h.errCode, h.errAddr, h.errMulti] using hrec

/-- A body that raises a bus error ends its command with it. -/
theorem exec_busError {cause : Cause} {a : Nat} (hc : isInstant c = false) (habort : s.ctl.abortPending = false)
    (hchecks : allOf (checksOf c s.ctl.phase) s = none) (hbody : bodyOf c s.ctl.phase s = .raised ⟨cause, a⟩ u)
    (hnote : u.memBefore = s.memBefore) :
    exec c s = .next (errorEnd ⟨cause, a⟩ u) ∧ EndedAtAddress cause a s (errorEnd ⟨cause, a⟩ u) := by
  have hframe := bodyOf_framed c s
  rw [hbody] at hframe
  obtain ⟨hout, hctl, -, hcause, -, hcursor, hdone, hd, hvalid⟩ := hframe
  have hbus : isBusError cause = true := by
    obtain rfl | rfl := hcause <;> rfl
  have hrec := recorded_of_sameOutside hout (recorded_errorEnd_of_isBusError hbus a u)
  rw [hctl] at hrec
  refine ⟨(exec_eq_workStep hc).trans (workStep_raised habort hchecks hbody), hrec, rfl, ?_⟩
  simp [SameRegisters, SameWorld, hd, hvalid, hcursor, hdone, hnote, hout.cfg, hout.bufIndex, hout.irqEnable, hout.whold,
    hout.rhold, hout.busErrors, hout.inputs, hout.resp, hout.draw]

theorem busError_congr (h : t.busErrors = s.busErrors) (kind : AccessKind) (a : Nat) :
    t.busError kind a = s.busError kind a := by
  simp only [State.busError, h]

/-! ### The read that fails -/

/-- A command that reads the block at CURSOR runs the loop of LOAD_BLOCK first, and a bus error there is its own. -/
theorem body_of_readsBlock (h : ReadsBlock c s) :
    isInstant c = false ∧ allOf (checksOf c s.ctl.phase) s = none ∧ SrcBlock s ∧
      ∀ e u, loadBlockOn s = .raised e u → bodyOf c s.ctl.phase s = .raised e u := by
  obtain ⟨rfl, hchecks⟩ | ⟨rfl, hphase, hvalid, hrow, hcol⟩ := h
  · exact ⟨rfl, hchecks, srcBlock_of_loadChecks hchecks, fun _ _ he => he⟩
  · have hblock := (blocks_of_validateAll hvalid hrow hcol).1
    rw [hphase]
    refine ⟨rfl, rfl, hblock, fun e u he => ?_⟩
    rw [bodyOf, withBlock_fits hblock.fits, runBlockOn, he, Work.andThen]

/-- Settles O32: the loop stops after the reads before (i, j), and the error end changes neither buffers nor memory. -/
theorem readBusErrorKeepsThePrefix : Obligations.ReadBusErrorKeepsThePrefix := by
  intro c s i j hreads habort hi hj hbefore hfail
  obtain ⟨hc, hchecks, hblock, hbody⟩ := body_of_readsBlock hreads
  obtain ⟨hexec, hrec, hidle, hd, hvalid, hregs, hworld⟩ :=
    exec_busError hc habort hchecks (hbody _ _ (hblock.loadBlockOn_raised hi hj hbefore hfail))
      (loadFirst_memBefore _ s)
  refine ⟨_, hexec, hrec, hidle, fun k l hk hl hlt => ?_, fun k l hout => ?_, hd, hvalid, hregs, fun a => ?_, hworld⟩
  · have hin : k < s.f ∧ l < s.f ∧ k * s.f + l < i * s.f + j := ⟨hk, hl, hlt⟩
    rw [errorEnd_p, errorEnd_w, elem_loadFirst_p hblock.fits, elem_loadFirst_w hblock.fits, if_pos hin, if_pos hin]
    exact ⟨rfl, rfl⟩
  · rw [errorEnd_p, errorEnd_w, elem_loadFirst_p hblock.fits, elem_loadFirst_w hblock.fits, if_neg hout, if_neg hout]
    exact ⟨rfl, rfl⟩
  · rw [errorEnd_mem, loadFirst_mem]

/-! ### The write that fails -/

/-- What a command has done when it begins to write the block at CURSOR: neither memory nor what names the block has changed. -/
structure BeforeStore (s v : State) : Prop extends SameBlock s v where
  busErrors : v.busErrors = s.busErrors
  memBefore : v.memBefore = s.memBefore

/-- A command that writes the block at CURSOR runs the loop of STORE_BLOCK, from the state it began in or, in a block step of RUN,
from the one its reads and arithmetic give; a bus error there is its own. -/
theorem body_of_writesBlock (h : WritesBlock c s) :
    isInstant c = false ∧ allOf (checksOf c s.ctl.phase) s = none ∧ DstBlock s ∧
      ∃ v, BeforeStore s v ∧ (c = .storeBlock → v = s) ∧
        ∀ e u, storeBlockOn v = .raised e u → bodyOf c s.ctl.phase s = .raised e u := by
  obtain ⟨rfl, hchecks⟩ | ⟨rfl, hphase, hvalid, hrow, hcol, hread⟩ := h
  · exact ⟨rfl, hchecks, dstBlock_of_storeChecks hchecks, s, ⟨⟨rfl, rfl, rfl⟩, rfl, rfl⟩, fun _ => rfl, fun _ _ he => he⟩
  · obtain ⟨hsrc, hdst⟩ := blocks_of_validateAll hvalid hrow hcol
    have hload := hsrc.loadBlockOn_done hread
    have hbefore : BeforeStore s (pipelineOn (loadFirst (s.f * s.f) s)) := ⟨⟨by simp, by simp, by simp⟩, by simp, by simp⟩
    rw [hphase]
    refine ⟨rfl, rfl, hdst, _, hbefore, nofun, fun e u he => ?_⟩
    rw [bodyOf, withBlock_fits hsrc.fits, runBlockOn, hload, Work.andThen, he, Work.andThen]

/-- Settles O34: the loop stops after the writes before (i, j), and the error end changes neither buffers nor memory. -/
theorem writeBusErrorKeepsThePrefix : Obligations.WriteBusErrorKeepsThePrefix := by
  intro c s i j hwf hwrites habort hi hj hbefore hfail
  obtain ⟨hc, hchecks, hblock, v, hv, hstore, hbody⟩ := body_of_writesBlock hwrites
  have hf : v.f = s.f := f_congr hv.cfg
  have helem : ∀ k l, v.dstElem k l = s.dstElem k l := dstElem_congr hv.cfg hv.cursor
  have hwfv : v.mem.wf = true := hv.mem ▸ hwf
  have hblockv : DstBlock v := hblock.congr hv.cfg hv.cursor
  have hraised : storeBlockOn v = .raised ⟨.busWrite, s.dstElem i j⟩ (storeFirst (i * s.f + j) v) := by
    have hbus := busError_congr hv.busErrors
    simp only [← hf, ← helem, ← hbus] at hi hj hbefore hfail ⊢
    exact hblockv.storeBlockOn_raised hi hj hbefore hfail
  obtain ⟨hexec, hrec, hidle, hd, hvalid, hregs, hworld⟩ := exec_busError hc habort hchecks (hbody _ _ hraised) hv.memBefore
  refine ⟨_, hexec, hrec, hidle, fun k l hk hl hlt => ?_, fun a ha => ?_, fun hc => ?_, hd, hvalid, hregs, hworld⟩
  · rw [errorEnd_mem, errorEnd_p, ← helem]
    exact hblockv.read_storeFirst hwfv (hf ▸ hk) (hf ▸ hl) (hf ▸ hlt)
  · rw [errorEnd_mem, ← hv.mem]
    exact read_storeFirst_other hwfv fun k l hk hl hlt => helem k l ▸ ha k l (hf ▸ hk) (hf ▸ hl) (hf ▸ hlt)
  · obtain rfl := hstore hc
    simp [SameBuffers]

end Sys2Proof.BlockTransfer
end

section
/-! PROOFS. The block cursor (spec/43_block_io.md R88, R91): the k-th block in row-major order advances to the (k + 1)-th, and
CURSOR_NEXT is one such advance. -/

namespace Sys2Proof.BlockCursor

open Sys2Proof Sys2Proof.Machine Sys2Proof.CommandWords Sys2Proof.BasisForward Sys2Proof.BlockTransfer

variable {s : State} {br bc : Nat}

/-! ### The advance function (R88) -/

theorem nextBlock_rowMajor {k : Nat} (hk : k + 1 < br * bc) :
    nextBlock br bc (k / bc) (k % bc) = ((k + 1) / bc, (k + 1) % bc) := by
  have hbc : 0 < bc := Nat.pos_of_ne_zero fun h => by simp [h] at hk
  have hrow : k / bc < br := (Nat.div_lt_iff_lt_mul hbc).mpr (by omega)
  have hpos : k / bc * bc + k % bc = k := Nat.div_add_mod' k bc
  obtain ⟨-, hcol, hindex⟩ := nextBlock_index hrow (Nat.mod_lt k hbc) (by omega)
  obtain ⟨hdiv, hmod⟩ := rowMajor_div_mod (r := (nextBlock br bc (k / bc) (k % bc)).1) hcol
  rw [hindex, hpos] at hdiv hmod
  rw [hdiv, hmod]

theorem nextBlock_fst (br bc r q : Nat) :
    (nextBlock br bc r q).1 = if q + 1 < bc then r else if r + 1 < br then r + 1 else 0 := by
  unfold nextBlock
  split_ifs <;> rfl

theorem nextBlock_snd (br bc r q : Nat) : (nextBlock br bc r q).2 = if q + 1 < bc then q + 1 else 0 := by
  unfold nextBlock
  split_ifs <;> rfl

theorem nextBlock_last : nextBlock (br + 1) (bc + 1) br bc = (0, 0) := by simp [nextBlock]

theorem iterate_nextBlock {k : Nat} (hk : k < br * bc) :
    (fun e : Nat × Nat => nextBlock br bc e.1 e.2)^[k] (0, 0) = (k / bc, k % bc) := by
  induction k with
  | zero => simp
  | succ k ih => rw [Function.iterate_succ_apply', ih (by omega), nextBlock_rowMajor hk]

theorem iterate_nextBlock_wraps (hbr : 0 < br) (hbc : 0 < bc) :
    (fun e : Nat × Nat => nextBlock br bc e.1 e.2)^[br * bc] (0, 0) = (0, 0) := by
  obtain ⟨r, rfl⟩ := Nat.exists_eq_add_one.mpr hbr
  obtain ⟨q, rfl⟩ := Nat.exists_eq_add_one.mpr hbc
  have hlast : (r + 1) * (q + 1) = (r * (q + 1) + q) + 1 := by ring
  obtain ⟨hdiv, hmod⟩ := rowMajor_div_mod (r := r) q.lt_add_one
  rw [hlast, Function.iterate_succ_apply', iterate_nextBlock (by omega), hdiv, hmod, nextBlock_last]

/-- Settles O36: by induction on the number of steps, the last of which wraps. -/
theorem cursorVisitsEveryBlockOnce : Obligations.CursorVisitsEveryBlockOnce :=
  fun _ _ hbr hbc => ⟨fun _ hk => iterate_nextBlock hk, iterate_nextBlock_wraps hbr hbc⟩

/-! ### CURSOR_NEXT (R91) -/

/-- CURSOR holds every block index of the grid, so the advance does not wrap within a field. -/
theorem nextCursor_toNat (s : State) :
    (s.nextCursor.row.toNat, s.nextCursor.col.toNat) = nextBlock s.br s.bc s.cursor.row.toNat s.cursor.col.toNat := by
  obtain ⟨hbr, hbc, -⟩ := grid_lt s
  have hrow := s.cursor.row.isLt
  have hfits : (nextBlock s.br s.bc s.cursor.row.toNat s.cursor.col.toNat).1 < 2 ^ 16 ∧
      (nextBlock s.br s.bc s.cursor.row.toNat s.cursor.col.toNat).2 < 2 ^ 16 := by
    rw [nextBlock_fst, nextBlock_snd]
    constructor <;> split_ifs <;> omega
  simp only [State.nextCursor, BitVec.toNat_ofNat, Nat.mod_eq_of_lt hfits.1, Nat.mod_eq_of_lt hfits.2]

/-- CURSOR_NEXT without a pending abort or a failing check (R91). -/
theorem exec_cursorNext (habort : s.ctl.abortPending = false) (hchecks : cursorChecks s = none) :
    exec .cursorNext s = .next (complete { s with cursor := s.nextCursor }) :=
  workStep_done (body := fun t => .done { t with cursor := t.nextCursor }) habort hchecks rfl

/-- Settles O35: CURSOR_NEXT writes the advance of CURSOR, and a failing check ends it before. -/
theorem cursorNextAdvancesRowMajor : Obligations.CursorNextAdvancesRowMajor := by
  refine ⟨decode_eq_command_iff.mpr (by decide), fun s habort => ⟨fun hchecks => ?_, fun c hcheck => ?_⟩⟩
  · obtain ⟨hrow, hcol⟩ := Prod.ext_iff.mp (nextCursor_toNat s)
    refine ⟨_, exec_cursorNext habort hchecks, ⟨rfl, rfl⟩, ?_, ?_, ?_⟩
    · exact hrow.trans (nextBlock_fst _ _ _ _)
    · exact hcol.trans (nextBlock_snd _ _ _ _)
    · simp [SameBuffers, SameErrors, SameMemory, SameWorld]
  · obtain ⟨-, -, -, -, hbus⟩ := checksOf_cause (i := .cursorNext) (p := .validate) hcheck
    exact workStep_endedWith (body := fun t => .done { t with cursor := t.nextCursor }) habort hcheck hbus

end Sys2Proof.BlockCursor
end

section
/-! PROOFS. Decompose and reassemble without a transform (spec/43_block_io.md R92): one turn of the loop copies the block at
CURSOR and advances CURSOR, and a loop invariant says which pixels of the output image are copied. -/

namespace Sys2Proof.BlockCopy

open Sys2Proof Sys2Proof.Machine Sys2Proof.BlockTransfer Sys2Proof.BlockCursor Sys2Proof.MemoryWrites

variable {s t u v : State}

/-! ### One turn of the loop -/

/-- What the three commands of the loop need: no pending abort, passing checks, and an answer to every access. -/
structure Transferable (s : State) : Prop where
  noAbort : s.ctl.abortPending = false
  load : loadChecks s = none
  store : storeChecks s = none
  answers : BlockAnswers s

/-- LOAD_BLOCK and STORE_BLOCK check the configuration registers and CURSOR alone (R126). -/
theorem transferChecks_congr (hcfg : t.cfg = s.cfg) (hcursor : t.cursor = s.cursor) :
    loadChecks t = loadChecks s ∧ storeChecks t = storeChecks s :=
  ⟨allOf_congr (by simp [checkFFull_congr hcfg, checkSrcStride_congr hcfg, checkSrcRange_congr hcfg,
      checkCursor_congr hcfg hcursor]),
    allOf_congr (by simp [checkFFull_congr hcfg, checkDstStride_congr hcfg, checkDstRange_congr hcfg,
      checkCursor_congr hcfg hcursor])⟩

namespace Transferable

theorem congr (h : Transferable s) (hcfg : t.cfg = s.cfg) (hcursor : t.cursor = s.cursor)
    (hbus : t.busErrors = s.busErrors) (habort : t.ctl.abortPending = false) : Transferable t := by
  obtain ⟨hload, hstore⟩ := transferChecks_congr hcfg hcursor
  refine ⟨habort, hload.trans h.load, hstore.trans h.store, ?_⟩
  simpa only [BlockAnswers, f_congr hcfg, srcElem_congr hcfg hcursor, dstElem_congr hcfg hcursor, busError_congr hbus]
    using h.answers

theorem accepted (h : Transferable s) (i : Instr) : Transferable (accept i s) := h.congr rfl rfl rfl h.noAbort

theorem cursorChecks_pass (h : Transferable s) : cursorChecks s = none := by
  obtain ⟨hfull, -, -, hcursor⟩ := loadChecks_none.mp h.load
  exact cursorChecks_none.mpr ⟨hfull, hcursor⟩

theorem fits (h : Transferable s) : s.f ≤ Config.nMax := (srcBlock_of_loadChecks h.load).fits

end Transferable

/-- A command that the idle engine accepts and runs, in front of other commands. -/
theorem issueAll_of_exec {i : Instr} (h : exec i (accept i s) = .next t) (is : List Instr) :
    issueAll (i :: is) s = issueAll is t := by
  rw [issueAll, h]

namespace Transferable

/-- LOAD_BLOCK puts the block at CURSOR into P (R89). -/
theorem issue_loadBlock (h : Transferable u) :
    ∃ t, (∀ is, issueAll (.loadBlock :: is) u = issueAll is t) ∧ Transferable t ∧ SameBlock u t ∧
      t.busErrors = u.busErrors ∧ ∀ i j, i < u.f → j < u.f → t.p.elem i j = u.mem.read (u.srcElem i j) := by
  have ha := h.accepted .loadBlock
  refine ⟨_, issueAll_of_exec (exec_loadBlock ha.noAbort ha.load fun i j hi hj => (ha.answers i j hi hj).1),
    ha.congr (by simp) (by simp) (by simp) rfl, ⟨by simp, by simp, by simp⟩, by simp, fun i j hi hj => ?_⟩
  exact (elem_loadFirst_p ha.fits _ i j).trans (if_pos ⟨hi, hj, index_lt hi hj⟩)

/-- STORE_BLOCK writes P to the block at CURSOR (R90). -/
theorem issue_storeBlock (h : Transferable u) (hwf : u.mem.wf = true) :
    ∃ t, (∀ is, issueAll (.storeBlock :: is) u = issueAll is t) ∧ Transferable t ∧ t.cfg = u.cfg ∧ t.cursor = u.cursor ∧
      t.busErrors = u.busErrors ∧ t.mem.wf = true ∧
      (∀ i j, i < u.f → j < u.f → t.mem.read (u.dstElem i j) = u.p.elem i j) ∧ SameOffBlock u t.mem := by
  have ha := h.accepted .storeBlock
  refine ⟨_, issueAll_of_exec (exec_storeBlock ha.noAbort ha.store fun i j hi hj => (ha.answers i j hi hj).2),
    ha.congr (by simp) (by simp) (by simp) rfl, by simp, by simp, by simp, wf_storeFirst hwf _, fun i j hi hj => ?_,
    fun a hout => ?_⟩
  · exact (dstBlock_of_storeChecks ha.store).read_storeFirst hwf hi hj (index_lt hi hj)
  · exact read_storeFirst_other hwf fun i j hi hj _ => hout i j hi hj

/-- CURSOR_NEXT advances CURSOR alone (R91). -/
theorem issue_cursorNext (h : Transferable u) :
    ∃ t, (∀ is, issueAll (.cursorNext :: is) u = issueAll is t) ∧ t.cfg = u.cfg ∧ t.busErrors = u.busErrors ∧
      t.ctl = Ctl.idle ∧ t.mem = u.mem ∧ t.cursor = u.nextCursor :=
  have ha := h.accepted .cursorNext
  ⟨_, issueAll_of_exec (exec_cursorNext ha.noAbort ha.cursorChecks_pass), rfl, rfl, rfl, rfl, rfl⟩

end Transferable

/-- The block at CURSOR of `u` is copied, CURSOR has advanced, and nothing else that the loop depends on has changed. -/
structure BlockCopied (u v : State) : Prop where
  cfg : v.cfg = u.cfg
  busErrors : v.busErrors = u.busErrors
  idle : v.ctl = Ctl.idle
  memory : v.mem.wf = true
  cursor : v.cursor = u.nextCursor
  block : ∀ i j, i < u.f → j < u.f → v.mem.read (u.dstElem i j) = u.mem.read (u.srcElem i j)
  others : SameOffBlock u v.mem

/-- The body of the loop, in front of other commands: what LOAD_BLOCK put into P, STORE_BLOCK writes while CURSOR still names the
same block. -/
theorem Transferable.issue_copyBlock (h : Transferable u) (hwf : u.mem.wf = true) :
    ∃ v, (∀ is, issueAll (.loadBlock :: .storeBlock :: .cursorNext :: is) u = issueAll is v) ∧ BlockCopied u v := by
  obtain ⟨t1, hload, h1, hblock, hbus1, hp⟩ := h.issue_loadBlock
  obtain ⟨t2, hstore, h2, hcfg2, hcursor2, hbus2, hwf2, hwritten, hothers⟩ := h1.issue_storeBlock (hblock.mem ▸ hwf)
  obtain ⟨v, hnext, hcfg3, hbus3, hidle, hmem3, hcursor3⟩ := h2.issue_cursorNext
  have hcfg : t2.cfg = u.cfg := hcfg2.trans hblock.cfg
  have hcursor : t2.cursor = u.cursor := hcursor2.trans hblock.cursor
  refine ⟨v, fun is => by rw [hload, hstore, hnext], hcfg3.trans hcfg, hbus3.trans (hbus2.trans hbus1), hidle, ?_,
    hcursor3.trans (nextCursor_congr hcfg hcursor), fun i j hi hj => ?_, ?_⟩
  · rwa [hmem3]
  · rw [← f_congr hblock.cfg] at hi hj
    rw [hmem3, ← dstElem_congr hblock.cfg hblock.cursor, hwritten i j hi hj]
    exact hp i j (f_congr hblock.cfg ▸ hi) (f_congr hblock.cfg ▸ hj)
  · rw [hmem3]
    exact hblock.sameOffBlock hothers

/-! ### Pixels and blocks -/

/-- A pixel of the truncated images is element (r mod F, q mod F) of the block (r / F, q / F) (R93). -/
theorem elem_eq_pixel (hcfg : u.cfg = s.cfg) {r q : Nat} (hrow : u.cursor.row.toNat = r / s.f)
    (hcol : u.cursor.col.toNat = q / s.f) :
    u.srcElem (r % s.f) (q % s.f) = s.srcPixel r q ∧ u.dstElem (r % s.f) (q % s.f) = s.dstPixel r q := by
  simp only [State.srcElem, State.dstElem, srcPixel_congr hcfg, dstPixel_congr hcfg, f_congr hcfg, hrow, hcol,
    Nat.div_add_mod', and_self]

/-- The elements of the block at CURSOR are pixels of its rows and columns. -/
theorem pixel_of_elem (hcfg : u.cfg = s.cfg) (i j : Nat) :
    u.srcElem i j = s.srcPixel (u.cursor.row.toNat * s.f + i) (u.cursor.col.toNat * s.f + j) ∧
      u.dstElem i j = s.dstPixel (u.cursor.row.toNat * s.f + i) (u.cursor.col.toNat * s.f + j) := by
  simp only [State.srcElem, State.dstElem, srcPixel_congr hcfg, dstPixel_congr hcfg, f_congr hcfg, and_self]

/-- The source pixels are apart from the output pixels when the regions are (R8). -/
theorem srcPixel_ne_dstPixel (hapart : s.srcEnd < s.cfg.dstBase.toNat ∨ s.dstEnd < s.cfg.srcBase.toNat)
    {r q r' q' : Nat} (hr : r < s.rt) (hq : q < s.ct) (hr' : r' < s.rt) (hq' : q' < s.ct) :
    s.srcPixel r q ≠ s.dstPixel r' q' := by
  have hsrc : s.cfg.srcBase.toNat ≤ s.srcPixel r q ∧ s.srcPixel r q ≤ s.srcEnd :=
    ⟨by rw [State.srcPixel]; omega, pixel_le hr hq⟩
  have hdst : s.cfg.dstBase.toNat ≤ s.dstPixel r' q' ∧ s.dstPixel r' q' ≤ s.dstEnd :=
    ⟨by rw [State.dstPixel]; omega, pixel_le hr' hq'⟩
  omega

/-! ### The loop invariant -/

/-- What R92 asks of the state the loop starts from. -/
structure CopySetup (s : State) : Prop where
  load : loadChecks s = none
  store : storeChecks s = none
  apart : s.srcEnd < s.cfg.dstBase.toNat ∨ s.dstEnd < s.cfg.srcBase.toNat
  answers : PixelsAnswer s

/-- After k turns of the loop CURSOR is at block k, the source image is as it was, and the pixels of the first k blocks are
copied. -/
structure CopiedBlocks (s : State) (k : Nat) (u : State) : Prop where
  cfg : u.cfg = s.cfg
  busErrors : u.busErrors = s.busErrors
  idle : u.ctl = Ctl.idle
  memory : u.mem.wf = true
  cursor : (u.cursor.row.toNat, u.cursor.col.toNat) = (fun e : Nat × Nat => nextBlock s.br s.bc e.1 e.2)^[k] (0, 0)
  source : ∀ r q, r < s.rt → q < s.ct → u.mem.read (s.srcPixel r q) = s.mem.read (s.srcPixel r q)
  output : ∀ r q, r < s.rt → q < s.ct → r / s.f * s.bc + q / s.f < k →
    u.mem.read (s.dstPixel r q) = s.mem.read (s.srcPixel r q)

/-- CURSOR in the middle of the loop is in the grid, at the k-th block. -/
theorem CopiedBlocks.cursor_index {k : Nat} (h : CopiedBlocks s k u) (hk : k < s.nb) :
    u.cursor.row.toNat < s.br ∧ u.cursor.col.toNat < s.bc ∧ u.cursor.row.toNat * s.bc + u.cursor.col.toNat = k := by
  have hbc : 0 < s.bc := Nat.pos_of_ne_zero fun h0 => by simp [State.nb, h0] at hk
  obtain ⟨hrow, hcol⟩ := Prod.mk.inj (h.cursor.trans (iterate_nextBlock hk))
  rw [hrow, hcol]
  exact ⟨(Nat.div_lt_iff_lt_mul hbc).mpr hk, Nat.mod_lt k hbc, Nat.div_add_mod' k s.bc⟩

theorem CopiedBlocks.transferable {k : Nat} (h : CopiedBlocks s k u) (hs : CopySetup s) (hk : k < s.nb) :
    Transferable u := by
  obtain ⟨hrow, hcol, -⟩ := h.cursor_index hk
  have hcursor : checkCursor u = none := checkCursor_none.mpr ⟨by rwa [br_congr h.cfg], by rwa [bc_congr h.cfg]⟩
  obtain ⟨hfull, hsstride, hsrange, -⟩ := loadChecks_none.mp hs.load
  obtain ⟨-, hdstride, hdrange, -⟩ := storeChecks_none.mp hs.store
  rw [← checkFFull_congr h.cfg] at hfull
  refine ⟨by rw [h.idle]; rfl, ?_, ?_, fun i j hi hj => ?_⟩
  · exact loadChecks_none.mpr ⟨hfull, (checkSrcStride_congr h.cfg).trans hsstride, (checkSrcRange_congr h.cfg).trans hsrange,
      hcursor⟩
  · exact storeChecks_none.mpr ⟨hfull, (checkDstStride_congr h.cfg).trans hdstride, (checkDstRange_congr h.cfg).trans hdrange,
      hcursor⟩
  · rw [f_congr h.cfg] at hi hj
    rw [busError_congr h.busErrors, busError_congr h.busErrors, (pixel_of_elem h.cfg i j).1, (pixel_of_elem h.cfg i j).2]
    exact hs.answers _ _ (index_lt hrow hi) (index_lt hcol hj)

/-- One turn of the loop keeps the invariant. -/
theorem CopiedBlocks.succ {k : Nat} (h : CopiedBlocks s k u) (hs : CopySetup s) (hk : k < s.nb) (hv : BlockCopied u v) :
    CopiedBlocks s (k + 1) v := by
  obtain ⟨hrow, hcol, hindex⟩ := h.cursor_index hk
  obtain ⟨hf, -⟩ := checkFFull_block (loadChecks_none.mp hs.load).1
  have hstride := (dstBlock_of_storeChecks hs.store).stride
  have hfu : u.f = s.f := f_congr h.cfg
  refine ⟨hv.cfg.trans h.cfg, hv.busErrors.trans h.busErrors, hv.idle, hv.memory, ?cursor, fun r q hr hq => ?source,
    fun r q hr hq hlt => ?output⟩
  case cursor =>
    rw [hv.cursor, nextCursor_toNat, br_congr h.cfg, bc_congr h.cfg, Function.iterate_succ_apply', ← h.cursor]
  case source =>
    rw [hv.others _ fun i j hi hj => ?_, h.source r q hr hq]
    rw [hfu] at hi hj
    rw [(pixel_of_elem h.cfg i j).2]
    exact srcPixel_ne_dstPixel hs.apart hr hq (index_lt hrow hi) (index_lt hcol hj)
  case output =>
    by_cases hhere : u.cursor.row.toNat = r / s.f ∧ u.cursor.col.toNat = q / s.f
    · obtain ⟨hsrc, hdst⟩ := elem_eq_pixel h.cfg hhere.1 hhere.2
      have hread := hv.block (r % s.f) (q % s.f) ((Nat.mod_lt r hf).trans_eq hfu.symm) ((Nat.mod_lt q hf).trans_eq hfu.symm)
      rw [hsrc, hdst] at hread
      rw [hread, h.source r q hr hq]
    · have hearlier : r / s.f * s.bc + q / s.f ≠ k := by
        intro heq
        rw [← hindex] at heq
        have hqb : q / s.f < s.bc := (Nat.div_lt_iff_lt_mul hf).mpr hq
        obtain ⟨h1, h2⟩ := rowMajor_inj hqb hcol heq
        exact hhere ⟨h1.symm, h2.symm⟩
      rw [hv.others _ fun i j hi hj heq => ?_, h.output r q hr hq (by omega)]
      rw [hfu] at hi hj
      rw [(pixel_of_elem h.cfg i j).2] at heq
      obtain ⟨rfl, rfl⟩ := dstPixel_inj hstride hq (index_lt hcol hj) heq
      exact hhere ⟨(rowMajor_div_mod hi).1.symm, (rowMajor_div_mod hj).1.symm⟩

theorem copiedBlocks_zero (hidle : s.ctl = Ctl.idle) (hwf : s.mem.wf = true) (hcursor : s.cursor = ⟨0#16, 0#16⟩) :
    CopiedBlocks s 0 s :=
  ⟨rfl, rfl, hidle, hwf, by rw [hcursor]; rfl, fun _ _ _ _ => rfl, fun _ _ _ _ h => absurd h (Nat.not_lt_zero _)⟩

/-- The turns of the loop that are left run to its end. -/
theorem CopiedBlocks.run {k n : Nat} (h : CopiedBlocks s k u) (hs : CopySetup s) (hn : k + n = s.nb) :
    ∃ t, issueAll ((List.replicate n [Instr.loadBlock, .storeBlock, .cursorNext]).flatten) u = .next t ∧
      CopiedBlocks s s.nb t := by
  induction n generalizing k u with
  | zero => exact ⟨u, rfl, hn ▸ h⟩
  | succ n ih =>
    obtain ⟨v, hturn, hv⟩ := (h.transferable hs (by omega)).issue_copyBlock h.memory
    obtain ⟨t, hrest, ht⟩ := ih (h.succ hs (by omega) hv) (by omega)
    exact ⟨t, (hturn _).trans hrest, ht⟩

/-- Settles O37: after NB turns every pixel is in a block that is copied, and CURSOR has wrapped. -/
theorem decomposeReassembleCopiesTheImage : Obligations.DecomposeReassembleCopiesTheImage := by
  intro s hwf hidle hcursor hload hstore hapart hanswers
  obtain ⟨hf, -, -, -, hbr, hbc⟩ := checkFFull_block (loadChecks_none.mp hload).1
  obtain ⟨t, hrun, ht⟩ := (copiedBlocks_zero hidle hwf hcursor).run ⟨hload, hstore, hapart, hanswers⟩ (Nat.zero_add _)
  obtain ⟨hrow, hcol⟩ := Prod.mk.inj (ht.cursor.trans (iterate_nextBlock_wraps hbr hbc))
  refine ⟨t, hrun, ?_, fun r q hr hq => ht.output r q hr hq ?_⟩
  · exact congrArg₂ Cursor.mk (BitVec.eq_of_toNat_eq hrow) (BitVec.eq_of_toNat_eq hcol)
  · exact index_lt ((Nat.div_lt_iff_lt_mul hf).mpr hr) ((Nat.div_lt_iff_lt_mul hf).mpr hq)

end Sys2Proof.BlockCopy
end

section
/-! PROOFS. The checks of VALIDATE and of RUN step 0 (spec/44_pipeline.md R94, R96): together they are the legal parameters, and
what follows a pass or a failure of them. -/

namespace Sys2Proof.RunValidation

open Sys2Proof Sys2Proof.Machine Sys2Proof.BasisForward

variable {s : State} {c : Cause}

theorem inPlace_iff : s.inPlace = true ↔ s.cfg.dstBase = s.cfg.srcBase ∧ s.cfg.dstStride = s.cfg.srcStride := by
  simp only [State.inPlace, Bool.and_eq_true, beq_iff_eq]

/-- The checks of VALIDATE pass for exactly the legal parameters and layouts (R94, R125). -/
theorem validateAll_none_iff_legalParameters : validateAll s = none ↔ LegalParameters s := by
  have hlast : ∀ a : Nat, a < 2 ^ Config.addrW ↔ a ≤ 2 ^ 32 - 1 := fun _ => Nat.lt_iff_le_pred (Nat.two_pow_pos 32)
  rw [validateAll_none, checkFFull_none, checkThreshold_none, checkSrcStride_none, checkDstStride_none,
    checkSrcRange_none, checkDstRange_none, checkOverlap_none, inPlace_iff, hlast, hlast]
  simp only [LegalParameters, and_assoc]

theorem validateAll_cause (h : validateAll s = some c) : isBusError c = false := by
  obtain ⟨-, -, -, -, hbus⟩ := checksOf_cause (i := .validate) (p := .validate) h
  exact hbus

/-! ### VALIDATE (R94) -/

theorem exec_validate (habort : s.ctl.abortPending = false) (hvalid : validateAll s = none) :
    exec .validate s = .next (complete s) :=
  workStep_done (body := fun t => .done t) habort hvalid rfl

theorem exec_validate_endedWith (habort : s.ctl.abortPending = false) (hcheck : validateAll s = some c) :
    ∃ t, exec .validate s = .next t ∧ EndedWith c s t :=
  workStep_endedWith (body := fun t => .done t) habort hcheck (validateAll_cause hcheck)

/-- Settles O19: the checks pass for exactly the legal parameters, and past them there is only the completion. -/
theorem validatePassesExactlyLegalParameters : Obligations.ValidatePassesExactlyLegalParameters := by
  refine fun s habort => ⟨fun hlegal => ?_, fun hillegal => ?_⟩
  · refine ⟨_, exec_validate habort (validateAll_none_iff_legalParameters.mpr hlegal), ⟨rfl, rfl⟩, ?_⟩
    simp [SameErrors, SameRegisters, SameBuffers, SameMemory, SameWorld]
  · rw [← validateAll_none_iff_legalParameters] at hillegal
    obtain ⟨c, hcheck⟩ := Option.ne_none_iff_exists'.mp hillegal
    exact ⟨c, exec_validate_endedWith habort hcheck⟩

/-! ### RUN step 0 (R96) -/

theorem exec_run_of_validate (hphase : s.ctl.phase = .validate) :
    exec .run s = workStep validateAll (fun t => .more (runStartOn t)) s := by
  simp only [exec, execRun, hphase]

theorem exec_run_start (habort : s.ctl.abortPending = false) (hphase : s.ctl.phase = .validate)
    (hvalid : validateAll s = none) : exec .run s = .next (runStartOn s) :=
  (exec_run_of_validate hphase).trans (workStep_more habort hvalid rfl)

theorem exec_run_endedWith (habort : s.ctl.abortPending = false) (hphase : s.ctl.phase = .validate)
    (hcheck : validateAll s = some c) : ∃ t, exec .run s = .next t ∧ EndedWith c s t := by
  rw [exec_run_of_validate hphase]
  exact workStep_endedWith habort hcheck (validateAll_cause hcheck)

/-- The elements of D that RUN step 0 leaves (R96). -/
theorem elem_runStartOn_d (hf : s.f ≤ Config.nMax) (l j : Nat) :
    (runStartOn s).d.elem l j = if l < s.f ∧ j < s.f then basis s.f l j else s.d.elem l j := by
  rw [runStartOn_d, Mat.elem_setBlock hf]

/-- Settles O38: past the checks the body of step 0 writes the F × F block of D and the registers named, and nothing else. -/
theorem runStartsWithValidationAndBasis : Obligations.RunStartsWithValidationAndBasis := by
  refine fun s habort hphase => ⟨fun hvalid => ?_, fun c hcheck => exec_run_endedWith habort hphase hcheck⟩
  obtain ⟨-, -, -, hfits, hbr, hbc⟩ := checkFFull_block (validateAll_none.mp hvalid).1
  have hd := elem_runStartOn_d hfits
  have hctl : (runStartOn s).ctl = ⟨s.ctl.busy, s.ctl.curCmd, false, .blocks⟩ := by
    simp only [runStartOn_ctl, habort]
  have hnb : 1 ≤ s.nb := Nat.mul_pos hbr hbc
  refine ⟨_, exec_run_start habort hphase hvalid, hctl, runStartOn_basisValid s, runStartOn_cursor s,
    runStartOn_blocksDone s, fun l j hl hj => ?_, fun l j hout => ?_, ?_⟩
  · exact (hd l j).trans (if_pos ⟨hl, hj⟩)
  · exact (hd l j).trans (if_neg hout)
  · simp [SameErrors, SameMemory, SameWorld, hnb]

end Sys2Proof.RunValidation
end

section
/-! PROOFS. A block step of RUN (spec/44_pipeline.md R97): what it leaves when no access fails, and that the single commands
leave the same (R98). -/

namespace Sys2Proof.RunBlockStep

open Sys2Proof Sys2Proof.Machine Sys2Proof.BasisForward Sys2Proof.FrequencyMask Sys2Proof.InverseRecon
  Sys2Proof.BlockTransfer Sys2Proof.BlockCursor Sys2Proof.BlockCopy

variable {s t u : State}

/-! ### What a block step and the single commands need -/

/-- The parameters, the basis and CURSOR are valid, no abort is pending, and every access to the block at CURSOR is answered. -/
structure BlockReady (s : State) : Prop where
  noAbort : s.ctl.abortPending = false
  valid : validateAll s = none
  basis : s.basisValid = true
  row : s.cursor.row.toNat < s.br
  col : s.cursor.col.toNat < s.bc
  answers : BlockAnswers s

/-- The two states agree in what `BlockReady` speaks of, the abort aside. -/
structure SameSetting (s t : State) : Prop where
  cfg : t.cfg = s.cfg
  cursor : t.cursor = s.cursor
  basisValid : t.basisValid = s.basisValid
  busErrors : t.busErrors = s.busErrors

namespace BlockReady

theorem congr (h : BlockReady s) (e : SameSetting s t) (habort : t.ctl.abortPending = false) : BlockReady t := by
  refine ⟨habort, (validateAll_congr e.cfg).trans h.valid, e.basisValid.trans h.basis, ?_, ?_, ?_⟩
  · rw [e.cursor, br_congr e.cfg]; exact h.row
  · rw [e.cursor, bc_congr e.cfg]; exact h.col
  · simpa only [BlockAnswers, f_congr e.cfg, srcElem_congr e.cfg e.cursor, dstElem_congr e.cfg e.cursor,
      busError_congr e.busErrors] using h.answers

theorem srcBlock (h : BlockReady s) : SrcBlock s := (blocks_of_validateAll h.valid h.row h.col).1

theorem dstBlock (h : BlockReady s) : DstBlock s := (blocks_of_validateAll h.valid h.row h.col).2

theorem fits (h : BlockReady s) : s.f ≤ Config.nMax := h.srcBlock.fits

/-- The checks of VALIDATE and CURSOR in the grid answer for the checks of every single command (R126). -/
theorem checks_pass (h : BlockReady s) :
    loadChecks s = none ∧ maskChecks s = none ∧ storeChecks s = none ∧ cursorChecks s = none := by
  obtain ⟨hfull, hthresh, hsstride, hdstride, hsrange, hdrange, -⟩ := validateAll_none.mp h.valid
  obtain ⟨hlow, -, -, hhigh⟩ := checkFFull_none.mp hfull
  have hcursor : checkCursor s = none := checkCursor_none.mpr ⟨h.row, h.col⟩
  exact ⟨loadChecks_none.mpr ⟨hfull, hsstride, hsrange, hcursor⟩,
    maskChecks_none.mpr ⟨checkFSize_none.mpr ⟨hlow, hhigh⟩, hthresh⟩,
    storeChecks_none.mpr ⟨hfull, hdstride, hdrange, hcursor⟩, cursorChecks_none.mpr ⟨hfull, hcursor⟩⟩

end BlockReady

/-! ### The block step (R97) -/

/-- The whole block at CURSOR is read. -/
def loadAll (s : State) : State := loadFirst (s.f * s.f) s

/-- The whole block at CURSOR is written. -/
def storeAll (s : State) : State := storeFirst (s.f * s.f) s

/-- The state after the reads, the arithmetic and the writes of a block step. -/
def processBlock (s : State) : State := storeAll (pipelineOn (loadAll s))

/-- The state after the block is counted and CURSOR has advanced. -/
def countBlock (s : State) : State := { s with blocksDone := s.blocksDone + 1#32, cursor := s.nextCursor }

theorem runCountOn_eq (s : State) :
    runCountOn s =
      if (s.blocksDone + 1#32).toNat = s.nb then .done (countBlock s) else .more (countBlock s) := rfl

theorem sameSetting_loadAll (s : State) : SameSetting s (loadAll s) := by constructor <;> simp [loadAll]

theorem sameSetting_pipelineOn (s : State) : SameSetting s (pipelineOn s) := by constructor <;> simp

theorem processBlock_outside (s : State) : SameOutside s (processBlock s) := by
  constructor <;> simp [processBlock, storeAll, loadAll]

theorem processBlock_cursor (s : State) : (processBlock s).cursor = s.cursor := by simp [processBlock, storeAll, loadAll]

theorem processBlock_basisValid (s : State) : (processBlock s).basisValid = s.basisValid := by
  simp [processBlock, storeAll, loadAll]

theorem processBlock_d (s : State) : (processBlock s).d = s.d := by simp [processBlock, storeAll, loadAll]

theorem processBlock_ctl (s : State) : (processBlock s).ctl = s.ctl := by simp [processBlock, storeAll, loadAll]

theorem processBlock_blocksDone (s : State) : (processBlock s).blocksDone = s.blocksDone := by
  simp [processBlock, storeAll, loadAll]

theorem processBlock_memBefore (s : State) : (processBlock s).memBefore = s.memBefore := by
  simp [processBlock, storeAll, loadAll]

/-- Without an error response a block step is the reads, the arithmetic and the writes of the block, and the count. -/
theorem BlockReady.runBlockOn_eq (h : BlockReady s) : runBlockOn s = runCountOn (processBlock s) := by
  have hloaded : BlockReady (loadAll s) := h.congr (sameSetting_loadAll s) h.noAbort
  have hcomputed : BlockReady (pipelineOn (loadAll s)) := hloaded.congr (sameSetting_pipelineOn _) (by simp [hloaded.noAbort])
  have hload : loadBlockOn s = .done (loadAll s) := h.srcBlock.loadBlockOn_done fun i j hi hj => (h.answers i j hi hj).1
  have hstore : storeBlockOn (pipelineOn (loadAll s)) = .done (processBlock s) :=
    hcomputed.dstBlock.storeBlockOn_done fun i j hi hj => (hcomputed.answers i j hi hj).2
  rw [runBlockOn, hload, Work.andThen, hstore, Work.andThen]

/-- The count ends the body of the last block step, and lets RUN go on after every other. -/
theorem BlockReady.body_eq (h : BlockReady s) :
    withBlock runBlockOn s =
      if (s.blocksDone + 1#32).toNat = s.nb then .done (countBlock (processBlock s))
      else .more (countBlock (processBlock s)) := by
  rw [withBlock_fits h.fits, h.runBlockOn_eq, runCountOn_eq, ← processBlock_blocksDone s,
    ← nb_congr (processBlock_outside s).cfg]

/-- `s` with other control state and events, and another note of memory: what accepting and completing a command change
(R108, R122). -/
def withControl (c : Ctl) (q : IrqBits) (m : Memory) (s : State) : State :=
  { s with ctl := c, irqStatus := q, memBefore := m }

theorem withControl_self (s : State) : withControl s.ctl s.irqStatus s.memBefore s = s := rfl

theorem complete_eq_withControl (s : State) :
    complete s = withControl Ctl.idle ⟨true, s.irqStatus.err⟩ s.memBefore s := rfl

/-- What a block step leaves: the block is processed and counted, and RUN is completed after the last block or goes on. -/
structure BlockStepped (s t : State) : Prop where
  state : ∃ c q, t = withControl c q s.memBefore (countBlock (processBlock s))
  last : (s.blocksDone + 1#32).toNat = s.nb → Completed s t
  more : (s.blocksDone + 1#32).toNat ≠ s.nb → t.ctl = s.ctl ∧ t.irqStatus = s.irqStatus

theorem exec_run_of_blocks (hphase : s.ctl.phase = .blocks) :
    exec .run s = workStep noChecks (withBlock runBlockOn) s := by
  simp only [exec, execRun, hphase]

theorem countBlock_control (s : State) :
    (countBlock s).ctl = s.ctl ∧ (countBlock s).irqStatus = s.irqStatus ∧ (countBlock s).memBefore = s.memBefore :=
  ⟨rfl, rfl, rfl⟩

theorem BlockReady.exec_run (h : BlockReady s) (hphase : s.ctl.phase = .blocks) :
    ∃ t, exec .run s = .next t ∧ BlockStepped s t := by
  have hbody := h.body_eq
  obtain ⟨hctl, hirq, hnote⟩ := countBlock_control (processBlock s)
  rw [processBlock_ctl] at hctl
  rw [(processBlock_outside s).irqStatus] at hirq
  rw [processBlock_memBefore] at hnote
  rw [exec_run_of_blocks hphase]
  by_cases hlast : (s.blocksDone + 1#32).toNat = s.nb
  · rw [if_pos hlast] at hbody
    refine ⟨_, workStep_done h.noAbort rfl hbody, ⟨Ctl.idle, ⟨true, s.irqStatus.err⟩, ?_⟩,
      fun _ => ⟨complete_ctl _, ?_⟩, fun hne => absurd hlast hne⟩
    · rw [complete_eq_withControl, hirq, hnote]
    · rw [complete_irqStatus, hirq]
  · rw [if_neg hlast] at hbody
    refine ⟨_, workStep_more h.noAbort rfl hbody, ⟨s.ctl, s.irqStatus, ?_⟩, fun heq => absurd heq hlast,
      fun _ => ⟨hctl, hirq⟩⟩
    rw [← hctl, ← hirq, ← hnote, withControl_self]

/-! ### The single commands (R98) -/

/-- The two states agree but for the control state, the events and the note of memory. -/
def SameButControl (s t : State) : Prop := ∃ c q m, t = withControl c q m s

theorem SameButControl.accept (h : SameButControl s t) (i : Instr) : SameButControl s (accept i t) := by
  obtain ⟨c, q, m, rfl⟩ := h
  exact ⟨_, _, _, rfl⟩

theorem SameButControl.complete (h : SameButControl s t) : SameButControl s (complete t) := by
  obtain ⟨c, q, m, rfl⟩ := h
  exact ⟨_, _, _, rfl⟩

/-- A single command that completes with its body done; the body leaves the parameters, the basis and CURSOR, and reads nothing
that accepting and completing a command change. -/
structure IsBlockCommand (i : Instr) (body : State → State) : Prop where
  exec_next : ∀ u, BlockReady u → exec i u = .next (complete (body u))
  same : ∀ u, SameSetting u (body u)
  control : ∀ c q m u, body (withControl c q m u) = withControl c q m (body u)

theorem isBlockCommand_loadBlock : IsBlockCommand .loadBlock loadAll where
  exec_next _ h := exec_loadBlock h.noAbort h.checks_pass.1 fun i j hi hj => (h.answers i j hi hj).1
  same := sameSetting_loadAll
  control _ _ _ _ := rfl

theorem isBlockCommand_fdct : IsBlockCommand .fdct fdctOn where
  exec_next _ h := isTransform_fdct.exec_next h.noAbort h.basis h.fits
  same u := by constructor <;> simp
  control _ _ _ _ := rfl

theorem isBlockCommand_mask : IsBlockCommand .mask maskOn where
  exec_next _ h := by
    obtain ⟨-, hchecks, -⟩ := h.checks_pass
    obtain ⟨hsize, hthresh⟩ := maskChecks_none.mp hchecks
    exact exec_mask h.noAbort hsize hthresh
  same u := by constructor <;> simp
  control _ _ _ _ := rfl

theorem isBlockCommand_idct : IsBlockCommand .idct idctOn where
  exec_next _ h := isTransform_idct.exec_next h.noAbort h.basis h.fits
  same u := by constructor <;> simp
  control _ _ _ _ := rfl

theorem isBlockCommand_recon : IsBlockCommand .recon reconOn where
  exec_next _ h := by
    obtain ⟨-, hchecks, -⟩ := h.checks_pass
    obtain ⟨hsize, -⟩ := maskChecks_none.mp hchecks
    exact exec_recon h.noAbort hsize
  same u := by constructor <;> simp
  control _ _ _ _ := rfl

theorem isBlockCommand_storeBlock : IsBlockCommand .storeBlock storeAll where
  exec_next _ h := by
    obtain ⟨-, -, hchecks, -⟩ := h.checks_pass
    exact exec_storeBlock h.noAbort hchecks fun i j hi hj => (h.answers i j hi hj).2
  same _ := ⟨rfl, rfl, rfl, rfl⟩
  control _ _ _ _ := rfl

/-- The idle engine accepts the command and runs it, in front of other commands: its body is done, and the next command finds
what it needs (R108, R122). -/
theorem BlockReady.issue {i : Instr} {body : State → State} (h : BlockReady t) (hi : IsBlockCommand i body)
    (hs : SameButControl s t) :
    ∃ u, BlockReady u ∧ SameButControl (body s) u ∧ ∀ is, issueAll (i :: is) t = issueAll is u := by
  have haccept : BlockReady (accept i t) := h.congr ⟨rfl, rfl, rfl, rfl⟩ h.noAbort
  have hbody : SameButControl (body s) (body (accept i t)) := by
    obtain ⟨c, q, m, heq⟩ := hs.accept i
    exact ⟨c, q, m, by rw [heq, hi.control]⟩
  obtain ⟨hcfg, hcursor, hvalid, hbus⟩ := hi.same (accept i t)
  exact ⟨complete (body (accept i t)), haccept.congr ⟨hcfg, hcursor, hvalid, hbus⟩ rfl, hbody.complete,
    issueAll_of_exec (hi.exec_next _ haccept)⟩

/-- CURSOR_NEXT, the last command. -/
theorem BlockReady.issue_cursorNext (h : BlockReady t) (hs : SameButControl s t) :
    ∃ u, issueAll [.cursorNext] t = .next u ∧ SameButControl { s with cursor := s.nextCursor } u := by
  have haccept : BlockReady (accept .cursorNext t) := h.congr ⟨rfl, rfl, rfl, rfl⟩ h.noAbort
  obtain ⟨-, -, -, hchecks⟩ := haccept.checks_pass
  refine ⟨_, issueAll_of_exec (exec_cursorNext haccept.noAbort hchecks) [], ?_⟩
  obtain ⟨c, q, m, rfl⟩ := hs
  exact ⟨_, _, _, rfl⟩

/-- The single commands, one by one, have the effect of a block step, the count aside. -/
theorem BlockReady.issueAll_block (h : BlockReady t) (hs : SameButControl s t) :
    ∃ u, issueAll [.loadBlock, .fdct, .mask, .idct, .recon, .storeBlock, .cursorNext] t = .next u ∧
      SameButControl { processBlock s with cursor := (processBlock s).nextCursor } u := by
  obtain ⟨t1, h1, hs1, hload⟩ := h.issue isBlockCommand_loadBlock hs
  obtain ⟨t2, h2, hs2, hfdct⟩ := h1.issue isBlockCommand_fdct hs1
  obtain ⟨t3, h3, hs3, hmask⟩ := h2.issue isBlockCommand_mask hs2
  obtain ⟨t4, h4, hs4, hidct⟩ := h3.issue isBlockCommand_idct hs3
  obtain ⟨t5, h5, hs5, hrecon⟩ := h4.issue isBlockCommand_recon hs4
  obtain ⟨t6, h6, hs6, hstore⟩ := h5.issue isBlockCommand_storeBlock hs5
  obtain ⟨u, hnext, hsu⟩ := h6.issue_cursorNext hs6
  exact ⟨u, by rw [hload, hfdct, hmask, hidct, hrecon, hstore, hnext], hsu⟩

/-- Settles O39: the block step and the single commands run the same bodies in the same order. -/
theorem runBlockStepEqualsSingleCommands : Obligations.RunBlockStepEqualsSingleCommands := by
  intro s habort hphase hvalid hbasis hrow hcol hanswers
  have h : BlockReady s := ⟨habort, hvalid, hbasis, hrow, hcol, hanswers⟩
  have hidle : BlockReady { s with ctl := Ctl.idle } := h.congr ⟨rfl, rfl, rfl, rfl⟩ rfl
  obtain ⟨t, hexec, ⟨c, q, rfl⟩, hlast, hmore⟩ := h.exec_run hphase
  obtain ⟨u, hissue, c', q', m', rfl⟩ := hidle.issueAll_block (s := s) ⟨Ctl.idle, s.irqStatus, s.memBefore, rfl⟩
  have hcount := processBlock_blocksDone s
  have hout := processBlock_outside s
  refine ⟨_, _, hexec, hissue, ?_⟩
  -- What the statement asks about the data of the block step is read off its last state alone.
  generalize processBlock s = v at *
  exact ⟨rfl, rfl, rfl, rfl, rfl, rfl, congrArg (· + 1#32) hcount, hlast, hmore,
    ⟨hout.errCode, hout.errAddr, hout.errMulti, hout.lockedWrite⟩,
    ⟨hout.busErrors, hout.inputs, hout.resp, hout.draw, rfl⟩, hout.cfg, hout.bufIndex, hout.irqEnable, hout.whold, hout.rhold⟩

end Sys2Proof.RunBlockStep
end

section
/-! PROOFS. The output of RUN (spec/44_pipeline.md R99, R102): the arithmetic of a block step computes a function of the block's
samples, F and d, and an invariant of the block phase says which output pixels it has given. -/

namespace Sys2Proof.RunOutput

open Sys2Proof Sys2Proof.Machine Sys2Proof.CommandSteps Sys2Proof.BasisForward Sys2Proof.FrequencyMask
  Sys2Proof.InverseRecon Sys2Proof.InvariantKept Sys2Proof.MemoryWrites Sys2Proof.BlockTransfer Sys2Proof.BlockCursor
  Sys2Proof.BlockCopy Sys2Proof.RunValidation Sys2Proof.RunBlockStep

variable {s t u v : State}

/-! ### What the arithmetic of a block step depends on -/

/-- Two buffers agree on their F × F blocks. -/
def AgreeOn {n : Nat} (f : Nat) (m m' : Mat (BitVec n)) : Prop := ∀ i j, i < f → j < f → m.elem i j = m'.elem i j

section
variable {f : Nat} (hf : f ≤ Config.nMax) {a a' : Nat → Nat → F64} (ha : ∀ i j, i < f → j < f → a i j = a' i j)
  {w w' : Mat F64} (hw : AgreeOn f w w')
include hf ha hw

theorem agreeOn_colPass : AgreeOn f (colPass f a w) (colPass f a' w') := fun i j hi hj => by
  rw [elem_colPass_inside a w hf hi hj, elem_colPass_inside a' w' hf hi hj]
  exact dot_congr (fun k hk => ha i k hi hk) (fun k hk => hw k j hk hj)

theorem agreeOn_rowPass : AgreeOn f (rowPass f a w) (rowPass f a' w') := fun i j hi hj => by
  rw [elem_rowPass_inside a w hf hi hj, elem_rowPass_inside a' w' hf hi hj]
  exact dot_congr (fun k hk => hw i k hi hk) (fun k hk => ha k j hk hj)

end

/-- The two states agree in what the arithmetic reads: F, d, and the F × F blocks of D and W. -/
structure SameWork (u v : State) : Prop where
  fits : v.f ≤ Config.nMax
  f_eq : u.f = v.f
  d_eq : u.dInt = v.dInt
  basis : AgreeOn v.f u.d v.d
  block : AgreeOn v.f u.w v.w

namespace SameWork

theorem update (h : SameWork u v) {w w' : Mat F64} (hw : AgreeOn v.f w w') :
    SameWork { u with w := w } { v with w := w' } :=
  ⟨h.fits, h.f_eq, h.d_eq, h.basis, hw⟩

theorem fdctOn (h : SameWork u v) : SameWork (fdctOn u) (fdctOn v) := by
  have hcols : SameWork (fdctColsOn u) (fdctColsOn v) := h.update <| by
    rw [h.f_eq]
    exact agreeOn_colPass h.fits h.basis h.block
  refine hcols.update ?_
  rw [hcols.f_eq]
  exact agreeOn_rowPass hcols.fits (fun i j hi hj => hcols.basis j i hj hi) hcols.block

theorem maskOn (h : SameWork u v) : SameWork (maskOn u) (maskOn v) := h.update fun k l hk hl => by
  rw [h.f_eq, h.d_eq, Mat.elem_setBlock h.fits, Mat.elem_setBlock h.fits, h.block k l hk hl]

theorem idctOn (h : SameWork u v) : SameWork (idctOn u) (idctOn v) := by
  have hcols : SameWork (idctColsOn u) (idctColsOn v) := h.update <| by
    rw [h.f_eq]
    exact agreeOn_colPass h.fits (fun i j hi hj => h.basis j i hj hi) h.block
  refine hcols.update ?_
  rw [hcols.f_eq]
  exact agreeOn_rowPass hcols.fits hcols.basis hcols.block

theorem reconOn_p (h : SameWork u v) : AgreeOn v.f (reconOn u).p (reconOn v).p := fun i j hi hj => by
  rw [elem_reconOn_p (h.f_eq ▸ h.fits), elem_reconOn_p h.fits, if_pos ⟨h.f_eq ▸ hi, h.f_eq ▸ hj⟩, if_pos ⟨hi, hj⟩,
    h.block i j hi hj]

theorem pipelineOn_p (h : SameWork u v) : AgreeOn v.f (pipelineOn u).p (pipelineOn v).p := by
  have hf : (Machine.idctOn (Machine.maskOn (Machine.fdctOn v))).f = v.f := f_congr (by simp)
  exact hf ▸ h.fdctOn.maskOn.idctOn.reconOn_p

end SameWork

/-! ### The output of a block -/

/-- The block of samples `x` in W and the basis in D, for F and d of `s`. -/
def blockInput (s : State) (x : Nat → Nat → Byte) : State :=
  { s with d := Mat.tab (basis s.f), w := Mat.tab fun i j => toF64 (x i j) }

theorem blockInput_cfg (s : State) (x : Nat → Nat → Byte) : (blockInput s x).cfg = s.cfg := by
  simp only [blockInput]

theorem blockInput_f (s : State) (x : Nat → Nat → Byte) : (blockInput s x).f = s.f := f_congr (blockInput_cfg s x)

theorem elem_blockInput (hf : s.f ≤ Config.nMax) (x : Nat → Nat → Byte) {i j : Nat} (hi : i < s.f) (hj : j < s.f) :
    (blockInput s x).d.elem i j = basis s.f i j ∧ (blockInput s x).w.elem i j = toF64 (x i j) :=
  ⟨Mat.elem_tab _ (hi.trans_le hf) (hj.trans_le hf),
    Mat.elem_tab (fun i j => toF64 (x i j)) (hi.trans_le hf) (hj.trans_le hf)⟩

/-- What the arithmetic of a block step makes of a block of samples, for F and d of `s` (R97). -/
def blockOutput (s : State) (x : Nat → Nat → Byte) (i j : Nat) : Byte := (pipelineOn (blockInput s x)).p.elem i j

/-- A state with the basis in D and the samples in W computes that output. -/
theorem pipelineOn_p_eq_blockOutput (hf : s.f ≤ Config.nMax) (hfu : u.f = s.f) (hdu : u.dInt = s.dInt)
    {x : Nat → Nat → Byte} (hd : ∀ l j, l < s.f → j < s.f → u.d.elem l j = basis s.f l j)
    (hw : ∀ i j, i < s.f → j < s.f → u.w.elem i j = toF64 (x i j)) {i j : Nat} (hi : i < s.f) (hj : j < s.f) :
    (pipelineOn u).p.elem i j = blockOutput s x i j := by
  have hfb := blockInput_f s x
  have hsame : SameWork u (blockInput s x) := by
    refine ⟨hfb.trans_le hf, hfu.trans hfb.symm, hdu.trans (dInt_congr (blockInput_cfg s x)).symm, ?basis, ?block⟩
    case basis =>
      rw [hfb]
      exact fun l j hl hj => (hd l j hl hj).trans (elem_blockInput hf x hl hj).1.symm
    case block =>
      rw [hfb]
      exact fun i j hi hj => (hw i j hi hj).trans (elem_blockInput hf x hi hj).2.symm
  exact hsame.pipelineOn_p i j (hi.trans_eq hfb.symm) (hj.trans_eq hfb.symm)

/-- The output of a block depends on F, d and the samples of the block alone (R99). -/
theorem blockOutput_congr (hf : s.f ≤ Config.nMax) (hft : t.f = s.f) (hdt : t.dInt = s.dInt) {x y : Nat → Nat → Byte}
    (hxy : ∀ i j, i < s.f → j < s.f → y i j = x i j) {i j : Nat} (hi : i < s.f) (hj : j < s.f) :
    blockOutput t y i j = blockOutput s x i j := by
  have helem : ∀ i j, i < s.f → j < s.f →
      (blockInput t y).d.elem i j = basis t.f i j ∧ (blockInput t y).w.elem i j = toF64 (y i j) :=
    fun i j hi hj => elem_blockInput (hft.trans_le hf) y (hi.trans_eq hft.symm) (hj.trans_eq hft.symm)
  refine pipelineOn_p_eq_blockOutput hf ((blockInput_f t y).trans hft) ((dInt_congr (blockInput_cfg t y)).trans hdt)
    (fun l j hl hj => ?_) (fun i j hi hj => ?_) hi hj
  · rw [(helem l j hl hj).1, hft]
  · rw [(helem i j hi hj).2, hxy i j hi hj]

/-! ### One block step -/

/-- What a block step from `u` leaves in `v`: the output of the block at CURSOR stands in memory, nothing else in memory has
changed, and RUN is ready for the next block unless this was the last. -/
structure BlockCompressed (u v : State) : Prop where
  cfg : v.cfg = u.cfg
  busErrors : v.busErrors = u.busErrors
  basisValid : v.basisValid = u.basisValid
  d : v.d = u.d
  cursor : v.cursor = u.nextCursor
  count : v.blocksDone = u.blocksDone + 1#32
  control : (u.blocksDone + 1#32).toNat ≠ u.nb → v.ctl = u.ctl
  memory : v.mem.wf = true
  block : ∀ i j, i < u.f → j < u.f →
    v.mem.read (u.dstElem i j) = blockOutput u (fun i j => u.mem.read (u.srcElem i j)) i j
  others : SameOffBlock u v.mem

theorem elem_loadAll_w (hf : s.f ≤ Config.nMax) {i j : Nat} (hi : i < s.f) (hj : j < s.f) :
    (loadAll s).w.elem i j = toF64 (s.mem.read (s.srcElem i j)) :=
  (elem_loadFirst_w hf _ i j).trans (if_pos ⟨hi, hj, index_lt hi hj⟩)

theorem sameBlock_loaded (s : State) : SameBlock s (pipelineOn (loadAll s)) := by constructor <;> simp [loadAll]

/-- The writes of the block at CURSOR put P into it and leave every other byte. -/
theorem storeAll_mem (hsame : SameBlock u v) (h : DstBlock u) (hwf : u.mem.wf = true) :
    (storeAll v).mem.wf = true ∧
      (∀ i j, i < u.f → j < u.f → (storeAll v).mem.read (u.dstElem i j) = v.p.elem i j) ∧
      SameOffBlock u (storeAll v).mem := by
  have hf : v.f = u.f := f_congr hsame.cfg
  have hdst : DstBlock v := h.congr hsame.cfg hsame.cursor
  have hwf' : v.mem.wf = true := hsame.mem ▸ hwf
  refine ⟨wf_storeFirst hwf' _, fun i j hi hj => ?_, hsame.sameOffBlock fun a ha => ?_⟩
  · rw [← hf] at hi hj
    rw [← dstElem_congr hsame.cfg hsame.cursor]
    exact hdst.read_storeFirst hwf' hi hj (index_lt hi hj)
  · exact read_storeFirst_other hwf' fun i j hi hj _ => ha i j hi hj

theorem pipelineOn_loadAll_p (hf : u.f ≤ Config.nMax) (hd : ∀ l j, l < u.f → j < u.f → u.d.elem l j = basis u.f l j)
    {i j : Nat} (hi : i < u.f) (hj : j < u.f) :
    (pipelineOn (loadAll u)).p.elem i j = blockOutput u (fun i j => u.mem.read (u.srcElem i j)) i j := by
  have hcfg : (loadAll u).cfg = u.cfg := (sameSetting_loadAll u).cfg
  refine pipelineOn_p_eq_blockOutput hf (f_congr hcfg) (dInt_congr hcfg) (fun l j hl hj => ?_)
    (fun i j hi hj => elem_loadAll_w hf hi hj) hi hj
  rw [loadAll, loadFirst_d, hd l j hl hj]

/-- The memory a block step leaves: the output of the block at CURSOR, and every other byte as before. -/
theorem processBlock_mem (h : BlockReady u) (hwf : u.mem.wf = true) (hbuilt : BasisBuilt u) :
    (processBlock u).mem.wf = true ∧
      (∀ i j, i < u.f → j < u.f →
        (processBlock u).mem.read (u.dstElem i j) = blockOutput u (fun i j => u.mem.read (u.srcElem i j)) i j) ∧
      SameOffBlock u (processBlock u).mem := by
  obtain ⟨-, -, hd⟩ := hbuilt h.basis
  obtain ⟨hmem, hstored, hothers⟩ := storeAll_mem (sameBlock_loaded u) h.dstBlock hwf
  rw [processBlock]
  exact ⟨hmem, fun i j hi hj => (hstored i j hi hj).trans (pipelineOn_loadAll_p h.fits hd hi hj), hothers⟩

theorem blockCompressed_of_blockStepped (h : BlockReady u) (hwf : u.mem.wf = true) (hbuilt : BasisBuilt u)
    (hv : BlockStepped u v) : BlockCompressed u v := by
  obtain ⟨⟨c, q, rfl⟩, -, hmore⟩ := hv
  obtain ⟨hmem, hblock, hothers⟩ := processBlock_mem h hwf hbuilt
  have hout := processBlock_outside u
  have hvalid := processBlock_basisValid u
  have hcount := processBlock_blocksDone u
  have hcursor := nextCursor_congr hout.cfg (processBlock_cursor u)
  have hbasis := processBlock_d u
  generalize processBlock u = x at *
  exact ⟨hout.cfg, hout.busErrors, hvalid, hbasis, hcursor, congrArg (· + 1#32) hcount, fun hne => (hmore hne).1, hmem,
    hblock, hothers⟩

/-! ### Pixels and the numbers of their blocks -/

/-- The number, in row-major order, of the block that holds pixel (r, q) of the truncated images (R93). -/
def blockIndex (s : State) (r q : Nat) : Nat := r / s.f * s.bc + q / s.f

/-- Output pixel (r, q) of a RUN from `s`: a function of the samples of its block, F and d (R99). -/
def outputPixel (s : State) (r q : Nat) : Byte :=
  blockOutput s (fun i j => s.mem.read (s.srcPixel (r / s.f * s.f + i) (q / s.f * s.f + j))) (r % s.f) (q % s.f)

section
variable (hf : 0 < s.f) {r q : Nat} (hr : r < s.rt) (hq : q < s.ct)
include hf hr hq

theorem block_lt : r / s.f < s.br ∧ q / s.f < s.bc :=
  ⟨(Nat.div_lt_iff_lt_mul hf).mpr hr, (Nat.div_lt_iff_lt_mul hf).mpr hq⟩

theorem blockIndex_lt_nb : blockIndex s r q < s.nb :=
  have ⟨hrow, hcol⟩ := block_lt hf hr hq
  index_lt hrow hcol

end

theorem blockIndex_elem {row col i j : Nat} (hi : i < s.f) (hj : j < s.f) :
    blockIndex s (row * s.f + i) (col * s.f + j) = row * s.bc + col := by
  rw [blockIndex, (rowMajor_div_mod hi).1, (rowMajor_div_mod hj).1]

/-! ### The invariant of the block phase -/

/-- What RUN is accepted with: valid parameters, and an answer to every access to a pixel. -/
structure RunSetup (s : State) : Prop where
  valid : validateAll s = none
  answers : PixelsAnswer s

/-- After step 0 and k block steps: CURSOR and BLOCKS_DONE name block k, the basis is built, RUN goes on unless k is NB, the
source samples of the blocks from k on are as they were, and the pixels of the blocks before k hold the output. -/
structure BlocksProcessed (s : State) (k : Nat) (u : State) : Prop where
  cfg : u.cfg = s.cfg
  busErrors : u.busErrors = s.busErrors
  basisValid : u.basisValid = true
  basis : BasisBuilt u
  memory : u.mem.wf = true
  cursor : (u.cursor.row.toNat, u.cursor.col.toNat) = (fun e : Nat × Nat => nextBlock s.br s.bc e.1 e.2)^[k] (0, 0)
  count : u.blocksDone.toNat = k
  control : k < s.nb → u.ctl = ⟨true, opcodeOf .run, false, .blocks⟩
  source : ∀ r q, r < s.rt → q < s.ct → k ≤ blockIndex s r q → u.mem.read (s.srcPixel r q) = s.mem.read (s.srcPixel r q)
  output : ∀ r q, r < s.rt → q < s.ct → blockIndex s r q < k → u.mem.read (s.dstPixel r q) = outputPixel s r q

theorem blocksProcessed_runStartOn (hs : RunSetup s) (hwf : s.mem.wf = true)
    (hctl : s.ctl = ⟨true, opcodeOf .run, false, .validate⟩) : BlocksProcessed s 0 (runStartOn s) := by
  obtain ⟨hlow, -, -, hhigh⟩ := checkFFull_none.mp (validateAll_none.mp hs.valid).1
  have hbuilt : BasisBuilt (runStartOn s) := basisBuilt_of_setBlock hlow hhigh (runStartOn_cfg s) (runStartOn_d s)
  exact ⟨by simp, by simp, by simp, hbuilt, by simpa using hwf, by simp, by simp, fun _ => by simp [hctl],
    fun _ _ _ _ _ => by simp, fun _ _ _ _ h => absurd h (Nat.not_lt_zero _)⟩

namespace BlocksProcessed

variable {k : Nat} (h : BlocksProcessed s k u) (hs : RunSetup s) (hk : k < s.nb)
include h hk

/-- CURSOR is in the grid, at block k. -/
theorem cursor_index :
    u.cursor.row.toNat < s.br ∧ u.cursor.col.toNat < s.bc ∧ u.cursor.row.toNat * s.bc + u.cursor.col.toNat = k := by
  have hbc : 0 < s.bc := Nat.pos_of_ne_zero fun h0 => by simp [State.nb, h0] at hk
  obtain ⟨hrow, hcol⟩ := Prod.mk.inj (h.cursor.trans (iterate_nextBlock hk))
  rw [hrow, hcol]
  exact ⟨(Nat.div_lt_iff_lt_mul hbc).mpr hk, Nat.mod_lt k hbc, Nat.div_add_mod' k s.bc⟩

/-- BLOCKS_DONE does not wrap (R37). -/
theorem count_succ : (u.blocksDone + 1#32).toNat = k + 1 := by
  obtain ⟨-, -, hnb⟩ := grid_lt s
  rw [BitVec.toNat_add, h.count, BitVec.toNat_ofNat]
  omega

/-- An element of the block at CURSOR is a pixel of block k. -/
theorem elem_pixel {i j : Nat} (hi : i < s.f) (hj : j < s.f) :
    ∃ r q, r < s.rt ∧ q < s.ct ∧ blockIndex s r q = k ∧ u.srcElem i j = s.srcPixel r q ∧ u.dstElem i j = s.dstPixel r q := by
  obtain ⟨hrow, hcol, hindex⟩ := h.cursor_index hk
  obtain ⟨hsrc, hdst⟩ := pixel_of_elem h.cfg i j
  exact ⟨_, _, index_lt hrow hi, index_lt hcol hj, (blockIndex_elem hi hj).trans hindex, hsrc, hdst⟩

theorem cursor_of_pixel (hf : 0 < s.f) {r q : Nat} (hr : r < s.rt) (hq : q < s.ct) (hindex : blockIndex s r q = k) :
    u.cursor.row.toNat = r / s.f ∧ u.cursor.col.toNat = q / s.f := by
  obtain ⟨-, hcol, hcursor⟩ := h.cursor_index hk
  exact rowMajor_inj hcol (block_lt hf hr hq).2 (hcursor.trans hindex.symm)

include hs

theorem blockReady : BlockReady u := by
  obtain ⟨hrow, hcol, -⟩ := h.cursor_index hk
  refine ⟨by rw [h.control hk], (validateAll_congr h.cfg).trans hs.valid, h.basisValid, by rwa [br_congr h.cfg],
    by rwa [bc_congr h.cfg], fun i j hi hj => ?_⟩
  rw [f_congr h.cfg] at hi hj
  obtain ⟨r, q, hr, hq, -, hsrc, hdst⟩ := h.elem_pixel hk hi hj
  rw [busError_congr h.busErrors, busError_congr h.busErrors, hsrc, hdst]
  exact hs.answers r q hr hq

/-- An output pixel of another block is not written while CURSOR is at block k. -/
theorem dstPixel_ne_dstElem {r q i j : Nat} (hq : q < s.ct) (hne : blockIndex s r q ≠ k) (hi : i < s.f) (hj : j < s.f) :
    s.dstPixel r q ≠ u.dstElem i j := by
  obtain ⟨-, -, -, hstride, -⟩ := validateAll_none.mp hs.valid
  obtain ⟨r', q', -, hq', hindex, -, hdst⟩ := h.elem_pixel hk hi hj
  rw [hdst]
  intro heq
  obtain ⟨rfl, rfl⟩ := dstPixel_inj (checkDstStride_none.mp hstride) hq hq' heq
  exact hne hindex

/-- A source pixel of another block is not overwritten: in place it is an output pixel of that block, and otherwise the regions
are apart (R102). -/
theorem srcPixel_ne_dstElem {r q i j : Nat} (hr : r < s.rt) (hq : q < s.ct) (hne : blockIndex s r q ≠ k) (hi : i < s.f)
    (hj : j < s.f) : s.srcPixel r q ≠ u.dstElem i j := by
  obtain ⟨-, -, -, -, -, -, hoverlap⟩ := validateAll_none.mp hs.valid
  obtain hplace | hapart := checkOverlap_none.mp hoverlap
  · obtain ⟨hbase, hstride⟩ := inPlace_iff.mp hplace
    have hsame : s.srcPixel r q = s.dstPixel r q := by rw [State.srcPixel, State.dstPixel, hbase, hstride]
    rw [hsame]
    exact h.dstPixel_ne_dstElem hs hk hq hne hi hj
  · obtain ⟨r', q', hr', hq', -, -, hdst⟩ := h.elem_pixel hk hi hj
    rw [hdst]
    exact srcPixel_ne_dstPixel hapart.symm hr hq hr' hq'

/-- The output of the block at CURSOR is that of block k of the source image: no earlier block step has touched its samples. -/
theorem blockOutput_eq_outputPixel {r q : Nat} (hr : r < s.rt) (hq : q < s.ct) (hindex : blockIndex s r q = k) :
    blockOutput u (fun i j => u.mem.read (u.srcElem i j)) (r % s.f) (q % s.f) = outputPixel s r q := by
  obtain ⟨hf, -, -, hfits, -⟩ := checkFFull_block (validateAll_none.mp hs.valid).1
  obtain ⟨hrow, hcol⟩ := h.cursor_of_pixel hk hf hr hq hindex
  obtain ⟨hrowlt, hcollt⟩ := block_lt hf hr hq
  refine blockOutput_congr hfits (f_congr h.cfg) (dInt_congr h.cfg) (fun i j hi hj => ?_) (Nat.mod_lt r hf) (Nat.mod_lt q hf)
  have hpixel : blockIndex s (r / s.f * s.f + i) (q / s.f * s.f + j) = k := (blockIndex_elem hi hj).trans hindex
  rw [(pixel_of_elem h.cfg i j).1, hrow, hcol]
  exact h.source _ _ (index_lt hrowlt hi) (index_lt hcollt hj) hpixel.ge

/-- A block step keeps the invariant. -/
theorem succ (hv : BlockCompressed u v) : BlocksProcessed s (k + 1) v := by
  obtain ⟨hf, -⟩ := checkFFull_block (validateAll_none.mp hs.valid).1
  have hfu : u.f = s.f := f_congr h.cfg
  refine ⟨hv.cfg.trans h.cfg, hv.busErrors.trans h.busErrors, hv.basisValid.trans h.basisValid,
    h.basis.congr hv.cfg hv.basisValid hv.d, hv.memory, ?cursor, ?count, fun hlt => ?control,
    fun r q hr hq hle => ?source, fun r q hr hq hlt => ?output⟩
  case cursor =>
    rw [hv.cursor, nextCursor_toNat, br_congr h.cfg, bc_congr h.cfg, Function.iterate_succ_apply', ← h.cursor]
  case count => rw [hv.count, h.count_succ hk]
  case control => rw [hv.control (by rw [h.count_succ hk, nb_congr h.cfg]; omega), h.control hk]
  case source =>
    rw [hv.others _ fun i j hi hj => ?_, h.source r q hr hq (by omega)]
    exact h.srcPixel_ne_dstElem hs hk hr hq (by omega) (hfu ▸ hi) (hfu ▸ hj)
  case output =>
    by_cases hhere : blockIndex s r q = k
    · obtain ⟨hrow, hcol⟩ := h.cursor_of_pixel hk hf hr hq hhere
      obtain ⟨-, hdst⟩ := elem_eq_pixel h.cfg hrow hcol
      rw [← hdst, hv.block _ _ ((Nat.mod_lt r hf).trans_eq hfu.symm) ((Nat.mod_lt q hf).trans_eq hfu.symm)]
      exact h.blockOutput_eq_outputPixel hs hk hr hq hhere
    · rw [hv.others _ fun i j hi hj => ?_, h.output r q hr hq (by omega)]
      exact h.dstPixel_ne_dstElem hs hk hq hhere (hfu ▸ hi) (hfu ▸ hj)

omit hk in
/-- The block steps that are left run to the end. -/
theorem runs_to_end {n : Nat} (hn : k + n = s.nb) : ∃ t, engineRun n u = .next t ∧ BlocksProcessed s s.nb t := by
  induction n generalizing k u with
  | zero => exact ⟨u, rfl, hn ▸ h⟩
  | succ n ih =>
    have hk : k < s.nb := by omega
    have hctl := h.control hk
    have hready := h.blockReady hs hk
    obtain ⟨v, hexec, hstep⟩ := hready.exec_run (by rw [hctl])
    have hturn : engineTurn u = .next v := by
      rw [engineTurn_busy (i := .run) (by rw [hctl]) (by rw [hctl]) rfl, hexec]
    obtain ⟨t, hrest, ht⟩ := ih (h.succ hs hk (blockCompressed_of_blockStepped hready h.memory h.basis hstep)) (by omega)
    exact ⟨t, by rw [engineRun, hturn]; exact hrest, ht⟩

end BlocksProcessed

/-- An accepted RUN goes through step 0 and its NB block steps (R95). -/
theorem engineRun_run (hs : RunSetup s) (hwf : s.mem.wf = true) (hctl : s.ctl = ⟨true, opcodeOf .run, false, .validate⟩) :
    ∃ t, engineRun (s.nb + 1) s = .next t ∧ BlocksProcessed s s.nb t := by
  have hturn : engineTurn s = .next (runStartOn s) := by
    rw [engineTurn_busy (i := .run) (by rw [hctl]) (by rw [hctl]) rfl,
      exec_run_start (by rw [hctl]) (by rw [hctl]) hs.valid]
  obtain ⟨t, hrest, ht⟩ := (blocksProcessed_runStartOn hs hwf hctl).runs_to_end hs (Nat.zero_add _)
  exact ⟨t, by rw [engineRun, hturn]; exact hrest, ht⟩

/-! ### The statement -/

/-- The output of a RUN that has ended. -/
theorem read_dstPixel_of_engineRun (hs : RunSetup s) (hwf : s.mem.wf = true)
    (hctl : s.ctl = ⟨true, opcodeOf .run, false, .validate⟩) (hrun : engineRun (s.nb + 1) s = .next t) {r q : Nat}
    (hr : r < s.rt) (hq : q < s.ct) : t.mem.read (s.dstPixel r q) = outputPixel s r q := by
  obtain ⟨hf, -⟩ := checkFFull_block (validateAll_none.mp hs.valid).1
  obtain ⟨t', hrun', ht⟩ := engineRun_run hs hwf hctl
  obtain rfl := Host.Outcome.next.inj (hrun'.symm.trans hrun)
  exact ht.output r q hr hq (blockIndex_lt_nb hf hr hq)

/-- Equal source images give equal output pixels, for one F and d. -/
theorem outputPixel_congr (hs : RunSetup s) (hsize : s.cfg.blockSize = t.cfg.blockSize)
    (hthresh : s.cfg.thresh = t.cfg.thresh)
    (hsource : ∀ r q, r < s.rt → q < s.ct → s.mem.read (s.srcPixel r q) = t.mem.read (t.srcPixel r q)) {r q : Nat}
    (hr : r < s.rt) (hq : q < s.ct) : outputPixel s r q = outputPixel t r q := by
  obtain ⟨hf, -, -, hfits, -⟩ := checkFFull_block (validateAll_none.mp hs.valid).1
  obtain ⟨hrow, hcol⟩ := block_lt hf hr hq
  have hft : t.f = s.f := by rw [State.f, State.f, State.fInt, State.fInt, hsize]
  have hdt : t.dInt = s.dInt := by rw [State.dInt, State.dInt, hthresh]
  rw [outputPixel, outputPixel, hft]
  exact (blockOutput_congr hfits hft hdt (fun i j hi hj => (hsource _ _ (index_lt hrow hi) (index_lt hcol hj)).symm)
    (Nat.mod_lt r hf) (Nat.mod_lt q hf)).symm

/-- Settles O41: each RUN writes the output pixels of its own source image, F and d, and these agree. -/
theorem runOutputDependsOnSourcePixelsOnly : Obligations.RunOutputDependsOnSourcePixelsOnly := by
  intro s t s' t' hwf hwf' hctl hctl' hvalid hvalid' hanswers hanswers' hrt hct hsize hthresh hsource hrun hrun' r q hr hq
  have hs : RunSetup s := ⟨hvalid, hanswers⟩
  have ht : RunSetup t := ⟨hvalid', hanswers'⟩
  calc s'.mem.read (s.dstPixel r q)
    _ = outputPixel s r q := read_dstPixel_of_engineRun hs hwf hctl hrun hr hq
    _ = outputPixel t r q := outputPixel_congr hs hsize hthresh hsource hr hq
    _ = t'.mem.read (t.dstPixel r q) := (read_dstPixel_of_engineRun ht hwf' hctl' hrun' (hrt ▸ hr) (hct ▸ hq)).symm

end Sys2Proof.RunOutput
end

section
/-! PROOFS. The control commands (spec/45_control.md): NOP, CLEAR_ERR, ABORT and SOFT_RESET, each of which takes effect within
the host step that writes its word, busy or idle. -/

namespace Sys2Proof.ControlCommands

open Sys2Proof Sys2Proof.Machine Sys2Proof.HostRegisters Sys2Proof.CommandWords Sys2Proof.BasisForward

variable {s : State}

/-! ### NOP (R103) -/

/-- Settles O14: the encoder gives NOP the zero word, and 0x0000_0100 is its opcode below a nonzero field RSVD. -/
theorem nopChangesNothing : Obligations.NopChangesNothing :=
  ⟨fun _ => rfl, decode_eq_command_iff.mpr (by decide), decode_of_reserved (by decide) (by decide)⟩

/-! ### CLEAR_ERR (R104) -/

theorem errFlag_of_none (h : s.errCode = none) : s.errFlag = false := by
  rw [State.errFlag, errCodeWord_of_none h]
  rfl

theorem getLsbD_statusWord_err (s : State) : s.statusWord.getLsbD 1 = s.errFlag := by
  rw [getLsbD_statusWord]
  simp

/-- The fields of the state that the acknowledgement of an error leaves alone (R104). -/
theorem clearError_frame (s : State) :
    (clearError s).irqStatus = s.irqStatus ∧ (clearError s).ctl = s.ctl ∧ SameRegisters s (clearError s) ∧
      SameBuffers s (clearError s) ∧ (clearError s).basisValid = s.basisValid ∧ SameMemory s (clearError s) ∧
      SameWorld s (clearError s) := by
  simp [SameRegisters, SameBuffers, SameMemory, SameWorld]

/-- Settles O15: `clearError` empties the error record, which ERR_CODE and STATUS.ERR show. -/
theorem clearErrClearsTheErrorRecord : Obligations.ClearErrClearsTheErrorRecord := by
  refine ⟨decode_eq_command_iff.mpr (by decide), fun s => ⟨clearError s, rfl, rfl, rfl, rfl, rfl, ?_, ?_, clearError_frame s⟩⟩
  · exact errCodeWord_of_none (clearError_errCode s)
  · exact (getLsbD_statusWord_err _).trans (errFlag_of_none (clearError_errCode s))

/-! ### ABORT (R105) -/

theorem exec_abort_idle (h : s.ctl.busy = false) : exec .abort s = .next s := by
  simp [exec, execAbort, h]

theorem exec_abort_busy (h : s.ctl.busy = true) :
    exec .abort s = .next { s with ctl := { s.ctl with abortPending := true } } := by
  simp [exec, execAbort, h]

/-- With an ABORT pending the work step of every non-instant command is the error end with ABORTED alone (R119). -/
theorem exec_endedWith_aborted {i : Instr} (hi : isInstant i = false) (habort : s.ctl.abortPending = true) :
    ∃ t, exec i s = .next t ∧ EndedWith .aborted s t := by
  rw [exec_eq_workStep hi, workStep_abort habort]
  exact ⟨_, rfl, endedWith_errorEnd rfl { s with ctl := { s.ctl with abortPending := false } }⟩

/-- Settles O16: ABORT writes ABORT_PENDING alone, which the next work step tests first. -/
theorem abortAsksTheCommandToEnd : Obligations.AbortAsksTheCommandToEnd := by
  refine ⟨decode_eq_command_iff.mpr (by decide), fun s => exec_abort_idle, fun s hbusy =>
    ⟨_, exec_abort_busy hbusy, ?_, rfl, ?_, ?_, ?_, rfl, ?_, ?_, fun i hi => exec_endedWith_aborted hi rfl⟩⟩
  · exact congrArg (Ctl.mk · _ _ _) hbusy
  · exact ⟨rfl, rfl, rfl, rfl⟩
  · exact ⟨rfl, rfl, rfl, rfl, rfl, rfl, rfl⟩
  · exact ⟨fun _ _ => rfl, fun _ _ => rfl, fun _ _ => rfl⟩
  · exact fun _ => rfl
  · exact ⟨rfl, rfl, rfl, rfl, rfl⟩

/-! ### SOFT_RESET and the reset input (R106, R140) -/

/-- The block size is 0 after reset, so that BLK_GRID has no count to show (R35). -/
theorem blkGridWord_resetEngine (s : State) : (resetEngine s).blkGridWord = 0#32 := by
  have hf : (resetEngine s).fInt = 0 := rfl
  exact if_neg (by omega)

/-- STATUS reads 0 when the engine is idle, no error is recorded and no flag is set (R27). -/
theorem statusWord_eq_zero (hctl : s.ctl = Ctl.idle) (herr : s.errCode = none) (hmulti : s.errMulti = false)
    (hbasis : s.basisValid = false) (hlocked : s.lockedWrite = false) : s.statusWord = 0#32 := by
  simp [State.statusWord, errFlag_of_none herr, hctl, hmulti, hbasis, hlocked, Ctl.idle, bit]

/-- Settles O17: both are `resetEngine`, which writes every register and hidden field, and not memory. -/
theorem resetGivesEveryRegisterItsValue : Obligations.ResetGivesEveryRegisterItsValue :=
  ⟨decode_eq_command_iff.mpr (by decide), decode_of_reserved (by decide) (by decide), fun s =>
    ⟨resetEngine s, rfl, rfl, rfl, rfl, rfl, rfl, rfl, rfl, rfl, rfl, rfl, rfl, rfl, rfl, rfl, rfl, fun _ => rfl,
      blkGridWord_resetEngine s, statusWord_eq_zero rfl rfl rfl rfl rfl, rfl, rfl, rfl, rfl, rfl⟩⟩

end Sys2Proof.ControlCommands
end

section
/-! PROOFS. Command issue (spec/46_host_access.md R107, R108): what a CMD write of a non-instant command's word does to an idle
engine and to a busy one. -/

namespace Sys2Proof.CommandIssue

open Sys2Proof Sys2Proof.Machine Sys2Proof.CommandWords

variable {w : Word} {i : Instr} {s : State}

theorem writeReg_cmd (w : Word) (s : State) : writeReg .cmd w s = issue w s := if_pos rfl

theorem issue_idle (hd : decode w = .command i) (hi : isInstant i = false) (hidle : s.ctl.busy = false) :
    issue w s = .next (accept i s) := by
  simp [issue, hd, hi, hidle]

theorem issue_busy (hd : decode w = .command i) (hi : isInstant i = false) (hbusy : s.ctl.busy = true) :
    issue w s = .next (signalError .commandWhileBusy (opcodeOf i) s) := by
  have hop : opcodeField w = opcodeOf i := decode_eq_command_iff.mp hd ▸ opcodeField_encode i
  simp [issue, hd, hi, hbusy, hop]

/-- Settles O5: the write is `accept`, which sets the engine control state, and the model's note of memory, alone. -/
theorem idleEngineAcceptsACommand : Obligations.IdleEngineAcceptsACommand := by
  intro w i s hd hi hidle
  refine ⟨accept i s, (writeReg_cmd w s).trans (issue_idle hd hi hidle), rfl, rfl, ?_, ?_, ?_, rfl, fun _ => rfl, rfl, rfl,
    rfl, rfl⟩
  · exact ⟨rfl, rfl, rfl, rfl⟩
  · exact ⟨rfl, rfl, rfl, rfl, rfl, rfl, rfl⟩
  · exact ⟨fun _ _ => rfl, fun _ _ => rfl, fun _ _ => rfl⟩

/-- Settles O6: the write is `signal_error` with the refused opcode, which only records. -/
theorem busyEngineRefusesACommand : Obligations.BusyEngineRefusesACommand := fun w i s hd hi hbusy =>
  ⟨_, (writeReg_cmd w s).trans (issue_busy hd hi hbusy), signalError_only_records .commandWhileBusy (opcodeOf i) s⟩

end Sys2Proof.CommandIssue
end

section
/-! PROOFS. The registers as a host writes them (spec/46_host_access.md R109 to R112): which register an offset reaches, which
writes a busy engine ignores, and what a stored register reads after a write. -/

namespace Sys2Proof.RegisterWrites

open Sys2Proof Sys2Proof.Machine Sys2Proof.HostRegisters Sys2Proof.AccessesWithoutEffect

variable {r : Reg} {s : State}

/-! ### Offsets (R22) -/

theorem regAt_of_mem_regMap : ∀ e ∈ regMap, e.1.toNat % 4 = 0 ∧ regAt e.1 = e.2 := by decide

/-- An offset reaches no register of the map but by its row. -/
theorem mem_regMap_of_regAt {off : BitVec 8} (hr : r ≠ .reserved) (h : regAt off = r) : (off, r) ∈ regMap := by
  unfold regAt at h
  cases hfind : regMap.find? fun e => e.1 == off with
  | none =>
    rw [hfind] at h
    exact absurd h.symm hr
  | some e =>
    rw [hfind] at h
    have hoff : e.1 = off := eq_of_beq (List.find?_some (p := fun e : BitVec 8 × Reg => e.1 == off) hfind)
    have hreg : e.2 = r := h
    rw [← hoff, ← hreg]
    exact List.mem_of_find?_eq_some hfind

/-! ### Locked and ignored writes (R112) -/

theorem writeReg_locked (hr : isLocked r = true) (hbusy : s.ctl.busy = true) (v : Word) :
    writeReg r v s = .next { s with lockedWrite := true } := by
  have hne : r ≠ .cmd := by
    rintro rfl
    cases hr
  simp [writeReg, hne, hr, hbusy]

theorem writeReg_stored (hne : r ≠ .cmd) (hfree : isLocked r = false ∨ s.ctl.busy = false) (v : Word) :
    writeReg r v s = .next (storeReg r v s) := by
  obtain h | h := hfree <;> simp [writeReg, hne, h]

/-- Settles O47: a write of a locked register leaves a mark alone, and the other registers are written as on an idle engine. -/
theorem busyEngineLocksItsRegisters : Obligations.BusyEngineLocksItsRegisters := by
  refine fun v s hbusy => ⟨fun r hr => ?_, fun r hr => ?_, ?_⟩
  · have hlocked : ∀ r ∈ [Reg.imgRows, .imgCols, .blockSize, .thresh, .srcBase, .srcStride, .dstBase, .dstStride, .cursor,
        .bufIndex, .bufDataLo, .bufDataHi], isLocked r = true := by decide
    exact ⟨_, writeReg_locked (hlocked r hr) hbusy v, rfl, rfl, rfl, rfl, rfl, rfl, ⟨rfl, rfl, rfl, rfl, rfl, rfl, rfl⟩,
      ⟨fun _ _ => rfl, fun _ _ => rfl, fun _ _ => rfl⟩, rfl, fun _ => rfl, ⟨rfl, rfl, rfl, rfl, rfl⟩⟩
  · have hfree : ∀ r ∈ [Reg.irqEnable, .irqStatus], r ≠ .cmd ∧ isLocked r = false := by decide
    obtain ⟨hne, hunlocked⟩ := hfree r hr
    obtain ⟨-, -, -, -, hmark, -⟩ := storeReg_frame r v s
    refine ⟨_, writeReg_stored hne (.inl hunlocked) v, hmark, ?_, ?_⟩
    · rintro rfl
      rfl
    · rintro rfl
      rfl
  · simp only [List.forall_mem_cons]
    exact ⟨rfl, rfl, rfl, rfl, rfl, rfl, rfl, rfl, nofun⟩

/-! ### The words of the fields (R109) -/

/-- A 16-bit field is read with the upper half 0. -/
theorem half_eq_append (x : Half) : x.zeroExtend 32 = 0#16 ++ x := BitVec.setWidth_eq_append (by decide)

theorem irqWord_eq_append (b : IrqBits) : irqWord b = 0#30 ++ BitVec.ofBool b.err ++ BitVec.ofBool b.done := by
  obtain ⟨d, e⟩ := b
  cases d <;> cases e <;> rfl

theorem getLsbD_irqWord (b : IrqBits) (i : Nat) :
    (irqWord b).getLsbD i = (b.done && decide (i = 0) || b.err && decide (i = 1)) := by
  rw [irqWord, ← BitVec.shiftLeft_zero (bit b.done)]
  simp (disch := decide) only [BitVec.getLsbD_or, getLsbD_flag]

/-- The four fields of BUF_INDEX, each at its place (R40). -/
theorem getLsbD_bufIndexWord (b : BufIndex) (i : Nat) :
    (bufIndexWord b).getLsbD i = (b.col.getLsbD i || decide (8 ≤ i) && b.row.getLsbD (i - 8) ||
      decide (16 ≤ i) && (selBits b.sel).getLsbD (i - 16) || b.autoinc && decide (i = 31)) := by
  rw [bufIndexWord, ← BitVec.shiftLeft_zero (b.col.zeroExtend 32)]
  simp (disch := decide) only [BitVec.getLsbD_or, getLsbD_flag, getLsbD_field]
  simp

theorem bufIndexWord_eq_append (b : BufIndex) :
    bufIndexWord b = BitVec.ofBool b.autoinc ++ 0#13 ++ selBits b.sel ++ b.row ++ b.col := by
  refine BitVec.eq_of_getLsbD_eq fun i hi => ?_
  have hcol := BitVec.getLsbD_of_ge b.col i
  have hrow := BitVec.getLsbD_of_ge b.row (i - 8)
  have hsel := BitVec.getLsbD_of_ge (selBits b.sel) (i - 16)
  rw [getLsbD_bufIndexWord]
  simp only [BitVec.getLsbD_append, BitVec.getLsbD_ofBool]
  grind

/-! ### A stored register reads back (R110) -/

/-- The low half of a word, as a field that is read with the upper half 0. -/
theorem half_of_word (v : Word) : (v.extractLsb' 0 16).zeroExtend 32 = v &&& 0x0000FFFF#32 := by
  apply BitVec.eq_of_toNat_eq
  have hv : v.toNat % 65536 % 4294967296 = v.toNat % 65536 := Nat.mod_eq_of_lt (by omega)
  simpa [hv] using (Nat.and_two_pow_sub_one_eq_mod v.toNat 16).symm

/-- A word is its high field above its low one. -/
theorem high_append_low {m k : Nat} (x : BitVec (m + k)) : x.extractLsb' k m ++ x.extractLsb' 0 k = x :=
  (BitVec.extractLsb'_append_extractLsb'_eq_extractLsb' (Nat.zero_add k).symm).trans BitVec.extractLsb'_eq_self

theorem cursorWord_cursorOfWord (v : Word) : cursorWord (cursorOfWord v) = v :=
  high_append_low (m := 16) (k := 16) v

theorem word_and_ones (v : Word) : v &&& 0xFFFFFFFF#32 = v := BitVec.and_allOnes

theorem irqWord_of_word (v : Word) : irqWord ⟨v.getLsbD 0, v.getLsbD 1⟩ = v &&& 0x00000003#32 := by
  have hmask : ∀ i < 32, (0x00000003#32).getLsbD i = (decide (i = 0) || decide (i = 1)) := by decide
  refine BitVec.eq_of_getLsbD_eq fun i hi => ?_
  rw [getLsbD_irqWord, BitVec.getLsbD_and, hmask i hi]
  grind

theorem selBits_selOfBits : ∀ b : BitVec 2, selBits (selOfBits b) = b := by decide

/-- Bits [30:18] of a word written to BUF_INDEX are dropped, and every other is read back (R40). -/
theorem bufIndexWord_bufIndexOfWord (v : Word) : bufIndexWord (bufIndexOfWord v) = v &&& 0x8003FFFF#32 := by
  have hmask : ∀ i < 32, (0x8003FFFF#32).getLsbD i = (decide (i < 18) || decide (i = 31)) := by decide
  refine BitVec.eq_of_getLsbD_eq fun i hi => ?_
  rw [getLsbD_bufIndexWord, BitVec.getLsbD_and, hmask i hi]
  simp only [bufIndexOfWord, selBits_selOfBits, BitVec.getLsbD_extractLsb']
  grind

/-- The stored registers, each with the bits that a write keeps (R110). -/
def storedRegs : List (Reg × Word) :=
  [(.imgRows, 0x0000FFFF#32), (.imgCols, 0x0000FFFF#32), (.blockSize, 0x0000FFFF#32), (.thresh, 0x0000FFFF#32),
    (.srcBase, 0xFFFFFFFF#32), (.srcStride, 0xFFFFFFFF#32), (.dstBase, 0xFFFFFFFF#32), (.dstStride, 0xFFFFFFFF#32),
    (.cursor, 0xFFFFFFFF#32), (.irqEnable, 0x00000003#32), (.bufIndex, 0x8003FFFF#32)]

/-- The registers that show a field of the state as it stands: the stored ones, and four that a store leaves alone. -/
def shownRegs : List Reg :=
  [.imgRows, .imgCols, .blockSize, .thresh, .srcBase, .srcStride, .dstBase, .dstStride, .cursor, .irqEnable, .bufIndex,
    .errCode, .errAddr, .blocksDone, .irqStatus]

theorem readReg_storeReg_same (v : Word) (s : State) :
    ∀ e ∈ storedRegs, (readReg e.1 (storeReg e.1 v s)).1 = v &&& e.2 := by
  simp only [storedRegs, List.forall_mem_cons]
  have hword := (word_and_ones v).symm
  exact ⟨half_of_word v, half_of_word v, half_of_word v, half_of_word v, hword, hword, hword, hword,
    (cursorWord_cursorOfWord v).trans hword, irqWord_of_word v, bufIndexWord_bufIndexOfWord v, nofun⟩

/-- A store writes the field of its own register, and every other register of the list shows another field. -/
theorem readReg_storeReg_other (v : Word) (s : State) :
    ∀ e ∈ storedRegs, ∀ r ∈ shownRegs, r ≠ e.1 → (readReg r (storeReg e.1 v s)).1 = (readReg r s).1 := by
  simp [storedRegs, shownRegs, readReg, storeReg, State.errCodeWord]

/-- A write of BLOCK_SIZE clears BASIS_VALID, and no other write of a register does (R111). -/
theorem basisValid_storeReg (r : Reg) (v : Word) (s : State) :
    (storeReg r v s).basisValid = if r = .blockSize then false else s.basisValid := by
  cases r
  case bufDataLo =>
    obtain ⟨-, hvalid, -⟩ := writeBufLo_frame v s
    exact hvalid
  case bufDataHi =>
    obtain ⟨-, hvalid, -⟩ := writeBufHi_frame v s
    exact hvalid
  all_goals rfl

/-- Only a write of the buffer window reaches P, W and WHOLD (R114). -/
theorem buffers_storeReg (hlo : r ≠ .bufDataLo) (hhi : r ≠ .bufDataHi) (v : Word) (s : State) :
    (storeReg r v s).p = s.p ∧ (storeReg r v s).w = s.w ∧ (storeReg r v s).whold = s.whold := by
  cases r
  case bufDataLo => exact absurd rfl hlo
  case bufDataHi => exact absurd rfl hhi
  all_goals exact ⟨rfl, rfl, rfl⟩

/-- Settles O48: the register map row by row, the word of each field, and the frame of a store. -/
theorem storedRegistersReadBack : Obligations.StoredRegistersReadBack := by
  refine ⟨fun v s e he => ?_, fun s => ?_, fun v s hidle e he => ?_⟩
  · obtain ⟨haligned, hreg⟩ := regAt_of_mem_regMap e he
    exact ⟨hreg ▸ hostAccess_read haligned v s, hreg ▸ hostAccess_write haligned v s⟩
  · exact ⟨rfl, rfl, rfl, rfl, half_eq_append _, half_eq_append _, half_eq_append _, half_eq_append _, rfl, rfl, rfl, rfl,
      rfl, rfl, irqWord_eq_append _, irqWord_eq_append _, bufIndexWord_eq_append _⟩
  · have hplain : ∀ e ∈ storedRegs, e.1 ≠ .cmd ∧ e.1 ≠ .bufDataLo ∧ e.1 ≠ .bufDataHi := by decide
    obtain ⟨hcmd, hlo, hhi⟩ := hplain e he
    obtain ⟨hctl, hcode, haddr, hmulti, hmark, -, hd, hmem, hrhold, hbus, hin, hresp, hdraw, hnote⟩ := storeReg_frame e.1 v s
    obtain ⟨hp, hw, hwhold⟩ := buffers_storeReg hlo hhi v s
    exact ⟨_, writeReg_stored hcmd (.inr hidle) v, readReg_storeReg_same v s e he, readReg_storeReg_other v s e he,
      basisValid_storeReg e.1 v s, hctl, ⟨hcode, haddr, hmulti, hmark⟩, by simp [SameBuffers, hp, hw, hd],
      by simp [SameMemory, hmem], ⟨hbus, hin, hresp, hdraw, hnote⟩, hwhold, hrhold⟩

end Sys2Proof.RegisterWrites
end

section
/-! PROOFS. The buffer window (spec/46_host_access.md R113 to R117): the auto-increment, the elements that writes commit and
reads return, and that no register access but SOFT_RESET reaches D. -/

namespace Sys2Proof.BufferWindow

open Sys2Proof Sys2Proof.Machine Sys2Proof.CommandWords Sys2Proof.BlockCursor Sys2Proof.RegisterWrites

variable {n : Nat} {s t : State}

/-! ### The auto-increment (R113) -/

theorem windowSide_pos (s : State) : 0 < s.windowSide := by
  unfold State.windowSide
  split
  next h => exact f_pos h.1
  next => decide

theorem autoinc_off (h : s.bufIndex.autoinc = false) : autoinc s = s := by
  simp [autoinc, h]

theorem autoinc_on (h : s.bufIndex.autoinc = true) :
    autoinc s = { s with bufIndex := ⟨BitVec.ofNat 8 (nextIndex s.windowSide s.bufIndex.row.toNat s.bufIndex.col.toNat).2,
      BitVec.ofNat 8 (nextIndex s.windowSide s.bufIndex.row.toNat s.bufIndex.col.toNat).1, s.bufIndex.sel, true⟩ } := by
  simp [autoinc, h]

/-- From a row of the block the index advances as CURSOR does over the block grid (R88). -/
theorem nextIndex_eq_nextBlock {side i : Nat} (hi : i < side) (j : Nat) :
    nextIndex side i j = nextBlock side side i j := by
  unfold nextIndex nextBlock
  grind

theorem nextIndex_lt {side : Nat} (hside : 0 < side) (i j : Nat) :
    (nextIndex side i j).1 < side ∧ (nextIndex side i j).2 < side := by
  unfold nextIndex
  grind

/-- From an element of the block to the next in row-major order, and from the last to the first. -/
theorem nextIndex_rowMajor {side i j : Nat} (hi : i < side) (hj : j < side) :
    (nextIndex side i j).1 * side + (nextIndex side i j).2 = (i * side + j + 1) % (side * side) := by
  rw [nextIndex_eq_nextBlock hi]
  by_cases hlast : i + 1 = side ∧ j + 1 = side
  · obtain ⟨rfl, hji⟩ := hlast
    obtain rfl : j = i := by omega
    have hend : j * (j + 1) + j + 1 = (j + 1) * (j + 1) := by ring
    simp [nextBlock_last, hend]
  · have hnext : i * side + j + 1 < side * side := by
      by_cases hcol : j + 1 < side
      · exact index_lt hi hcol
      · have hrow : (i + 1) * side + j < side * side := index_lt (by omega) hj
        rw [Nat.add_mul] at hrow
        omega
    obtain ⟨-, -, hindex⟩ := nextBlock_index hi hj hnext.ne
    rw [hindex, Nat.mod_eq_of_lt hnext]

theorem nextIndex_of_column_outside {side i j : Nat} (hj : side ≤ j) :
    nextIndex side i j = (if i + 1 < side then i + 1 else 0, 0) := by
  unfold nextIndex
  grind

theorem nextIndex_of_row_outside {side i j : Nat} (hi : side ≤ i) :
    nextIndex side i j = (0, if j + 1 < side then j + 1 else 0) := by
  unfold nextIndex
  grind

/-- Settles O56: the case split is on where the index lies, and `Fe` is the side of the window. -/
theorem autoincrementIsRowMajor : Obligations.AutoincrementIsRowMajor := by
  refine fun s => ⟨autoinc_off, fun hon => ?_⟩
  obtain ⟨hrow, hcol⟩ := nextIndex_lt (windowSide_pos s) s.bufIndex.row.toNat s.bufIndex.col.toNat
  refine ⟨_, _, hrow, hcol, autoinc_on hon, nextIndex_rowMajor, fun hout => ?_, fun hout _ => ?_⟩
  · have hnext := nextIndex_of_column_outside (side := s.windowSide) (i := s.bufIndex.row.toNat) hout
    exact ⟨congrArg Prod.snd hnext, congrArg Prod.fst hnext⟩
  · have hnext := nextIndex_of_row_outside (side := s.windowSide) (j := s.bufIndex.col.toNat) hout
    exact ⟨congrArg Prod.fst hnext, congrArg Prod.snd hnext⟩

/-- After a write that leaves BUF_INDEX and BLOCK_SIZE, the index moves as it would have before it. -/
theorem autoinc_congr (hcfg : t.cfg = s.cfg) (hindex : t.bufIndex = s.bufIndex) :
    autoinc t = { t with bufIndex := (autoinc s).bufIndex } := by
  rw [autoinc_eq, autoinc_bufIndex_congr hcfg hindex]

/-! ### Writes (R114) -/

/-- A buffer after a value is committed at the selected index: an index outside the buffers commits nothing. -/
def committed (s : State) (m : Mat (BitVec n)) (v : BitVec n) : Mat (BitVec n) :=
  if s.windowValid then m.setElem s.bufIndex.row.toNat s.bufIndex.col.toNat v else m

theorem windowValid_iff :
    s.windowValid = true ↔ s.bufIndex.row.toNat < Config.nMax ∧ s.bufIndex.col.toNat < Config.nMax := decide_eq_true_iff

theorem elem_committed_selected (hrow : s.bufIndex.row.toNat < Config.nMax) (hcol : s.bufIndex.col.toNat < Config.nMax)
    (m : Mat (BitVec n)) (v : BitVec n) :
    (committed s m v).elem s.bufIndex.row.toNat s.bufIndex.col.toNat = v := by
  rw [committed, if_pos (windowValid_iff.mpr ⟨hrow, hcol⟩), Mat.elem_setElem _ hrow hcol, if_pos ⟨rfl, rfl⟩]

theorem elem_committed_other {i j : Nat} (hne : ¬(i = s.bufIndex.row.toNat ∧ j = s.bufIndex.col.toNat))
    (m : Mat (BitVec n)) (v : BitVec n) : (committed s m v).elem i j = m.elem i j := by
  unfold committed
  split
  next hvalid =>
    obtain ⟨hrow, hcol⟩ := windowValid_iff.mp hvalid
    rw [Mat.elem_setElem _ hrow hcol, if_neg hne]
  next => rfl

theorem writeBufLo_hold (hsel : s.bufIndex.sel ≠ .p) (v : Word) : writeBufLo v s = { s with whold := v } := by
  unfold writeBufLo
  cases h : s.bufIndex.sel
  case p => exact absurd h hsel
  all_goals rfl

theorem writeBufLo_sample (hsel : s.bufIndex.sel = .p) (v : Word) :
    writeBufLo v s = { s with p := committed s s.p (v.extractLsb' 0 8), bufIndex := (autoinc s).bufIndex } := by
  unfold writeBufLo committed
  rw [hsel]
  dsimp only
  split <;> exact autoinc_congr rfl rfl

theorem writeBufHi_ignored (hsel : s.bufIndex.sel ≠ .w) (v : Word) : writeBufHi v s = s := by
  unfold writeBufHi
  cases h : s.bufIndex.sel
  case w => exact absurd h hsel
  all_goals rfl

theorem writeBufHi_element (hsel : s.bufIndex.sel = .w) (v : Word) :
    writeBufHi v s = { s with w := committed s s.w (v ++ s.whold), bufIndex := (autoinc s).bufIndex } := by
  unfold writeBufHi committed
  rw [hsel]
  dsimp only
  split <;> exact autoinc_congr rfl rfl

theorem writeReg_bufDataLo (hidle : s.ctl.busy = false) (v : Word) : writeReg .bufDataLo v s = .next (writeBufLo v s) :=
  writeReg_stored (by decide) (.inr hidle) v

theorem writeReg_bufDataHi (hidle : s.ctl.busy = false) (v : Word) : writeReg .bufDataHi v s = .next (writeBufHi v s) :=
  writeReg_stored (by decide) (.inr hidle) v

/-- Settles O53: the case split is on SEL, and the committing write is `committed` with the auto-increment. -/
theorem windowWritesCommitTheSelectedElement : Obligations.WindowWritesCommitTheSelectedElement := by
  refine fun s lo hi hidle => ⟨fun hsel => ?_, fun hsel => ?_, fun hsel => ?_⟩
  · have hlo : writeReg .bufDataLo lo s = .next { s with whold := lo } := by
      rw [writeReg_bufDataLo hidle, writeBufLo_hold (by simp [hsel])]
    have hhi : writeReg .bufDataHi hi { s with whold := lo } =
        .next { s with whold := lo, w := committed s s.w (hi ++ lo), bufIndex := (autoinc s).bufIndex } := by
      rw [writeReg_bufDataHi (s := { s with whold := lo }) hidle, writeBufHi_element (s := { s with whold := lo }) hsel,
        autoinc_bufIndex_congr (s := s) (t := { s with whold := lo }) rfl rfl]
      rfl
    exact ⟨_, hlo, hhi, fun hrow hcol => elem_committed_selected hrow hcol _ _, fun i j hne => elem_committed_other hne _ _,
      fun _ _ => rfl, fun _ _ => rfl, rfl, rfl, rfl, rfl, rfl, rfl, rfl, rfl, rfl, rfl, ⟨rfl, rfl, rfl, rfl⟩, fun _ => rfl,
      ⟨rfl, rfl, rfl, rfl, rfl⟩⟩
  · have hlo := (writeReg_bufDataLo hidle lo).trans (congrArg Host.Outcome.next (writeBufLo_sample hsel lo))
    have hhi : writeReg .bufDataHi hi s = .next s := by
      rw [writeReg_bufDataHi hidle, writeBufHi_ignored (by simp [hsel])]
    exact ⟨_, hlo, fun hrow hcol => elem_committed_selected hrow hcol _ _, fun i j hne => elem_committed_other hne _ _,
      fun _ _ => rfl, fun _ _ => rfl, rfl, rfl, rfl, rfl, rfl, rfl, rfl, rfl, rfl, rfl, ⟨rfl, rfl, rfl, rfl⟩, fun _ => rfl,
      ⟨rfl, rfl, rfl, rfl, rfl⟩, hhi⟩
  · obtain ⟨hp, hw⟩ : s.bufIndex.sel ≠ .p ∧ s.bufIndex.sel ≠ .w := by
      obtain h | h := hsel <;> simp [h]
    rw [writeReg_bufDataLo hidle, writeBufLo_hold hp, writeReg_bufDataHi hidle, writeBufHi_ignored hw]
    exact ⟨rfl, rfl⟩

/-! ### Reads (R115, R116) -/

/-- The selected element, with the index tested as the registers hold it. -/
theorem windowElem_eq (m : Mat F64) (s : State) :
    windowElem m s = if s.bufIndex.row.toNat < Config.nMax ∧ s.bufIndex.col.toNat < Config.nMax then
      m.elem s.bufIndex.row.toNat s.bufIndex.col.toNat else 0#64 := by
  simp only [windowElem, windowValid_iff]

theorem readBuf_without_effect (h : s.ctl.busy = true ∨ s.bufIndex.sel = .reserved) :
    readBufLo s = (0#32, s) ∧ readBufHi s = (0#32, s) := by
  obtain h | h := h <;> simp [readBufLo, readBufHi, h]

theorem readBufLo_element (hidle : s.ctl.busy = false) (hsel : s.bufIndex.sel = .w ∨ s.bufIndex.sel = .d) :
    readBufLo s = ((windowElem (if s.bufIndex.sel = .w then s.w else s.d) s).extractLsb' 0 32,
      { s with rhold := (windowElem (if s.bufIndex.sel = .w then s.w else s.d) s).extractLsb' 32 32 }) := by
  obtain h | h := hsel <;> simp [readBufLo, hidle, h]

theorem readBufHi_element (hidle : s.ctl.busy = false) (hsel : s.bufIndex.sel = .w ∨ s.bufIndex.sel = .d) :
    readBufHi s = (s.rhold, autoinc s) := by
  obtain h | h := hsel <;> simp [readBufHi, hidle, h]

theorem readBuf_sample (hidle : s.ctl.busy = false) (hsel : s.bufIndex.sel = .p) :
    readBufLo s = (if s.bufIndex.row.toNat < Config.nMax ∧ s.bufIndex.col.toNat < Config.nMax then
        0#24 ++ s.p.elem s.bufIndex.row.toNat s.bufIndex.col.toNat else 0#32, autoinc s) ∧
      readBufHi s = (0#32, s) := by
  have hsample (x : Byte) : x.zeroExtend 32 = 0#24 ++ x := BitVec.setWidth_eq_append (by decide)
  simp only [readBufLo, readBufHi, hidle, hsel, windowValid_iff, hsample, Bool.false_eq_true, if_false, and_self]

/-- Settles O54: RHOLD keeps the high half of the element the LO read has seen, whatever W and D hold at the HI read. -/
theorem windowReadsReturnTheSelectedElement : Obligations.WindowReadsReturnTheSelectedElement := by
  refine fun s w' d' => ⟨fun hidle hsel => ?_, readBuf_sample, readBuf_without_effect⟩
  have hlo : readReg .bufDataLo s = _ := readBufLo_element hidle hsel
  refine ⟨?_, by rw [hlo], readBufHi_element hidle hsel⟩
  have hhi : readReg .bufDataHi { (readReg .bufDataLo s).2 with w := w', d := d' } = _ :=
    readBufHi_element (by rw [hlo]; exact hidle) (by rw [hlo]; exact hsel)
  rw [hhi, hlo, ← windowElem_eq]
  exact high_append_low (m := 32) (k := 32) _

/-! ### The basis (R117) -/

/-- SOFT_RESET is the one instant command that reaches D (R103 to R106). -/
theorem d_of_instant {i : Instr} (hi : isInstant i = true) (hreset : i ≠ .softReset) (he : exec i s = .next t) :
    t.d = s.d := by
  cases i
  case nop | clearErr =>
    obtain rfl := Host.Outcome.next.inj he
    rfl
  case abort =>
    obtain rfl := Host.Outcome.next.inj he
    split <;> rfl
  case softReset => exact absurd rfl hreset
  all_goals exact absurd hi (by decide)

theorem d_of_issue {w : Word} (hreset : w ≠ encode .softReset) (h : issue w s = .next t) : t.d = s.d := by
  obtain ⟨why, -, rfl⟩ | ⟨i, hd, hi, he⟩ | ⟨i, -, -, -, rfl⟩ | ⟨i, -, -, -, rfl⟩ := issue_cases h
  · exact record_d s _ _ _
  · refine d_of_instant hi ?_ he
    rintro rfl
    exact hreset (decode_eq_command_iff.mp hd)
  · exact record_d s _ _ _
  · rfl

theorem d_of_writeReg {r : Reg} {v : Word} (hreset : r = .cmd → v ≠ encode .softReset) (h : writeReg r v s = .next t) :
    t.d = s.d := by
  obtain ⟨hr, hissue⟩ | ⟨-, -, -, rfl⟩ | ⟨-, -, rfl⟩ := writeReg_cases h
  · exact d_of_issue (hreset hr) hissue
  · rfl
  · obtain ⟨-, -, -, -, -, -, hd, -⟩ := storeReg_frame r v s
    exact hd

/-- CMD is the register at 0x08 alone (R22). -/
theorem offset_of_cmd {off : BitVec 8} (h : regAt off = .cmd) : off = 0x08#8 := by
  have hrow : ∀ e ∈ regMap, e.2 = .cmd → e.1 = 0x08#8 := by decide
  exact hrow _ (mem_regMap_of_regAt (by decide) h) rfl

/-- Settles O55: only the issue of SOFT_RESET gives the basis buffer another value. -/
theorem hostCannotWriteTheBasis : Obligations.HostCannotWriteTheBasis := by
  intro a s t ha hreset
  obtain ⟨-, rfl⟩ | ⟨-, rfl⟩ | ⟨hkind, hw⟩ := hostAccess_cases ha
  · rfl
  · rw [readReg_state]
  · exact d_of_writeReg (s := { s with resp := some .written }) (fun hr hv => hreset ⟨hkind, offset_of_cmd hr, hv⟩) hw

end Sys2Proof.BufferWindow
end

section
/-! PROOFS. The machine goes on (spec/60_exceptions.md R120, spec/70_reset_and_hazards.md R154): in a state that meets the
invariant no work step stops, every access of the host is answered, and every work step leaves less for RUN to do. -/

namespace Sys2Proof.MachineProgress

open Sys2Proof Sys2Proof.Machine Sys2Proof.CommandSteps Sys2Proof.InvariantKept Sys2Proof.MemoryWrites
  Sys2Proof.BlockTransfer

variable {s t u : State} {i : Instr}

/-! ### Bodies that do not stop -/

/-- The body of a work step does not end in a fault. -/
def GoesOn (w : Work) : Prop := ∀ f, w ≠ .stopped f

theorem goesOn_done (u : State) : GoesOn (.done u) := nofun

theorem goesOn_more (u : State) : GoesOn (.more u) := nofun

theorem goesOn_andThen {first : Work} {rest : State → Work} (h : GoesOn first)
    (hrest : ∀ u, first = .done u → GoesOn (rest u)) : GoesOn (first.andThen rest) := by
  cases first with
  | done u => exact hrest u rfl
  | more u => exact goesOn_more u
  | raised e u => exact nofun
  | stopped f => exact absurd rfl (h f)

theorem goesOn_runCountOn (s : State) : GoesOn (runCountOn s) := by
  unfold runCountOn
  dsimp only
  split
  · exact goesOn_done _
  · exact goesOn_more _

/-- No access of a block step of RUN leaves `Mem`, since the loads and the arithmetic leave CURSOR at the block (R55, R97). -/
theorem goesOn_runBlockOn (hsrc : SrcBlock s) (hdst : DstBlock s) : GoesOn (runBlockOn s) := by
  refine goesOn_andThen (loadBlockOn_not_stopped hsrc.row hsrc.col hsrc.range) fun u hload => ?_
  have hloaded : SameBlock s u := by
    have h := loadBlockOn_sameBlock s
    rwa [hload] at h
  have hblock : SameBlock s (pipelineOn u) := hloaded.trans (pipelineOn_sameBlock u)
  have hdst' : DstBlock (pipelineOn u) := hdst.congr hblock.cfg hblock.cursor
  exact goesOn_andThen (storeBlockOn_not_stopped hdst'.row hdst'.col hdst'.range) fun v _ => goesOn_runCountOn v

/-- A transform finds a block that fits the buffers, because BASIS_VALID says so (R72). -/
theorem goesOn_transform {g : State → State} (hinv : Inv s) (hc : checkBasis s = none) :
    GoesOn (withBlock (fun t => .done (g t)) s) := by
  obtain ⟨-, hhigh, -⟩ := hinv.basis_built (checkBasis_none.mp hc)
  rw [withBlock_fits (f_le_nMax hhigh)]
  exact goesOn_done _

theorem goesOn_run_blocks (hinv : Inv s) (hp : s.ctl.phase = .blocks) : GoesOn (withBlock runBlockOn s) := by
  obtain ⟨-, -, hvalid, -, hrow, hcol, -⟩ := hinv.run_blocks hp
  obtain ⟨hsrc, hdst⟩ := blocks_of_validateAll hvalid hrow hcol
  rw [withBlock_fits hsrc.fits]
  exact goesOn_runBlockOn hsrc hdst

/-- Past its checks no command stops the machine: the checks and the invariant rule out every fault of a body (R126). -/
theorem goesOn_bodyOf (hinv : Inv s) (hc : allOf (checksOf i s.ctl.phase) s = none) : GoesOn (bodyOf i s.ctl.phase s) := by
  cases i
  case loadBlock =>
    have hsrc : SrcBlock s := srcBlock_of_loadChecks hc
    exact loadBlockOn_not_stopped hsrc.row hsrc.col hsrc.range
  case storeBlock =>
    have hdst : DstBlock s := dstBlock_of_storeChecks hc
    exact storeBlockOn_not_stopped hdst.row hdst.col hdst.range
  case run =>
    cases hp : s.ctl.phase with
    | validate => exact goesOn_more _
    | blocks => exact goesOn_run_blocks hinv hp
  case fdctCols | fdctRows | fdct | idctCols | idctRows | idct =>
    exact goesOn_transform hinv ((allOf_one checkBasis).symm.trans hc)
  case validate | buildBasis | cursorNext | mask | recon | nop | clearErr | abort | softReset => exact goesOn_done _

/-! ### Every step is answered -/

theorem workStep_next {checks : State → Option Cause} {body : State → Work} (h : checks s = none → GoesOn (body s)) :
    ∃ t, workStep checks body s = .next t := by
  cases ha : s.ctl.abortPending with
  | true => exact ⟨_, workStep_abort ha⟩
  | false =>
    cases hc : checks s with
    | some c => exact ⟨_, workStep_check ha hc⟩
    | none =>
      cases hb : body s with
      | done u => exact ⟨_, workStep_done ha hc hb⟩
      | more u => exact ⟨_, workStep_more ha hc hb⟩
      | raised e u => exact ⟨_, workStep_raised ha hc hb⟩
      | stopped f => exact absurd hb (h hc f)

theorem engineTurn_idle (h : s.ctl.busy = false) : engineTurn s = .next s := by
  simp [engineTurn, h]

theorem engineTurn_next (hinv : Inv s) : ∃ t, engineTurn s = .next t := by
  cases hbusy : s.ctl.busy with
  | false => exact ⟨s, engineTurn_idle hbusy⟩
  | true =>
    obtain ⟨i, hcmd, hi⟩ := hinv.busy_command hbusy
    rw [engineTurn_busy hbusy (instrOfOpcode_eq_some.mp hcmd) hi, exec_eq_workStep hi]
    exact workStep_next (goesOn_bodyOf hinv)

/-- An instant command has no way to fail (R103 to R106). -/
theorem exec_instant_next (hi : isInstant i = true) (s : State) : ∃ t, exec i s = .next t := by
  cases i
  case nop | clearErr | abort | softReset => exact ⟨_, rfl⟩
  all_goals exact absurd hi (by decide)

/-- A CMD write is answered whatever its word: what is wrong with it is recorded (R107, R121). -/
theorem issue_next (w : Word) (s : State) : ∃ t, issue w s = .next t := by
  unfold issue
  split
  · exact ⟨_, rfl⟩
  · next i _ =>
    split
    · next hi => exact exec_instant_next hi s
    · split <;> exact ⟨_, rfl⟩

theorem writeReg_next (r : Reg) (v : Word) (s : State) : ∃ t, writeReg r v s = .next t := by
  unfold writeReg
  split
  · exact issue_next v s
  · split <;> exact ⟨_, rfl⟩

theorem hostAccess_next (a : HostAccess) (s : State) : ∃ t, hostAccess a s = .next t := by
  unfold hostAccess
  split
  · cases a.kind with
    | read => exact ⟨_, rfl⟩
    | write => exact writeReg_next _ _ _
  · exact ⟨_, rfl⟩

theorem hostMemWrite_next {a : Word} (h : s.hostWriteRaces a.toNat = false) (v : Byte) :
    ∃ t, hostMemWrite a v s = .next t := by
  simp [hostMemWrite, h]

theorem hostMemRead_next (a : Word) (s : State) : ∃ t, hostMemRead a s = .next t := by
  unfold hostMemRead
  split <;> exact ⟨_, rfl⟩

theorem takeInput_next {e : Input} (hinv : Inv s) (hoff : ∀ a v, e = .memWrite a v → s.hostWriteRaces a.toNat = false) :
    ∃ t, takeInput e s = .next t := by
  cases e with
  | engine => exact engineTurn_next hinv
  | access a => exact hostAccess_next a s
  | rst => exact ⟨_, rfl⟩
  | memWrite a v => exact hostMemWrite_next (hoff a v rfl) v
  | memRead a => exact hostMemRead_next a s

/-- Settles O46: by the kinds of inputs; the engine's turn needs the invariant, and a host write of memory its hypothesis. -/
theorem machineNeverStops : Obligations.MachineNeverStops := by
  intro s hinv hoff
  cases hin : s.inputs with
  | nil =>
    rw [step_nil hin]
    exact engineTurn_next hinv
  | cons e rest =>
    rw [step_cons hin]
    refine takeInput_next (inv_congr hinv (by constructor <;> rfl)) fun a v he => ?_
    exact hoff a v rest (he ▸ hin)

/-! ### Every command ends -/

/-- How many work steps the command in flight takes at most: NB + 1, and in RUN's block phase one for each block not yet
counted (R153). -/
def stepsLeft (s : State) : Nat :=
  match s.ctl.phase with
  | .validate => s.nb + 1
  | .blocks => s.nb - s.blocksDone.toNat

theorem stepsLeft_validate (h : s.ctl.phase = .validate) : stepsLeft s = s.nb + 1 := by
  rw [stepsLeft, h]

theorem stepsLeft_blocks (h : s.ctl.phase = .blocks) : stepsLeft s = s.nb - s.blocksDone.toNat := by
  rw [stepsLeft, h]

/-- In the block phase there is a block that is not yet counted (R97). -/
theorem blocksDone_lt_nb (h : RunBlocks s) : s.blocksDone.toNat < s.nb := by
  obtain ⟨-, -, -, -, hrow, hcol, hcount⟩ := h
  rw [hcount]
  exact index_lt hrow hcol

theorem stepsLeft_bounds (hinv : Inv s) : 0 < stepsLeft s ∧ stepsLeft s ≤ s.nb + 1 := by
  cases hp : s.ctl.phase with
  | validate =>
    rw [stepsLeft_validate hp]
    omega
  | blocks =>
    have hlt := blocksDone_lt_nb (hinv.run_blocks hp)
    rw [stepsLeft_blocks hp]
    omega

/-- After a work step the engine is idle, unless RUN goes on: every other end of a work step is the end of a command (R44). -/
theorem more_of_busy (ht : engineTurn s = .next t) (hbusy : s.ctl.busy = true) (hstill : t.ctl.busy = true) :
    bodyOf .run s.ctl.phase s = .more t := by
  obtain ⟨hidle, -⟩ | ⟨-, i, -, hi, he⟩ := engineTurn_cases ht
  · simp [hidle] at hbusy
  rw [exec_eq_workStep hi] at he
  obtain ⟨-, rfl⟩ | ⟨-, c, -, rfl⟩ | ⟨-, -, ⟨u, -, rfl⟩ | hmore | ⟨e, u, -, rfl⟩⟩ := workStep_cases he
  · simp [Ctl.idle] at hstill
  · simp [Ctl.idle] at hstill
  · simp [Ctl.idle] at hstill
  · obtain rfl := run_of_more hmore
    exact hmore
  · simp [Ctl.idle] at hstill

/-- A work step after which RUN goes on is step 0 or counts a block. -/
theorem stepsLeft_decreases (hinv : Inv s) (hmore : bodyOf .run s.ctl.phase s = .more t) : stepsLeft t < stepsLeft s := by
  have hframe := bodyOf_framed .run s
  rw [hmore] at hframe
  obtain ⟨hout, hctl, -⟩ := hframe
  have hphase : t.ctl.phase = .blocks := by rw [hctl]
  rw [stepsLeft_blocks hphase, nb_congr hout.cfg]
  cases hp : s.ctl.phase with
  | validate =>
    rw [stepsLeft_validate hp]
    omega
  | blocks =>
    rw [hp] at hmore
    have hrun : RunBlocks s := hinv.run_blocks hp
    have hlt := blocksDone_lt_nb hrun
    obtain ⟨-, -, hvalid, -, hrow, hcol, -⟩ := hrun
    have hfits := (blocks_of_validateAll hvalid hrow hcol).1.fits
    obtain ⟨-, -, -, hdone, -⟩ := runBlockOn_counts (.inl ((withBlock_fits hfits).symm.trans hmore))
    obtain ⟨-, -, hnb⟩ := grid_lt s
    rw [stepsLeft_blocks hp, hdone, BitVec.toNat_add, BitVec.toNat_ofNat]
    omega

theorem engineRun_succ {k : Nat} (hturn : engineTurn s = .next u) : engineRun (k + 1) s = engineRun k u := by
  rw [engineRun, hturn]

/-- The engine alone is idle after at most the steps left. -/
theorem idle_within_stepsLeft (hinv : Inv s) :
    ∃ k t, k ≤ stepsLeft s ∧ engineRun k s = .next t ∧ t.ctl.busy = false := by
  induction hn : stepsLeft s using Nat.strong_induction_on generalizing s with
  | _ n ih =>
    subst hn
    cases hbusy : s.ctl.busy with
    | false => exact ⟨0, s, Nat.zero_le _, rfl, hbusy⟩
    | true =>
      obtain ⟨u, hturn⟩ := engineTurn_next hinv
      cases hstill : u.ctl.busy with
      | false => exact ⟨1, u, (stepsLeft_bounds hinv).1, engineRun_succ hturn, hstill⟩
      | true =>
        have hless := stepsLeft_decreases hinv (more_of_busy hturn hbusy hstill)
        obtain ⟨k, t, hk, hrun, hidle⟩ := ih _ hless (inv_engineTurn hinv hturn) rfl
        exact ⟨k + 1, t, by omega, (engineRun_succ hturn).trans hrun, hidle⟩

/-- Settles O43: by induction on the steps left, which are at most NB + 1. -/
theorem everyCommandEnds : Obligations.EveryCommandEnds := by
  intro s hinv
  obtain ⟨k, t, hk, hrun, hidle⟩ := idle_within_stepsLeft hinv
  exact ⟨k, t, hk.trans (stepsLeft_bounds hinv).2, hrun, hidle⟩

end Sys2Proof.MachineProgress
end

section
/-! PROOFS. How long a successful RUN takes (spec/70_reset_and_hazards.md R153): a step for the validation and one for each
block, whatever memory holds. -/

namespace Sys2Proof.RunLength

open Sys2Proof Sys2Proof.Machine Sys2Proof.CommandSteps Sys2Proof.InvariantKept Sys2Proof.BlockTransfer
  Sys2Proof.BlockCursor Sys2Proof.RunValidation Sys2Proof.RunBlockStep Sys2Proof.MachineProgress

variable {s t u : State} {k : Nat}

/-! ### The block at CURSOR -/

theorem pixelsAnswer_congr (h : PixelsAnswer s) (hcfg : u.cfg = s.cfg) (hbus : u.busErrors = s.busErrors) :
    PixelsAnswer u := by
  simpa only [PixelsAnswer, rt_congr hcfg, ct_congr hcfg, srcPixel_congr hcfg, dstPixel_congr hcfg, busError_congr hbus]
    using h

/-- In RUN's block phase the accesses of a block step are accesses to pixels, and all that it needs is there (R97). -/
theorem blockReady_of_runBlocks (h : RunBlocks u) (habort : u.ctl.abortPending = false) (hanswers : PixelsAnswer u) :
    BlockReady u := by
  obtain ⟨-, -, hvalid, hbasis, hrow, hcol, -⟩ := h
  exact ⟨habort, hvalid, hbasis, hrow, hcol, fun i j hi hj => hanswers _ _ (index_lt hrow hi) (index_lt hcol hj)⟩

/-- The advance from the last block of the grid wraps to the first (R88). -/
theorem nextBlock_of_last {br bc r q : Nat} (hr : r < br) (hq : q < bc) (hlast : r * bc + q + 1 = br * bc) :
    nextBlock br bc r q = (0, 0) := by
  obtain ⟨br, rfl⟩ := Nat.exists_eq_add_one.mpr (Nat.zero_lt_of_lt hr)
  obtain ⟨bc, rfl⟩ := Nat.exists_eq_add_one.mpr (Nat.zero_lt_of_lt hq)
  have hindex : r * (bc + 1) + q = br * (bc + 1) + bc := by
    rw [Nat.add_mul] at hlast
    omega
  obtain ⟨rfl, rfl⟩ := rowMajor_inj hq bc.lt_add_one hindex
  exact nextBlock_last

theorem nextCursor_of_last (h : RunBlocks u) (hlast : u.blocksDone.toNat + 1 = u.nb) : u.nextCursor = ⟨0#16, 0#16⟩ := by
  obtain ⟨-, -, -, -, hrow, hcol, hcount⟩ := h
  simp only [State.nextCursor, nextBlock_of_last hrow hcol (hcount ▸ hlast)]

/-! ### The block steps -/

/-- RUN, accepted in `s`, has taken step 0 and k block steps, and goes on; the registers and flags it does not write are those
of `s`. -/
structure RunAt (s : State) (k : Nat) (u : State) : Prop where
  outside : SameOutside s u
  control : u.ctl = ⟨true, opcodeOf .run, false, .blocks⟩
  blocks : RunBlocks u
  count : u.blocksDone.toNat = k

theorem runAt_zero (hctl : s.ctl = ⟨true, opcodeOf .run, false, .validate⟩) (hvalid : validateAll s = none) :
    RunAt s 0 (runStartOn s) :=
  ⟨by constructor <;> simp, by simp [hctl], runBlocks_runStartOn (by rw [hctl]) (by rw [hctl]) hvalid, by simp⟩

namespace RunAt

variable (h : RunAt s k u)
include h

theorem fits : u.f ≤ Config.nMax := by
  obtain ⟨-, -, hvalid, -, hrow, hcol, -⟩ := h.blocks
  exact (blocks_of_validateAll hvalid hrow hcol).1.fits

theorem engineTurn_eq : engineTurn u = workStep noChecks runBlockOn u := by
  rw [engineTurn_busy (i := .run) (by rw [h.control]) (by rw [h.control]) rfl, exec_run_of_blocks (by rw [h.control]),
    workStep, workStep, withBlock_fits h.fits]

theorem noAbort : u.ctl.abortPending = false := by rw [h.control]

theorem count_lt : k < s.nb := by
  rw [← h.count, ← nb_congr h.outside.cfg]
  exact blocksDone_lt_nb h.blocks

/-- BLOCKS_DONE does not wrap (R37). -/
theorem count_succ : (u.blocksDone + 1#32).toNat = k + 1 := by
  obtain ⟨-, -, hnb⟩ := grid_lt s
  have hlt := h.count_lt
  rw [BitVec.toNat_add, h.count, BitVec.toNat_ofNat]
  omega

variable (hanswers : PixelsAnswer s)
include hanswers

/-- A block step is answered, and is the last step of RUN exactly when it counts block NB (R97). -/
theorem runBlockOn_ends :
    ∃ v, v.ctl = u.ctl ∧ runBlockOn u = if k + 1 = s.nb then .done v else .more v := by
  have hready := blockReady_of_runBlocks h.blocks h.noAbort
    (pixelsAnswer_congr hanswers h.outside.cfg h.outside.busErrors)
  refine ⟨countBlock (processBlock u), (countBlock_control _).1.trans (processBlock_ctl u), ?_⟩
  rw [← withBlock_fits (body := runBlockOn) h.fits, hready.body_eq, h.count_succ, nb_congr h.outside.cfg]

/-- A block step that is not the last leaves RUN at the next block. -/
theorem next (hlt : k + 1 < s.nb) : ∃ v, engineTurn u = .next v ∧ RunAt s (k + 1) v := by
  obtain ⟨v, hsame, hmore⟩ := h.runBlockOn_ends hanswers
  rw [if_neg hlt.ne] at hmore
  obtain ⟨hout, -, -, hcount, -⟩ := runBlockOn_counts (.inl hmore)
  refine ⟨v, h.engineTurn_eq.trans (workStep_more h.noAbort rfl hmore), h.outside.trans hout, hsame.trans h.control,
    runBlocks_runBlockOn h.blocks hmore hsame, ?_⟩
  rw [hcount, h.count_succ]

/-- The last block step completes RUN (R97, R122). -/
theorem last (hlast : k + 1 = s.nb) :
    ∃ t, engineTurn u = .next t ∧ Completed s t ∧ t.cursor = ⟨0#16, 0#16⟩ ∧ t.blocksDone.toNat = s.nb ∧
      t.basisValid = true ∧ SameErrors s t ∧ t.cfg = s.cfg := by
  obtain ⟨v, -, hdone⟩ := h.runBlockOn_ends hanswers
  rw [if_pos hlast] at hdone
  obtain ⟨hout, -, hvalid, hcount, hcursor, -⟩ := runBlockOn_counts (.inr hdone)
  have hall : SameOutside s v := h.outside.trans hout
  have hwraps : u.nextCursor = ⟨0#16, 0#16⟩ :=
    nextCursor_of_last h.blocks (by rw [h.count, hlast, nb_congr h.outside.cfg])
  have ⟨_, _, _, hbasis, _⟩ := h.blocks
  refine ⟨complete v, h.engineTurn_eq.trans (workStep_done h.noAbort rfl hdone), ⟨rfl, ?_⟩, hcursor.trans hwraps, ?_,
    hvalid.trans hbasis, ⟨hall.errCode, hall.errAddr, hall.errMulti, hall.lockedWrite⟩, hall.cfg⟩
  · rw [complete_irqStatus, hall.irqStatus]
  · rw [complete_blocksDone, hcount, h.count_succ, hlast]

end RunAt

/-! ### The whole command -/

/-- One more work step after a run of the engine alone. -/
theorem engineRun_snoc (hrun : engineRun k s = .next u) (hturn : engineTurn u = .next t) :
    engineRun (k + 1) s = .next t := by
  induction k generalizing s with
  | zero =>
    obtain rfl := Host.Outcome.next.inj hrun
    exact engineRun_succ hturn
  | succ k ih =>
    cases hfirst : engineTurn s with
    | next v =>
      rw [engineRun_succ hfirst] at hrun ⊢
      exact ih hrun
    | fault f => simp [engineRun, hfirst] at hrun
    | refused r => simp [engineRun, hfirst] at hrun

/-- After step 0 and each block step but the last, RUN goes on. -/
theorem engineRun_runAt (hctl : s.ctl = ⟨true, opcodeOf .run, false, .validate⟩) (hvalid : validateAll s = none)
    (hanswers : PixelsAnswer s) (hk : k < s.nb) : ∃ u, engineRun (k + 1) s = .next u ∧ RunAt s k u := by
  induction k with
  | zero =>
    have hturn : engineTurn s = .next (runStartOn s) := by
      rw [engineTurn_busy (i := .run) (by rw [hctl]) (by rw [hctl]) rfl,
        exec_run_start (by rw [hctl]) (by rw [hctl]) hvalid]
    exact ⟨_, engineRun_succ hturn, runAt_zero hctl hvalid⟩
  | succ k ih =>
    obtain ⟨u, hrun, hat⟩ := ih (by omega)
    obtain ⟨v, hturn, hat'⟩ := hat.next hanswers hk
    exact ⟨v, engineRun_snoc hrun hturn, hat'⟩

/-- Settles O40: RUN goes on after step 0 and every block step before the last, which completes it. -/
theorem runCompletesInNbPlusOneSteps : Obligations.RunCompletesInNbPlusOneSteps := by
  intro s hctl hvalid hanswers
  refine ⟨fun k hk => ?_, ?_⟩
  · cases k with
    | zero => exact ⟨s, rfl, by rw [hctl]⟩
    | succ k =>
      obtain ⟨u, hrun, hat⟩ := engineRun_runAt hctl hvalid hanswers hk
      exact ⟨u, hrun, by rw [hat.control]⟩
  · obtain ⟨-, -, -, -, hbr, hbc⟩ := checkFFull_block (validateAll_none.mp hvalid).1
    have hnb : 0 < s.nb := Nat.mul_pos hbr hbc
    obtain ⟨n, hn⟩ := Nat.exists_eq_add_one.mpr hnb
    obtain ⟨u, hrun, hat⟩ := engineRun_runAt hctl hvalid hanswers (k := n) (by omega)
    obtain ⟨t, hturn, hend⟩ := hat.last hanswers hn.symm
    rw [hn] at hend ⊢
    exact ⟨t, engineRun_snoc hrun hturn, hend⟩

end Sys2Proof.RunLength
end

section
/-! PROOFS. The errors of a command in flight (spec/60_exceptions.md R119, R125 to R127) and how long a recorded error stays
(R120, R131). -/

namespace Sys2Proof.ErrorRecord

open Sys2Proof Sys2Proof.Machine Sys2Proof.HostRegisters Sys2Proof.CommandSteps Sys2Proof.CommandWords
  Sys2Proof.BasisForward Sys2Proof.FrequencyMask Sys2Proof.BufferWindow Sys2Proof.ControlCommands

variable {s t : State} {i : Instr} {c : Cause} {r : ErrRecord}

/-! ### Failing checks (R126) -/

theorem exec_endedWith_check (hi : isInstant i = false) (habort : s.ctl.abortPending = false)
    (hcheck : allOf (checksOf i s.ctl.phase) s = some c) : ∃ t, exec i s = .next t ∧ EndedWith c s t := by
  obtain ⟨-, -, -, -, hbus⟩ := checksOf_cause hcheck
  rw [exec_eq_workStep hi]
  exact workStep_endedWith habort hcheck hbus

/-- Settles O7: every non-instant command is a work step with its list of checks, none of which gives an error with an
address. -/
theorem failedCheckEndsTheCommand : Obligations.FailedCheckEndsTheCommand :=
  fun _ _ _ hi habort hcheck => exec_endedWith_check hi habort hcheck

/-! ### ABORTED (R119) -/

theorem errorEnd_errCode_first (h : s.errCode = none) (e : Raised) :
    (errorEnd e s).errCode = some ⟨e.cause, s.ctl.curCmd⟩ := by
  rw [errorEnd_errCode, (record_first s e.cause s.ctl.curCmd _ h).1]

/-- What a work step does to ERR_CODE: nothing, or it is an error end, and one with ABORTED only for a pending ABORT, since
checks have causes of their own and bodies raise bus errors alone (R118, R120). -/
theorem errCode_of_exec (hi : isInstant i = false) (he : exec i s = .next t) :
    t.errCode = s.errCode ∨
      ∃ e u, t = errorEnd e u ∧ u.errCode = s.errCode ∧ (e.cause = .aborted → s.ctl.abortPending = true) := by
  rw [exec_eq_workStep hi] at he
  have hframe := bodyOf_framed i s
  obtain ⟨ha, rfl⟩ | ⟨-, c, hc, rfl⟩ | ⟨-, -, ⟨u, hb, rfl⟩ | hb | ⟨e, u, hb, rfl⟩⟩ := workStep_cases he
  · exact .inr ⟨_, _, rfl, rfl, fun _ => ha⟩
  · obtain ⟨hne, -⟩ := checksOf_cause hc
    exact .inr ⟨_, s, rfl, rfl, fun h => absurd h hne⟩
  · rw [hb] at hframe
    obtain ⟨hout, -⟩ := hframe
    exact .inl hout.errCode
  · rw [hb] at hframe
    obtain ⟨hout, -⟩ := hframe
    exact .inl hout.errCode
  · rw [hb] at hframe
    obtain ⟨hout, -, -, hbus, -⟩ := hframe
    exact .inr ⟨e, u, rfl, hout.errCode, fun h => by simp [h] at hbus⟩

theorem abortPending_of_aborted {o : Byte} (hi : isInstant i = false) (h0 : s.errCode = none) (he : exec i s = .next t)
    (h1 : t.errCode = some ⟨.aborted, o⟩) : s.ctl.abortPending = true := by
  obtain hkept | ⟨e, u, rfl, hu, hpending⟩ := errCode_of_exec hi he
  · simp [hkept, h0] at h1
  · rw [errorEnd_errCode_first (hu.trans h0)] at h1
    exact hpending (congrArg ErrRecord.cause (Option.some.inj h1))

/-- Settles O8: the abort test comes first, and nothing after it gives ABORTED. -/
theorem abortTestComesBeforeAnyWork : Obligations.AbortTestComesBeforeAnyWork :=
  ⟨fun _ _ => exec_endedWith_aborted, fun _ _ _ _ => abortPending_of_aborted⟩

/-! ### The validation boundary (R127) -/

theorem checkFFull_of_notPositive (h : s.fInt ≤ 0) : checkFFull s = some .blockSizeNotPositive := if_pos h

theorem checkFFull_of_aboveRows (hlow : 1 ≤ s.fInt) (h : (s.imgR : Int) < s.fInt) :
    checkFFull s = some .blockSizeAboveRows := by
  rw [checkFFull, if_neg (by omega), if_pos h]

theorem checkFFull_of_aboveCols (hlow : 1 ≤ s.fInt) (hrows : s.fInt ≤ s.imgR) (h : (s.imgC : Int) < s.fInt) :
    checkFFull s = some .blockSizeAboveCols := by
  rw [checkFFull, if_neg (by omega), if_neg (by omega), if_pos h]

/-- VALIDATE and RUN look at the block size first (R126). -/
theorem checksOf_of_blockSize (hi : i ∈ [Instr.validate, .run]) (h : checkFFull s = some c) :
    allOf (checksOf i .validate) s = some c := by
  simp only [List.mem_cons, List.not_mem_nil, or_false] at hi
  obtain rfl | rfl := hi <;> rw [checksOf, allOf_cons, h]

/-- VALIDATE, RUN and MASK look at the threshold next (R126); the block size that passes for an image passes for MASK. -/
theorem checksOf_of_threshold (hi : i ∈ [Instr.validate, .run, .mask]) (hsize : checkFFull s = none)
    (h : checkThreshold s = some c) : allOf (checksOf i .validate) s = some c := by
  simp only [List.mem_cons, List.not_mem_nil, or_false] at hi
  obtain rfl | rfl | rfl := hi
  · rw [checksOf, allOf_cons, hsize, allOf_cons, h]
  · rw [checksOf, allOf_cons, hsize, allOf_cons, h]
  · obtain ⟨hlow, -, -, hhigh⟩ := checkFFull_none.mp hsize
    exact maskChecks_of_checkThreshold (checkFSize_none.mpr ⟨hlow, hhigh⟩) h

theorem not_isInstant_of_mem : ∀ i ∈ [Instr.validate, .run, .mask], isInstant i = false := by decide

theorem exec_endedWith_of_mem (habort : s.ctl.abortPending = false) (hphase : s.ctl.phase = .validate)
    (hi : i ∈ [Instr.validate, .run, .mask]) (hcheck : allOf (checksOf i .validate) s = some c) :
    ∃ t, exec i s = .next t ∧ EndedWith c s t :=
  exec_endedWith_check (not_isInstant_of_mem i hi) habort (hphase ▸ hcheck)

/-- Settles O11: each case fails one check after the checks before it have passed. -/
theorem validationBoundaryErrors : Obligations.ValidationBoundaryErrors := by
  intro s habort hphase
  have widen : ∀ {i}, i ∈ [Instr.validate, .run] → i ∈ [Instr.validate, .run, .mask] :=
    fun hi => List.mem_append_left [Instr.mask] hi
  refine ⟨fun hlow hrows hcols hhigh i hi => ⟨fun hd => ?_, fun hd => ?_⟩,
    fun i hi => ⟨fun hf => ?_, fun hlow hf => ?_, fun hlow hrows hf => ?_⟩⟩
  · have hsize := checkFFull_none.mpr ⟨hlow, hrows, hcols, hhigh⟩
    exact exec_endedWith_of_mem habort hphase hi (checksOf_of_threshold hi hsize (checkThreshold_of_negative (by omega)))
  · have hsize := checkFFull_none.mpr ⟨hlow, hrows, hcols, hhigh⟩
    have hthresh : checkThreshold s = some .thresholdTooLarge := checkThreshold_of_tooLarge (by omega) (by omega)
    exact exec_endedWith_of_mem habort hphase hi (checksOf_of_threshold hi hsize hthresh)
  · exact exec_endedWith_of_mem habort hphase (widen hi) (checksOf_of_blockSize hi (checkFFull_of_notPositive (by omega)))
  · exact exec_endedWith_of_mem habort hphase (widen hi) (checksOf_of_blockSize hi (checkFFull_of_aboveRows hlow hf))
  · exact exec_endedWith_of_mem habort hphase (widen hi) (checksOf_of_blockSize hi (checkFFull_of_aboveCols hlow hrows hf))

/-! ### A recorded error stays (R120) -/

theorem record_errCode_some (h : s.errCode = some r) (c : Cause) (o : Byte) (a : Nat) :
    (record c o a s).errCode = some r :=
  (record_later s c o a r h).1.trans h

theorem errorEnd_errCode_some (h : s.errCode = some r) (e : Raised) : (errorEnd e s).errCode = some r := by
  rw [errorEnd_errCode, record_errCode_some h]

/-- No work step replaces a recorded error: a second one only sets ERR_MULTI (R120). -/
theorem errCode_of_engineTurn (h : s.errCode = some r) (ht : engineTurn s = .next t) : t.errCode = some r := by
  obtain ⟨-, rfl⟩ | ⟨-, i, -, hi, he⟩ := engineTurn_cases ht
  · exact h
  obtain hkept | ⟨e, u, rfl, hu, -⟩ := errCode_of_exec hi he
  · exact hkept.trans h
  · exact errorEnd_errCode_some (hu.trans h) e

/-- Of the instant commands CLEAR_ERR and SOFT_RESET alone reach ERR_CODE (R103 to R106). -/
theorem errCode_of_instant (h : s.errCode = some r) (hi : isInstant i = true) (he : exec i s = .next t) :
    t.errCode = some r ∨ i = .clearErr ∨ i = .softReset := by
  cases i
  case nop =>
    obtain rfl := Host.Outcome.next.inj he
    exact .inl h
  case abort =>
    obtain rfl := Host.Outcome.next.inj he
    left
    split <;> exact h
  case clearErr => exact .inr (.inl rfl)
  case softReset => exact .inr (.inr rfl)
  all_goals exact absurd hi (by decide)

theorem errCode_of_issue {w : Word} (h : s.errCode = some r) (hw : issue w s = .next t) :
    t.errCode = some r ∨ w = encode .clearErr ∨ w = encode .softReset := by
  obtain ⟨why, -, rfl⟩ | ⟨i, hd, hi, he⟩ | ⟨i, -, -, -, rfl⟩ | ⟨i, -, -, -, rfl⟩ := issue_cases hw
  · exact .inl (record_errCode_some h _ _ _)
  · obtain rfl := decode_eq_command_iff.mp hd
    exact (errCode_of_instant h hi he).imp_right (Or.imp (congrArg encode) (congrArg encode))
  · exact .inl (record_errCode_some h _ _ _)
  · exact .inl h

theorem errCode_of_writeReg {q : Reg} {v : Word} (h : s.errCode = some r) (hw : writeReg q v s = .next t) :
    t.errCode = some r ∨ (q = .cmd ∧ (v = encode .clearErr ∨ v = encode .softReset)) := by
  obtain ⟨hq, hissue⟩ | ⟨-, -, -, rfl⟩ | ⟨-, -, rfl⟩ := writeReg_cases hw
  · exact (errCode_of_issue h hissue).imp_right (And.intro hq)
  · exact .inl h
  · obtain ⟨-, hcode, -⟩ := storeReg_frame q v s
    exact .inl (hcode.trans h)

/-- A well-formed write of a word to CMD is the input that the host program writes as a command (R71). -/
theorem access_eq_hostWr {a : HostAccess} (hwidth : a.width = 32) (hkind : a.kind = .write) (hreg : regAt a.offset = .cmd) :
    Input.access a = hostWr .cmd a.data := by
  obtain ⟨kind, width, offset, data⟩ := a
  obtain rfl : kind = .write := hkind
  obtain rfl : width = 32 := hwidth
  obtain rfl : offset = 0x08#8 := offset_of_cmd hreg
  rfl

theorem errCode_of_hostAccess {a : HostAccess} (h : s.errCode = some r) (ha : hostAccess a s = .next t) :
    t.errCode = some r ∨ Input.access a = hostCmd .clearErr ∨ Input.access a = hostCmd .softReset := by
  by_cases hwell : a.width = 32 ∧ a.offset.toNat % 4 = 0
  case neg =>
    rw [hostAccess, if_neg hwell] at ha
    obtain rfl := Host.Outcome.next.inj ha
    exact .inl h
  obtain ⟨-, rfl⟩ | ⟨-, rfl⟩ | ⟨hkind, hw⟩ := hostAccess_cases ha
  · exact .inl h
  · rw [readReg_state]
    exact .inl h
  · obtain hkept | ⟨hreg, hword⟩ := errCode_of_writeReg (s := { s with resp := some .written }) h hw
    · exact .inl hkept
    · rw [access_eq_hostWr hwell.1 hkind hreg]
      exact .inr (hword.imp (congrArg (hostWr .cmd)) (congrArg (hostWr .cmd)))

theorem errCode_of_takeInput {e : Input} (h : s.errCode = some r) (ht : takeInput e s = .next t) :
    t.errCode = some r ∨ e = .rst ∨ e = hostCmd .clearErr ∨ e = hostCmd .softReset := by
  cases e with
  | engine => exact .inl (errCode_of_engineTurn h ht)
  | access a => exact (errCode_of_hostAccess h ht).imp_right .inr
  | rst => exact .inr (.inl rfl)
  | memWrite a v =>
    obtain rfl := hostMemWrite_eq ht
    exact .inl h
  | memRead a =>
    obtain ⟨-, rfl⟩ | ⟨-, v, rfl, -⟩ := hostMemRead_cases ht <;> exact .inl h

/-- Settles O12: by the kinds of inputs; the engine's turn never replaces a recorded error. -/
theorem recordedErrorStaysUntilCleared : Obligations.RecordedErrorStaysUntilCleared := by
  intro s t r h ht hlost
  cases hin : s.inputs with
  | nil =>
    rw [step_nil hin] at ht
    exact absurd (errCode_of_engineTurn h ht) hlost
  | cons e rest =>
    rw [step_cons hin] at ht
    obtain hkept | hclears := errCode_of_takeInput (s := { s with inputs := rest }) h ht
    · exact absurd hkept hlost
    · exact ⟨rest, by simpa using hclears⟩

end Sys2Proof.ErrorRecord
end

section
/-! PROOFS. The state after reset (spec/70_reset_and_hazards.md R140, R142): what a host reads of it, and that it meets the
invariant. -/

namespace Sys2Proof.ResetState

open Sys2Proof Sys2Proof.Machine Sys2Proof.InvariantKept Sys2Proof.RegisterWrites Sys2Proof.ControlCommands

/-! ### What a host reads (R142) -/

/-- The block size is 0 after reset, so that BLK_GRID has no count to show (R35). -/
theorem blkGridWord_reset : State.reset.blkGridWord = 0#32 := by
  have hf : State.reset.fInt = 0 := rfl
  exact if_neg (by omega)

/-- Every register but ID, CAPS and the buffer window reads 0 after reset. -/
theorem readReg_reset {r : Reg} (hid : r ≠ .id) (hcaps : r ≠ .caps) (hlo : r ≠ .bufDataLo) (hhi : r ≠ .bufDataHi) :
    (readReg r State.reset).1 = 0#32 := by
  cases r
  case id => exact absurd rfl hid
  case caps => exact absurd rfl hcaps
  case bufDataLo => exact absurd rfl hlo
  case bufDataHi => exact absurd rfl hhi
  case blkGrid => exact blkGridWord_reset
  case status => exact statusWord_eq_zero rfl rfl rfl rfl rfl
  all_goals rfl

/-- Each register of the map stands at one offset (R22). -/
theorem eq_offsetOf_of_regAt {r : Reg} {off : BitVec 8} (h : regAt off = r) (hr : r ≠ .reserved) : off = offsetOf r := by
  have hrow : ∀ e ∈ regMap, e.1 = offsetOf e.2 := by decide
  exact hrow _ (mem_regMap_of_regAt hr h)

/-- A well-formed read answers with the value of the register (R50, R109). -/
theorem hostAccess_read {off : BitVec 8} (halign : off.toNat % 4 = 0) (v : Word) (s : State) :
    ∃ t, hostAccess ⟨.read, 32, off, v⟩ s = .next t ∧ t.resp = some (.data (readReg (regAt off) s).1) :=
  ⟨_, if_pos ⟨rfl, halign⟩, rfl⟩

/-- Settles O18: the read gives the value of the register at the offset, and only two of the registers do not read 0. -/
theorem resetValuesAreReadBack : Obligations.ResetValuesAreReadBack := by
  intro off halign hlo hhi
  obtain ⟨t, hread, hresp⟩ := hostAccess_read halign 0#32 State.reset
  refine ⟨t, hread, ?_, rfl⟩
  rw [hresp]
  split
  · next h =>
    subst h
    rfl
  · next hid =>
    split
    · next h =>
      subst h
      rfl
    · next hcaps =>
      rw [readReg_reset (fun h => hid (eq_offsetOf_of_regAt h nofun)) (fun h => hcaps (eq_offsetOf_of_regAt h nofun))
        (fun h => hlo (eq_offsetOf_of_regAt h nofun)) (fun h => hhi (eq_offsetOf_of_regAt h nofun))]

/-! ### The invariant -/

/-- Settles O44: the engine is idle, no error is recorded, BASIS_VALID is 0, and memory lists nothing. -/
theorem resetMeetsTheInvariant : Obligations.ResetMeetsTheInvariant :=
  have hdata : InvData State.reset :=
    ⟨wf_reset, rfl, by simp [BasisBuilt, State.reset], fun _ => ⟨rfl, rfl⟩, fun _ _ _ => rfl⟩
  hdata.inv_of_idle rfl

end Sys2Proof.ResetState
end
